-- ==== Sys2Proof/Word.lean ====
section
/-! DEFINITION. The word and byte types of ZCORE (spec 10_state R32, 20_memory R100). -/

namespace Sys2Proof

/-- One byte of host memory, of a window or of the wire (20_memory R100). -/
abbrev Byte := BitVec 8

/-- One CSR, one stream register or one host address: ADDR_W = 32 (00_scope R9, 10_state R32). -/
abbrev Word := BitVec 32

end Sys2Proof
end

