-- ==== Sys2Proof/Config.lean ====
section
/-! DEFINITION. What one build of ZCORE fixes (spec 00_scope R9, 10_state R33). -/

namespace Sys2Proof

/-- The build parameters that CSR.CFG reports (10_state R33). They stand in State, so a statement about every
state is a statement about every build. -/
structure Params where
  /-- NCTX, the number of context slots, 2..256. -/
  nctx : Nat
  /-- TOTAL64: TOTAL_W is 64 (true) or 32 (false). -/
  total64 : Bool
  /-- ALLOW_TOOFAR: IUNDERMINE can turn the lenient mode on. -/
  allowTooFar : Bool
  deriving DecidableEq, Repr

/-- The range 00_scope R9 gives NCTX. -/
def Params.wf (p : Params) : Bool := decide (2 ≤ p.nctx) && decide (p.nctx ≤ 256)

/-- The build State.reset stands for. DESIGN CHOICE (log entry 1): R9 leaves NCTX and TOTAL_W open; its default for
ALLOW_TOOFAR is false. -/
def Config.build : Params := { nctx := 4, total64 := true, allowTooFar := false }

end Sys2Proof
end

