-- ==== Sys2Proof/Syntax.lean ====
section
/-! DEFINITION. The instructions of ZCORE: one constructor for each row of spec/opcode_table.json. -/

namespace Sys2Proof

/-- A command (30_encoding R131) or an element of the wire format (30_encoding parts 2 and 3). Every command carries
the CTX byte `k` and the B byte `b` of its CMD word; a command without a B operand ignores `b` (R131). -/
inductive Instr where
  /-- OP 0x01, initialise a D-engine (R380). -/
  | dinit (k b : BitVec 8)
  /-- OP 0x02, compress; `b` is the flush value (R381). -/
  | dproc (k b : BitVec 8)
  /-- OP 0x03, load a preset dictionary (R385). -/
  | dsetdict (k b : BitVec 8)
  /-- OP 0x04, restart the stream (R383). -/
  | dreset (k b : BitVec 8)
  /-- OP 0x05, change level and strategy (R384). -/
  | dparams (k b : BitVec 8)
  /-- OP 0x06, end the stream (R386). -/
  | dend (k b : BitVec 8)
  /-- OP 0x11, initialise an I-engine (R540). -/
  | iinit (k b : BitVec 8)
  /-- OP 0x12, decompress; `b` is the flush value (R500). -/
  | iproc (k b : BitVec 8)
  /-- OP 0x13, supply a preset dictionary (R542). -/
  | isetdict (k b : BitVec 8)
  /-- OP 0x14, restart the stream (R541). -/
  | ireset (k b : BitVec 8)
  /-- OP 0x15, search for a full-flush marker (R543). -/
  | isync (k b : BitVec 8)
  /-- OP 0x16, duplicate a context; `b` is the destination (R545). -/
  | icopy (k b : BitVec 8)
  /-- OP 0x17, lenient mode; `b` is the subvert flag (R546). -/
  | iundermine (k b : BitVec 8)
  /-- OP 0x18, end the stream (R547). -/
  | iend (k b : BitVec 8)
  /-- Block header, BTYPE 0 (R145, R513). -/
  | blkStored (bfinal : Bool)
  /-- Block header, BTYPE 1 (R145, R512). -/
  | blkFixed (bfinal : Bool)
  /-- Block header, BTYPE 2 (R145, R515). -/
  | blkDynamic (bfinal : Bool)
  /-- Block header, BTYPE 3, reserved (R145, R512). -/
  | blkReserved (bfinal : Bool)
  /-- The two-byte zlib header with CM = 8 (R141, R510). -/
  | zlibHdr (cinfo : BitVec 4) (flevel : BitVec 2) (fdict : Bool) (fcheck : BitVec 5)
  /-- The dictionary's Adler-32 after the header (R142, R511). -/
  | zlibDictid (id : Word)
  /-- LEN and NLEN of a stored block (R148, R513). -/
  | storedLen (len nlen : BitVec 16)
  /-- The Adler-32 trailer (R143, R528). -/
  | zlibTrailer (adler : Word)
  /-- Fixed 7-bit code 0000000, end-of-block (R149, R520). -/
  | fixEob
  /-- Fixed 7-bit code 0000xxx, lit/len symbols 257..263. -/
  | fixLen257to263 (x : BitVec 3)
  /-- Fixed 7-bit code 0001xxx, lit/len symbols 264..271. -/
  | fixLen264to271 (x : BitVec 3)
  /-- Fixed 7-bit code 0010xxx, lit/len symbols 272..279. -/
  | fixLen272to279 (x : BitVec 3)
  /-- Fixed 8-bit code 0011xxxx, literals 0..15. -/
  | fixLit0to15 (x : BitVec 4)
  /-- Fixed 8-bit code 01xxxxxx, literals 16..79. -/
  | fixLit16to79 (x : BitVec 6)
  /-- Fixed 8-bit code 10xxxxxx, literals 80..143. -/
  | fixLit80to143 (x : BitVec 6)
  /-- Fixed 8-bit code 11000xxx, lit/len symbols 280..285. -/
  | fixLen280to285 (x : BitVec 3)
  /-- Fixed 8-bit code 1100011x, the invalid symbols 286 and 287. -/
  | fixInvalid286to287 (x : BitVec 1)
  /-- Fixed 9-bit code 11001xxxx, literals 144..159. -/
  | fixLit144to159 (x : BitVec 4)
  /-- Fixed 9-bit code 1101xxxxx, literals 160..191. -/
  | fixLit160to191 (x : BitVec 5)
  /-- Fixed 9-bit code 111xxxxxx, literals 192..255. -/
  | fixLit192to255 (x : BitVec 6)
  /-- Fixed 5-bit distance code 0xxxx, symbols 0..15 (R149, R522). -/
  | fixDist0to15 (x : BitVec 4)
  /-- Fixed 5-bit distance code 1xxxx, symbols 16..29. -/
  | fixDist16to29 (x : BitVec 4)
  /-- Fixed 5-bit distance code 1111x, the invalid symbols 30 and 31. -/
  | fixDistInvalid (x : BitVec 1)
  /-- Decoded lit/len symbol 0..255 (R150, R520). -/
  | symLiteral (byte : BitVec 8)
  /-- Decoded lit/len symbol 256. -/
  | symEob
  /-- Decoded lit/len symbol 256 + x, 257..285. -/
  | symLength (x : BitVec 8)
  /-- Decoded lit/len symbol 286 + x (R158). -/
  | symLlInvalid (x : BitVec 1)
  /-- Decoded distance symbol 0..29 (R151, R522). -/
  | symDist (code : BitVec 5)
  /-- Decoded distance symbol 30 + x (R158). -/
  | symDistInvalid (x : BitVec 1)
  /-- Decoded code-length symbol 0..15: one length (R152, R516). -/
  | clLength (len : BitVec 4)
  /-- Decoded code-length symbol 16 with its 2 extra bits. -/
  | clRepeatPrev (extra : BitVec 2)
  /-- Decoded code-length symbol 17 with its 3 extra bits. -/
  | clZerosShort (extra : BitVec 3)
  /-- Decoded code-length symbol 18 with its 7 extra bits. -/
  | clZerosLong (extra : BitVec 7)
  /-- Decode-table entry, op 0: a literal (R170, R520). -/
  | entLiteral (bits : BitVec 8) (val : BitVec 16)
  /-- Decode-table entry, op 0000tttt, t = 1..15: a sub-table link. -/
  | entLink (t : BitVec 4) (bits : BitVec 8) (val : BitVec 16)
  /-- Decode-table entry, op 0001eeee: a length or distance base. -/
  | entBase (extra : BitVec 4) (bits : BitVec 8) (val : BitVec 16)
  /-- Decode-table entry, op 96: end-of-block. -/
  | entEob (bits : BitVec 8) (val : BitVec 16)
  /-- Decode-table entry, op 64: invalid. -/
  | entInvalid (bits : BitVec 8) (val : BitVec 16)
  deriving DecidableEq, Repr

end Sys2Proof
end

