-- ==== Sys2Proof/WellFormed.lean ====
section
/-! DEFINITION. Which instructions have an encoding: the side conditions that the field widths do not already force. -/

namespace Sys2Proof

/-- Every operand is one the encoding of its row admits (30_encoding R149 to R152, R170; opcode_table.json's notes).
A command word has none: CTX and B take every byte (R130). -/
def Instr.wf (i : Instr) : Bool :=
  match i with
  | .fixLen257to263 x => decide (x ≠ 0)
  | .fixLen280to285 x => decide (x.toNat < 6)
  | .fixDist16to29 x => decide (x.toNat < 14)
  | .symLength x => decide (1 ≤ x.toNat) && decide (x.toNat ≤ 29)
  | .symDist c => decide (c.toNat < 30)
  | .entLink t _ _ => decide (t ≠ 0)
  | .dinit _ _ | .dproc _ _ | .dsetdict _ _ | .dreset _ _ | .dparams _ _ | .dend _ _ => true
  | .iinit _ _ | .iproc _ _ | .isetdict _ _ | .ireset _ _ | .isync _ _ | .icopy _ _ => true
  | .iundermine _ _ | .iend _ _ => true
  | .blkStored _ | .blkFixed _ | .blkDynamic _ | .blkReserved _ => true
  | .zlibHdr _ _ _ _ | .zlibDictid _ | .storedLen _ _ | .zlibTrailer _ => true
  | .fixEob | .fixLen264to271 _ | .fixLen272to279 _ | .fixLit0to15 _ | .fixLit16to79 _ => true
  | .fixLit80to143 _ | .fixInvalid286to287 _ | .fixLit144to159 _ | .fixLit160to191 _ | .fixLit192to255 _ => true
  | .fixDist0to15 _ | .fixDistInvalid _ => true
  | .symLiteral _ | .symEob | .symLlInvalid _ | .symDistInvalid _ => true
  | .clLength _ | .clRepeatPrev _ | .clZerosShort _ | .clZerosLong _ => true
  | .entLiteral _ _ | .entBase _ _ _ | .entEob _ _ | .entInvalid _ _ => true

end Sys2Proof
end

