-- ==== Sys2Proof/Decode.lean ====
section
/-! DEFINITION. The decoder, total on every value of every format, and the encoder, both from spec 30_encoding. -/

namespace Sys2Proof

/-- What a value is read as: the `format` column of spec/opcode_table.json. -/
inductive Format where
  /-- The CMD word (R130). -/
  | cmd
  /-- CMF<<8 | FLG (R141). -/
  | zlibHdr
  /-- The 4-byte dictionary Adler-32 (R142). -/
  | dictid
  /-- LEN | NLEN<<16 (R148). -/
  | storedLen
  /-- The 4-byte Adler-32 trailer (R143). -/
  | trailer
  /-- The 3 block-header bits (R145). -/
  | blockHdr
  /-- A 7-bit fixed lit/len code, first bit sent highest (R149). -/
  | fixedLL7
  /-- An 8-bit fixed lit/len code. -/
  | fixedLL8
  /-- A 9-bit fixed lit/len code. -/
  | fixedLL9
  /-- A 5-bit fixed distance code. -/
  | fixedDist
  /-- A decoded lit/len symbol (R150). -/
  | llSym
  /-- A decoded distance symbol (R151). -/
  | distSym
  /-- A decoded code-length symbol (4:0), its extra bits above it (11:5) (R152). -/
  | clSym
  /-- A decode-table entry: op (7:0), bits (15:8), val (31:16) (R79, R170). -/
  | entry
  deriving DecidableEq, Repr

/-- How many bits a value of the format has. -/
def Format.width : Format → Nat
  | .cmd | .dictid | .storedLen | .trailer | .entry => 32
  | .zlibHdr => 16
  | .clSym => 12
  | .fixedLL9 | .llSym => 9
  | .fixedLL8 => 8
  | .fixedLL7 => 7
  | .fixedDist | .distSym => 5
  | .blockHdr => 3

/-- Why a value is no instruction. -/
inductive Reject where
  /-- The value has bits above its format's width. -/
  | tooWide
  /-- CMD bits 31:24 are not 0 (R133). -/
  | reservedBits
  /-- OP is not in the opcode map (R133). -/
  | unknownOpcode
  /-- CM is not 8 (R141). -/
  | wrongMethod
  /-- No symbol has this fixed code (R149). -/
  | noSuchCode
  /-- No symbol has this number (R150 to R152). -/
  | noSuchSymbol
  /-- Extra bits the code-length symbol does not take (R152). -/
  | strayExtra
  /-- The op byte is of no class of R170. -/
  | unknownEntryOp
  deriving DecidableEq, Repr

/-- The `n`-bit field of `v` whose lowest bit is bit `lo` (00_scope R11). -/
def bitField (n lo v : Nat) : BitVec n := BitVec.ofNat n (v / 2 ^ lo)

/-- The opcode map of R131. -/
def decodeCmd (v : Nat) : Except Reject Instr :=
  let k := bitField 8 8 v
  let b := bitField 8 16 v
  if v / 2 ^ 24 ≠ 0 then .error .reservedBits
  else match v % 2 ^ 8 with
    | 0x01 => .ok (.dinit k b)
    | 0x02 => .ok (.dproc k b)
    | 0x03 => .ok (.dsetdict k b)
    | 0x04 => .ok (.dreset k b)
    | 0x05 => .ok (.dparams k b)
    | 0x06 => .ok (.dend k b)
    | 0x11 => .ok (.iinit k b)
    | 0x12 => .ok (.iproc k b)
    | 0x13 => .ok (.isetdict k b)
    | 0x14 => .ok (.ireset k b)
    | 0x15 => .ok (.isync k b)
    | 0x16 => .ok (.icopy k b)
    | 0x17 => .ok (.iundermine k b)
    | 0x18 => .ok (.iend k b)
    | _ => .error .unknownOpcode

/-- BFINAL in bit 0, BTYPE in bits 2:1 (R145). -/
def decodeBlockHdr (v : Nat) : Except Reject Instr :=
  let bfinal := v.testBit 0
  match v / 2 with
  | 0 => .ok (.blkStored bfinal)
  | 1 => .ok (.blkFixed bfinal)
  | 2 => .ok (.blkDynamic bfinal)
  | _ => .ok (.blkReserved bfinal)

/-- CINFO, CM, FLEVEL, FDICT, FCHECK of CMF<<8 | FLG (R141). Only CM = 8 is the class ZLIB_HDR; the other conditions of
R510 are the meaning's. -/
def decodeZlibHdr (v : Nat) : Except Reject Instr :=
  if (v / 2 ^ 8) % 2 ^ 4 ≠ 8 then .error .wrongMethod
  else .ok (.zlibHdr (bitField 4 12 v) (bitField 2 6 v) (v.testBit 5) (bitField 5 0 v))

/-- The 7-bit fixed codes (R149). -/
def decodeFixedLL7 (v : Nat) : Except Reject Instr :=
  if v = 0 then .ok .fixEob
  else match v / 8 with
    | 0 => .ok (.fixLen257to263 (bitField 3 0 v))
    | 1 => .ok (.fixLen264to271 (bitField 3 0 v))
    | 2 => .ok (.fixLen272to279 (bitField 3 0 v))
    | _ => .error .noSuchCode

/-- The 8-bit fixed codes (R149). -/
def decodeFixedLL8 (v : Nat) : Except Reject Instr :=
  if v / 16 = 3 then .ok (.fixLit0to15 (bitField 4 0 v))
  else if v / 64 = 1 then .ok (.fixLit16to79 (bitField 6 0 v))
  else if v / 64 = 2 then .ok (.fixLit80to143 (bitField 6 0 v))
  else if v / 2 = 99 then .ok (.fixInvalid286to287 (bitField 1 0 v))
  else if v / 8 = 24 then .ok (.fixLen280to285 (bitField 3 0 v))
  else .error .noSuchCode

/-- The 9-bit fixed codes (R149). -/
def decodeFixedLL9 (v : Nat) : Except Reject Instr :=
  if v / 16 = 25 then .ok (.fixLit144to159 (bitField 4 0 v))
  else if v / 32 = 13 then .ok (.fixLit160to191 (bitField 5 0 v))
  else if v / 64 = 7 then .ok (.fixLit192to255 (bitField 6 0 v))
  else .error .noSuchCode

/-- The 5-bit fixed distance codes (R149). -/
def decodeFixedDist (v : Nat) : Except Reject Instr :=
  if v / 2 = 15 then .ok (.fixDistInvalid (bitField 1 0 v))
  else if v / 16 = 0 then .ok (.fixDist0to15 (bitField 4 0 v))
  else .ok (.fixDist16to29 (bitField 4 0 v))

/-- The literal/length alphabet (R150). -/
def decodeLlSym (v : Nat) : Except Reject Instr :=
  if v < 256 then .ok (.symLiteral (bitField 8 0 v))
  else if v = 256 then .ok .symEob
  else if v ≤ 285 then .ok (.symLength (bitField 8 0 v))
  else if v ≤ 287 then .ok (.symLlInvalid (bitField 1 0 v))
  else .error .noSuchSymbol

/-- The distance alphabet (R151). -/
def decodeDistSym (v : Nat) : Except Reject Instr :=
  if v < 30 then .ok (.symDist (bitField 5 0 v)) else .ok (.symDistInvalid (bitField 1 0 v))

/-- The code-length alphabet (R152): the symbol in bits 4:0, its extra bits from bit 5 up. -/
def decodeClSym (v : Nat) : Except Reject Instr :=
  let sym := v % 32
  let extra := v / 32
  if sym < 16 then if extra = 0 then .ok (.clLength (bitField 4 0 v)) else .error .strayExtra
  else if sym = 16 then if extra < 4 then .ok (.clRepeatPrev (bitField 2 5 v)) else .error .strayExtra
  else if sym = 17 then if extra < 8 then .ok (.clZerosShort (bitField 3 5 v)) else .error .strayExtra
  else if sym = 18 then .ok (.clZerosLong (bitField 7 5 v))
  else .error .noSuchSymbol

/-- The classes of a decode-table entry's op byte (R170). -/
def decodeEntry (v : Nat) : Except Reject Instr :=
  let op := v % 256
  let bits := bitField 8 8 v
  let val := bitField 16 16 v
  if op = 0 then .ok (.entLiteral bits val)
  else if op / 16 = 0 then .ok (.entLink (bitField 4 0 v) bits val)
  else if op / 16 = 1 then .ok (.entBase (bitField 4 0 v) bits val)
  else if op = 96 then .ok (.entEob bits val)
  else if op = 64 then .ok (.entInvalid bits val)
  else .error .unknownEntryOp

/-- The instruction a value of a format stands for. -/
def decode (f : Format) (v : Nat) : Except Reject Instr :=
  if 2 ^ f.width ≤ v then .error .tooWide
  else match f with
    | .cmd => decodeCmd v
    | .zlibHdr => decodeZlibHdr v
    | .dictid => .ok (.zlibDictid (bitField 32 0 v))
    | .storedLen => .ok (.storedLen (bitField 16 0 v) (bitField 16 16 v))
    | .trailer => .ok (.zlibTrailer (bitField 32 0 v))
    | .blockHdr => decodeBlockHdr v
    | .fixedLL7 => decodeFixedLL7 v
    | .fixedLL8 => decodeFixedLL8 v
    | .fixedLL9 => decodeFixedLL9 v
    | .fixedDist => decodeFixedDist v
    | .llSym => decodeLlSym v
    | .distSym => decodeDistSym v
    | .clSym => decodeClSym v
    | .entry => decodeEntry v

/-- The CMD word OP | CTX<<8 | B<<16 of R130. -/
def encodeCmd (op : Nat) (k b : BitVec 8) : Nat := op + k.toNat * 2 ^ 8 + b.toNat * 2 ^ 16

/-- A decode-table entry as one value: op, then bits, then val (R79). -/
def encodeEntry (op : Nat) (bits : BitVec 8) (val : BitVec 16) : Nat :=
  op + bits.toNat * 2 ^ 8 + val.toNat * 2 ^ 16

/-- The format of an instruction and its value in that format (30_encoding). -/
def encode (i : Instr) : Format × Nat :=
  match i with
  | .dinit k b => (.cmd, encodeCmd 0x01 k b)
  | .dproc k b => (.cmd, encodeCmd 0x02 k b)
  | .dsetdict k b => (.cmd, encodeCmd 0x03 k b)
  | .dreset k b => (.cmd, encodeCmd 0x04 k b)
  | .dparams k b => (.cmd, encodeCmd 0x05 k b)
  | .dend k b => (.cmd, encodeCmd 0x06 k b)
  | .iinit k b => (.cmd, encodeCmd 0x11 k b)
  | .iproc k b => (.cmd, encodeCmd 0x12 k b)
  | .isetdict k b => (.cmd, encodeCmd 0x13 k b)
  | .ireset k b => (.cmd, encodeCmd 0x14 k b)
  | .isync k b => (.cmd, encodeCmd 0x15 k b)
  | .icopy k b => (.cmd, encodeCmd 0x16 k b)
  | .iundermine k b => (.cmd, encodeCmd 0x17 k b)
  | .iend k b => (.cmd, encodeCmd 0x18 k b)
  | .blkStored bfinal => (.blockHdr, bfinal.toNat)
  | .blkFixed bfinal => (.blockHdr, 2 + bfinal.toNat)
  | .blkDynamic bfinal => (.blockHdr, 4 + bfinal.toNat)
  | .blkReserved bfinal => (.blockHdr, 6 + bfinal.toNat)
  | .zlibHdr cinfo flevel fdict fcheck =>
      (.zlibHdr, cinfo.toNat * 2 ^ 12 + 8 * 2 ^ 8 + flevel.toNat * 2 ^ 6 + fdict.toNat * 2 ^ 5 + fcheck.toNat)
  | .zlibDictid id => (.dictid, id.toNat)
  | .storedLen len nlen => (.storedLen, len.toNat + nlen.toNat * 2 ^ 16)
  | .zlibTrailer adler => (.trailer, adler.toNat)
  | .fixEob => (.fixedLL7, 0)
  | .fixLen257to263 x => (.fixedLL7, x.toNat)
  | .fixLen264to271 x => (.fixedLL7, 8 + x.toNat)
  | .fixLen272to279 x => (.fixedLL7, 16 + x.toNat)
  | .fixLit0to15 x => (.fixedLL8, 0x30 + x.toNat)
  | .fixLit16to79 x => (.fixedLL8, 0x40 + x.toNat)
  | .fixLit80to143 x => (.fixedLL8, 0x80 + x.toNat)
  | .fixLen280to285 x => (.fixedLL8, 0xC0 + x.toNat)
  | .fixInvalid286to287 x => (.fixedLL8, 0xC6 + x.toNat)
  | .fixLit144to159 x => (.fixedLL9, 0x190 + x.toNat)
  | .fixLit160to191 x => (.fixedLL9, 0x1A0 + x.toNat)
  | .fixLit192to255 x => (.fixedLL9, 0x1C0 + x.toNat)
  | .fixDist0to15 x => (.fixedDist, x.toNat)
  | .fixDist16to29 x => (.fixedDist, 0x10 + x.toNat)
  | .fixDistInvalid x => (.fixedDist, 0x1E + x.toNat)
  | .symLiteral byte => (.llSym, byte.toNat)
  | .symEob => (.llSym, 256)
  | .symLength x => (.llSym, 256 + x.toNat)
  | .symLlInvalid x => (.llSym, 286 + x.toNat)
  | .symDist code => (.distSym, code.toNat)
  | .symDistInvalid x => (.distSym, 30 + x.toNat)
  | .clLength len => (.clSym, len.toNat)
  | .clRepeatPrev extra => (.clSym, 16 + extra.toNat * 32)
  | .clZerosShort extra => (.clSym, 17 + extra.toNat * 32)
  | .clZerosLong extra => (.clSym, 18 + extra.toNat * 32)
  | .entLiteral bits val => (.entry, encodeEntry 0 bits val)
  | .entLink t bits val => (.entry, encodeEntry t.toNat bits val)
  | .entBase extra bits val => (.entry, encodeEntry (16 + extra.toNat) bits val)
  | .entEob bits val => (.entry, encodeEntry 96 bits val)
  | .entInvalid bits val => (.entry, encodeEntry 64 bits val)

/-- The format in which a bare word of spec/opcode_table.json is read, when nothing but its bits and its size in whole
bytes is given. DESIGN CHOICE (log entry 6): formats overlap, and in the machine the I-engine's mode, not the word,
says which one is being read. A 32-bit word is a CMD word whenever it is a legal one. -/
def tableFormat (nbits w : Nat) : Format :=
  if nbits = 32 then
    match decodeCmd w with
    | .ok _ => .cmd
    | .error _ => if w % 2 ^ 16 + w / 2 ^ 16 = 65535 then .storedLen else .dictid
  else if nbits = 16 then
    if w / 2 ^ 8 % 2 ^ 4 = 8 then .zlibHdr else if w < 0x120 then .llSym else .fixedLL9
  else if w < 8 then .blockHdr
  else if w < 0x10 then .fixedLL7
  else if w < 0x13 then .clSym
  else if w < 0x18 then .fixedLL7
  else if w < 0x20 then .fixedDist
  else if w = 0x60 then .entry
  else .fixedLL8

/-- The instruction the decoder reads from a word numbered as the opcode table numbers it. -/
def decodeTableWord (nbits w : Nat) : Option Instr :=
  (decode (tableFormat nbits w) w).toOption

end Sys2Proof
end

