-- ==== Sys2Proof/Machine/State.lean ====
section
/-! DEFINITION. The state of ZCORE as plain data (spec 10_state), and the state after power-on reset (70 R670). -/

namespace Sys2Proof.Machine

/-! ### Storage -/

/-- Host memory (20_memory R100): the listed bytes in strictly rising address order, no listed byte 0; every other
address reads as `Memory.blank`. -/
abbrev Memory := List Host.Cell

/-- A binary tree of array entries; an absent entry reads as the default, which is zero for every entry type used. -/
inductive Tree (α : Type) where
  | empty
  | leaf (v : α)
  | node (l r : Tree α)
  deriving DecidableEq, Repr

/-- An array of `2 ^ d` entries of a context's private storage (20_memory R102). -/
structure Ram (d : Nat) (α : Type) where
  tree : Tree α
  deriving DecidableEq, Repr

/-- The array with every entry zero (70 R671). -/
def Ram.zero {d : Nat} {α : Type} : Ram d α := { tree := .empty }

/-! ### Names -/

/-- The status codes (00_scope R14). -/
inductive Status where
  | ok | streamEnd | needDict | streamError | dataError | memError | bufError
  deriving DecidableEq, Repr

/-- The message codes of MSG (10_state R36), in their numeric order 0..17. -/
inductive Msg where
  | none | streamError | bufferError | headerCheck | unknownMethod | windowSize | blockType | storedLengths
  | tooManySymbols | codeLengthsSet | bitLengthRepeat | missingEndOfBlock | literalLengthsSet | distancesSet
  | literalLengthCode | distanceCode | distanceTooFar | dataCheck
  deriving DecidableEq, Repr

/-- The D-engine's stream state (10_state R41). -/
inductive DStatus where
  /-- 42. -/
  | init
  /-- 113. -/
  | busy
  /-- 666. -/
  | finish
  deriving DecidableEq, Repr

/-- The I-engine's position in its state machine (10_state R70), in the numeric order 0..31. The gzip modes and MEM are
never entered. -/
inductive Mode where
  | HEAD | FLAGS | TIME | OS | EXLEN | EXTRA | NAME | COMMENT | HCRC | DICTID | DICT | TYPE | TYPEDO | STORED | COPY_
  | COPY | TABLE | LENLENS | CODELENS | LEN_ | LEN | LENEXT | DIST | DISTEXT | MATCH | LIT | CHECK | LENGTH | DONE | BAD
  | MEM | SYNC
  deriving DecidableEq, Repr

/-! ### Stream registers -/

/-- The stream registers of one context (10_state R34), KIND apart: KIND is the slot's constructor (R35). -/
structure Regs where
  /-- NEXT_IN. -/
  nextIn : Word
  /-- AVAIL_IN. -/
  availIn : Word
  /-- NEXT_OUT. -/
  nextOut : Word
  /-- AVAIL_OUT. -/
  availOut : Word
  /-- TOTAL_IN; its upper half stays 0 when TOTAL_W = 32 (R38). -/
  totalIn : BitVec 64
  /-- TOTAL_OUT. -/
  totalOut : BitVec 64
  /-- ADLER. -/
  adler : Word
  /-- DATA_TYPE (R37). -/
  dataType : Word
  /-- MSG (R36). -/
  msg : Msg
  deriving DecidableEq, Repr

/-- Every stream register 0 (70 R670). -/
def Regs.zero : Regs :=
  { nextIn := 0, availIn := 0, nextOut := 0, availOut := 0, totalIn := 0, totalOut := 0, adler := 0, dataType := 0,
    msg := .none }

/-! ### D-engine (10_state R40 to R50) -/

/-- The sizes DINIT fixes (R40). -/
structure DConf where
  wBits : Nat
  wSize : Nat
  wMask : Nat
  windowSize : Nat
  hashBits : Nat
  hashSize : Nat
  hashMask : Nat
  hashShift : Nat
  litBufsize : Nat
  pendingBufSize : Nat
  symEnd : Nat
  deriving DecidableEq, Repr

/-- The fields DINIT and DPARAMS set (R40). -/
structure DTune where
  level : Nat
  strategy : Nat
  maxLazyMatch : Nat
  goodMatch : Nat
  niceMatch : Nat
  maxChainLength : Nat
  deriving DecidableEq, Repr

/-- One Huffman tree (R48): the node fields by node number, and max_code. -/
structure HTree where
  freq : Ram 10 Nat
  len : Ram 10 Nat
  code : Ram 10 Nat
  dad : Ram 10 Nat
  maxCode : Int
  deriving DecidableEq, Repr

/-- The tree builder's scratch arrays and the block costs (R48). The costs are signed, because BUILD_TREE takes a forced
node's cost off before GEN_BITLEN adds it (42 R254, R255). -/
structure TreeScratch where
  heap : Ram 10 Nat
  heapLen : Nat
  heapMax : Nat
  depth : Ram 10 Nat
  blCount : Ram 4 Nat
  optLen : Int
  staticLen : Int
  deriving DecidableEq, Repr

/-- The bit writer (R49). -/
structure BitWriter where
  /-- bi_buf, 16 bits. -/
  biBuf : BitVec 16
  /-- bi_valid, 0..16. -/
  biValid : Nat
  /-- The pending bytes, oldest first. -/
  pending : List Byte
  deriving DecidableEq, Repr

/-- One record of the symbol buffer (R50): dist = 0 for a literal. -/
structure Sym where
  dist : Nat
  lc : Nat
  deriving DecidableEq, Repr

/-- The private state of a D-engine context. -/
structure DState where
  /-- 1 zlib, 0 raw, -1 zlib with its trailer written (R40). -/
  wrap : Int
  conf : DConf
  tune : DTune
  status : DStatus
  /-- last_flush, -2..5 (R41). -/
  lastFlush : Int
  window : Ram 16 Byte
  head : Ram 16 Nat
  prev : Ram 15 Nat
  insH : Nat
  strstart : Nat
  lookahead : Nat
  /-- Signed, and without R45's lower bound (log entry 24). -/
  blockStart : Int
  insert : Nat
  matchLength : Nat
  /-- Signed: a slide can take it below 0 (41 R207). -/
  matchStart : Int
  prevLength : Nat
  prevMatch : Int
  matchAvailable : Bool
  /-- `matches` (R47). -/
  slides : Nat
  ltree : HTree
  dtree : HTree
  bltree : HTree
  scratch : TreeScratch
  bw : BitWriter
  /-- The symbol buffer, oldest first. -/
  sym : List Sym
  deriving DecidableEq, Repr

/-! ### I-engine (10_state R70 to R81) -/

/-- A decode-table entry (R79). -/
structure Entry where
  op : BitVec 8
  bits : BitVec 8
  val : BitVec 16
  deriving DecidableEq, Repr, Inhabited

/-- Which table a view looks into (R75). -/
inductive Tbl where
  | codes | fixedL | fixedD
  deriving DecidableEq, Repr

/-- A view `(tbl, off)` (R75). -/
structure View where
  tbl : Tbl
  off : Nat
  deriving DecidableEq, Repr

/-- The private state of an I-engine context. -/
structure IState where
  mode : Mode
  /-- Bit 0: expect a zlib header; bit 2: check the trailer (R71). -/
  wrap : BitVec 3
  wbits : Nat
  /-- -1 until a zlib header has been read, then 0. -/
  flags : Int
  havedict : Bool
  last : Bool
  check : Word
  dmax : Nat
  /-- The bit accumulator; bit 0 is the next input bit (R72). -/
  hold : BitVec 32
  /-- Valid bits in `hold`, 0..32 (R73). -/
  bits : Nat
  window : Ram 15 Byte
  wsize : Nat
  whave : Nat
  wnext : Nat
  codes : Ram 11 Entry
  lencode : View
  distcode : View
  lenbits : Nat
  distbits : Nat
  nlen : Nat
  ndist : Nat
  ncode : Nat
  /-- `have` (R76). -/
  haveCnt : Nat
  lens : Ram 9 Nat
  length : Nat
  offset : Nat
  extra : Nat
  was : Nat
  sane : Bool
  deriving DecidableEq, Repr

/-! ### Contexts and the machine -/

/-- What a slot holds (R35): KIND 0, 1 or 2 with the private state of that kind. A FREE slot has no private state
(log entry 4). -/
inductive Slot where
  | free
  | deflate (d : DState)
  | inflate (i : IState)
  deriving DecidableEq, Repr

/-- One context: its stream registers and its slot. -/
structure Ctx where
  regs : Regs
  slot : Slot
  deriving DecidableEq, Repr

/-- A context after power-on reset (70 R670). -/
def Ctx.reset : Ctx := { regs := .zero, slot := .free }

/-- One thing the outside world does to the machine (log entry 3). -/
inductive Input where
  /-- Power-on reset (70 R670). -/
  | powerOnReset
  /-- A write of a CSR (20_memory R101); a write of CMD submits a command (30_encoding R130). -/
  | csrWrite (off v : Word)
  /-- A read of a CSR. -/
  | csrRead (off : Word)
  /-- A plain host write of one byte of host memory, between commands. -/
  | memWrite (addr : Word) (b : Byte)
  /-- A plain host read of one byte of host memory. -/
  | memRead (addr : Word)
  /-- One wire element, offered alone to the I-engine of context `k`: the model's own door to the rows of the opcode
  table that are no commands (log entry 5). -/
  | wire (k : BitVec 8) (f : Format) (v : Word)
  deriving DecidableEq, Repr

/-- The whole machine. -/
structure State where
  /-- What CFG shows (R33). -/
  params : Params
  arg0 : Word
  arg1 : Word
  arg2 : Word
  arg3 : Word
  /-- RESULT. -/
  result : Word
  /-- The NCTX contexts. -/
  ctxs : List Ctx
  /-- Host memory. -/
  mem : Memory
  /-- The host accesses still to come, first to last: the model's own field. -/
  inputs : List Input
  /-- What the host's last read returned: the model's own field. -/
  readData : Word
  /-- The context a lone wire element goes to: the model's own field. -/
  cur : Nat
  deriving DecidableEq, Repr

/-- ZCORE has no traps and no access faults (60 R620, 20 R100): no step ends in a fault, so the type has no element.
Safe: nothing is said of a fault that the hardware does not have. -/
inductive Fault where
  deriving DecidableEq, Repr

/-- Why the model has no next state: no step ends in a refusal either, since every instruction has its meaning. -/
inductive Refusal where
  /-- Raised by a Dispatch arm whose instruction has no meaning yet; there is none. Safe. -/
  | notModelled (mnemonic : String)
  deriving DecidableEq, Repr

/-- Power-on reset of a build `p` (70 R670), host memory being `m`. -/
def State.powerOn (p : Params) (m : Memory) : State :=
  { params := p, arg0 := 0, arg1 := 0, arg2 := 0, arg3 := 0, result := 0, ctxs := List.replicate p.nctx Ctx.reset,
    mem := m, inputs := [], readData := 0, cur := 0 }

/-- The machine right after power-on reset: every register as 70 R670 says, host memory with nothing listed. -/
def State.reset : State := State.powerOn Config.build []

end Sys2Proof.Machine
end

