-- ==== Sys2Proof/Machine/Tables.lean ====
section
/-! DEFINITION. The constants and constant tables of the spec (00_scope R10, R15, R16; 30_encoding R149 to R159;
41 R200). -/

namespace Sys2Proof.Machine

/-! ### Constants (00_scope R10) -/

def minMatch : Nat := 3
def maxMatch : Nat := 258
def minLookahead : Nat := 262
def maxBits : Nat := 15
def maxBlBits : Nat := 7
def lCodes : Nat := 286
def dCodes : Nat := 30
def blCodes : Nat := 19
def heapSize : Nat := 573
def endBlock : Nat := 256
def maxStored : Nat := 65535
def tooFar : Nat := 4096
def enoughLens : Nat := 852
def enoughDists : Nat := 592

/-! ### Flush values (R15) and strategy values (R16) -/

def zNoFlush : Nat := 0
def zPartialFlush : Nat := 1
def zSyncFlush : Nat := 2
def zFullFlush : Nat := 3
def zFinish : Nat := 4
def zBlock : Nat := 5
def zTrees : Nat := 6

def zFiltered : Nat := 1
def zHuffmanOnly : Nat := 2
def zRle : Nat := 3
def zFixed : Nat := 4

/-- DATA_TYPE of a D-engine stream (10_state R37). -/
def zBinary : Word := 0
def zText : Word := 1
def zUnknown : Word := 2

/-! ### Configuration (41 R200) -/

/-- The strategy function of a level's row. -/
inductive LevelFunc where
  | stored | fast | slow
  deriving DecidableEq, Repr

/-- The `func` column of R200. -/
def levelFunc (level : Nat) : LevelFunc :=
  if level = 0 then .stored else if level ≤ 3 then .fast else .slow

/-- The row of `level` (R200), with `strategy` beside it. -/
def configRow (level strategy : Nat) : DTune :=
  let row (good lazy nice chain : Nat) : DTune :=
    { level := level, strategy := strategy, maxLazyMatch := lazy, goodMatch := good, niceMatch := nice,
      maxChainLength := chain }
  match level with
  | 0 => row 0 0 0 0
  | 1 => row 4 4 8 4
  | 2 => row 4 5 16 8
  | 3 => row 4 6 32 32
  | 4 => row 4 4 16 16
  | 5 => row 8 16 32 32
  | 6 => row 8 16 128 128
  | 7 => row 8 32 128 256
  | 8 => row 32 128 258 1024
  | _ => row 32 258 258 4096

/-! ### Alphabets -/

/-- Element `i` of a constant table, 0 past its end. -/
def tableAt (t : List Nat) (i : Nat) : Nat := t.getD i 0

/-- R150. -/
def extraLbits : List Nat :=
  [0, 0, 0, 0, 0, 0, 0, 0, 1, 1, 1, 1, 2, 2, 2, 2, 3, 3, 3, 3, 4, 4, 4, 4, 5, 5, 5, 5, 0]

/-- R151. -/
def extraDbits : List Nat :=
  [0, 0, 0, 0, 1, 1, 2, 2, 3, 3, 4, 4, 5, 5, 6, 6, 7, 7, 8, 8, 9, 9, 10, 10, 11, 11, 12, 12, 13, 13]

/-- R152. -/
def extraBlbits : List Nat := [0, 0, 0, 0, 0, 0, 0, 0, 0, 0, 0, 0, 0, 0, 0, 0, 2, 3, 7]

/-- R153. -/
def blOrder : List Nat := [16, 17, 18, 0, 8, 7, 9, 6, 10, 5, 11, 4, 12, 3, 13, 2, 14, 1, 15]

/-- R155. -/
def baseLength : List Nat :=
  [0, 1, 2, 3, 4, 5, 6, 7, 8, 10, 12, 14, 16, 20, 24, 28, 32, 40, 48, 56, 64, 80, 96, 112, 128, 160, 192, 224, 0]

/-- R156. -/
def baseDist : List Nat :=
  [0, 1, 2, 3, 4, 6, 8, 12, 16, 24, 32, 48, 64, 96, 128, 192, 256, 384, 512, 768, 1024, 1536, 2048, 3072, 4096, 6144,
    8192, 12288, 16384, 24576]

/-- The largest `c < n` with `t[c] ≤ x`, or 0. -/
def lastAtMost (t : List Nat) (x : Nat) : Nat → Nat
  | 0 => 0
  | c + 1 => if tableAt t c ≤ x then c else lastAtMost t x c

/-- `length_code[lc]` (R155): 28 for lc = 255, else the code whose range of 2^extra values from its base holds lc. -/
def lengthCode (lc : Nat) : Nat := if lc = 255 then 28 else lastAtMost baseLength lc 28

/-- `d_code(x)` (R156): the largest c in 0..29 with base_dist[c] ≤ x. -/
def dCode (x : Nat) : Nat := lastAtMost baseDist x 30

/-- R157. -/
def lbase : List Nat :=
  [3, 4, 5, 6, 7, 8, 9, 10, 11, 13, 15, 17, 19, 23, 27, 31, 35, 43, 51, 59, 67, 83, 99, 115, 131, 163, 195, 227, 258, 0,
    0]

/-- R157. -/
def lext : List Nat :=
  [16, 16, 16, 16, 16, 16, 16, 16, 17, 17, 17, 17, 18, 18, 18, 18, 19, 19, 19, 19, 20, 20, 20, 20, 21, 21, 21, 21, 16, 64,
    64]

/-- R157. -/
def dbase : List Nat :=
  [1, 2, 3, 4, 5, 7, 9, 13, 17, 25, 33, 49, 65, 97, 129, 193, 257, 385, 513, 769, 1025, 1537, 2049, 3073, 4097, 6145,
    8193, 12289, 16385, 24577, 0, 0]

/-- R157. -/
def dext : List Nat :=
  [16, 16, 16, 16, 17, 17, 18, 18, 19, 19, 20, 20, 21, 21, 22, 22, 23, 23, 24, 24, 25, 25, 26, 26, 27, 27, 28, 28, 29, 29,
    64, 64]

/-! ### Fixed codes (R149, R159) -/

/-- The fixed lit/len code lengths of R149. -/
def fixedLitLen (n : Nat) : Nat :=
  if n < 144 then 8 else if n < 256 then 9 else if n < 280 then 7 else 8

/-- The canonical code of R159 for the lengths of R149, most significant bit first. -/
def fixedLitCode (n : Nat) : Nat :=
  if n < 144 then 0x30 + n else if n < 256 then 0x190 + (n - 144) else if n < 280 then n - 256 else 0xC0 + (n - 280)

/-- BI_REVERSE (42 R256): the low `l` bits of `code` in reverse order. -/
def biReverse (code : Nat) : Nat → Nat
  | 0 => 0
  | l + 1 => code % 2 * 2 ^ l + biReverse (code / 2) l

/-- static_ltree.len and static_ltree.code (42 R263), the code stored bit-reversed. -/
def staticLlen (n : Nat) : Nat := fixedLitLen n
def staticLcode (n : Nat) : Nat := biReverse (fixedLitCode n) (fixedLitLen n)

/-- static_dtree.len and static_dtree.code (42 R263). -/
def staticDlen (_ : Nat) : Nat := 5
def staticDcode (n : Nat) : Nat := biReverse n 5

end Sys2Proof.Machine
end

