-- ==== Sys2Proof/Machine/Ops.lean ====
section
/-! DEFINITION. The named operations over memory, arrays and registers, and the status mechanism that takes the place of
exceptions (60 R620). -/

namespace Sys2Proof.Machine

/-! ### Arrays of private storage -/

/-- Entry `i` of a tree of depth `d`; absent or out of range reads as the default. -/
def Tree.get {α : Type} [Inhabited α] : Nat → Tree α → Nat → α
  | 0, t, i => match t with
    | .leaf v => if i = 0 then v else default
    | _ => default
  | d + 1, t, i => match t with
    | .node l r => if i < 2 ^ d then Tree.get d l i else Tree.get d r (i - 2 ^ d)
    | _ => default

/-- The lower half of a tree. -/
def Tree.lower {α : Type} : Tree α → Tree α
  | .node l _ => l
  | _ => .empty

/-- The upper half of a tree. -/
def Tree.upper {α : Type} : Tree α → Tree α
  | .node _ r => r
  | _ => .empty

/-- Write entry `i` of a tree of depth `d`; a write out of range changes no entry. -/
def Tree.set {α : Type} : Nat → Tree α → Nat → α → Tree α
  | 0, t, i, v => if i = 0 then .leaf v else t
  | d + 1, t, i, v =>
    if i < 2 ^ d then .node (Tree.set d t.lower i v) t.upper else .node t.lower (Tree.set d t.upper (i - 2 ^ d) v)

/-- Make entries 0..n-1 of a tree of depth `d` the default. -/
def Tree.clearBelow {α : Type} : Nat → Tree α → Nat → Tree α
  | 0, t, n => if n = 0 then t else .empty
  | d + 1, t, n => match t with
    | .node l r =>
      if n < 2 ^ d then .node (Tree.clearBelow d l n) r else .node .empty (Tree.clearBelow d r (n - 2 ^ d))
    | _ => .empty

/-- Apply `f` to every entry present. -/
def Tree.map {α : Type} (f : α → α) : Tree α → Tree α
  | .empty => .empty
  | .leaf v => .leaf (f v)
  | .node l r => .node (l.map f) (r.map f)

namespace Ram

variable {d : Nat} {α : Type}

/-- `x[i]` (00_scope R12). -/
def get [Inhabited α] (a : Ram d α) (i : Nat) : α := Tree.get d a.tree i

/-- `x[i] <- v`. -/
def set (a : Ram d α) (i : Nat) (v : α) : Ram d α := { tree := Tree.set d a.tree i v }

/-- `x[0..n) <- 0`. -/
def clearBelow (a : Ram d α) (n : Nat) : Ram d α := { tree := Tree.clearBelow d a.tree n }

/-- Every entry through `f`, which keeps zero. -/
def map (f : α → α) (a : Ram d α) : Ram d α := { tree := Tree.map f a.tree }

/-- `x[i..) <- vs`, in order. -/
def setList (a : Ram d α) (i : Nat) : List α → Ram d α
  | [] => a
  | v :: vs => setList (a.set i v) (i + 1) vs

/-- `x[i..i+n)`. -/
def slice [Inhabited α] (a : Ram d α) (i : Nat) : Nat → List α
  | 0 => []
  | n + 1 => a.get i :: slice a (i + 1) n

/-- `x[dst..dst+n) <- x[src..src+n)`, the two not overlapping, in increasing order. -/
def move [Inhabited α] (a : Ram d α) (dst src : Nat) : Nat → Ram d α
  | 0 => a
  | n + 1 => move (a.set dst (a.get src)) (dst + 1) (src + 1) n

end Ram

/-! ### Host memory (20_memory R100 to R106) -/

/-- What an address that nothing has written reads as. DESIGN CHOICE (log entry 2): the spec gives host memory no
contents of its own (70 R670). -/
def Memory.blank : Byte := 0

/-- The listed bytes from address `lo` up: strictly rising, in range, none equal to the blank byte. -/
def Memory.wfFrom (lo : Nat) : Memory → Bool
  | [] => true
  | (a, b) :: m => decide (lo ≤ a) && decide (a < 2 ^ 32) && decide (b ≠ Memory.blank) && Memory.wfFrom (a + 1) m

/-- The canonical form of a memory. -/
def Memory.wf (m : Memory) : Bool := Memory.wfFrom 0 m

/-- The byte at key `a`. -/
def Memory.find : Memory → Nat → Byte
  | [], _ => Memory.blank
  | (x, b) :: m, a => if a < x then Memory.blank else if a = x then b else Memory.find m a

/-- Put byte `v` at key `a`, keeping the canonical form. -/
def Memory.put : Memory → Nat → Byte → Memory
  | [], a, v => if v = Memory.blank then [] else [(a, v)]
  | (x, b) :: m, a, v =>
    if a < x then if v = Memory.blank then (x, b) :: m else (a, v) :: (x, b) :: m
    else if a = x then if v = Memory.blank then m else (a, v) :: m
    else (x, b) :: Memory.put m a v

/-- One byte read. -/
def Memory.read (m : Memory) (a : Word) : Byte := Memory.find m a.toNat

/-- One byte write. -/
def Memory.write (m : Memory) (a : Word) (v : Byte) : Memory := Memory.put m a.toNat v

/-- `MemRead(a, n)` (R104): the bytes at a, a + 1, ..., modulo 2^32. -/
def Memory.readN (m : Memory) (a : Word) : Nat → List Byte
  | 0 => []
  | n + 1 => m.read a :: Memory.readN m (a + 1) n

/-- `MemWrite(a, |v|, v)` (R104), in increasing order. -/
def Memory.writeN (m : Memory) (a : Word) : List Byte → Memory
  | [] => m
  | v :: vs => Memory.writeN (m.write a v) (a + 1) vs

/-! ### Stream registers -/

/-- An addition to TOTAL_IN or TOTAL_OUT, modulo 2^TOTAL_W (10_state R38). -/
def addTotal (p : Params) (t : BitVec 64) (n : Nat) : BitVec 64 :=
  let t' := t + BitVec.ofNat 64 n
  if p.total64 then t' else (t'.setWidth 32).setWidth 64

/-- `n` bytes of input consumed at NEXT_IN (20 R105). -/
def Regs.consume (p : Params) (r : Regs) (n : Nat) : Regs :=
  { r with nextIn := r.nextIn + BitVec.ofNat 32 n, availIn := r.availIn - BitVec.ofNat 32 n,
           totalIn := addTotal p r.totalIn n }

/-- `n` bytes of output written at NEXT_OUT (20 R105). -/
def Regs.produce (p : Params) (r : Regs) (n : Nat) : Regs :=
  { r with nextOut := r.nextOut + BitVec.ofNat 32 n, availOut := r.availOut - BitVec.ofNat 32 n,
           totalOut := addTotal p r.totalOut n }

/-! ### Adler-32 (44 R350) -/

/-- The two sums carried over the bytes. -/
def adlerSums (s1 s2 : Nat) : List Byte → Nat × Nat
  | [] => (s1, s2)
  | b :: bs =>
    let s1' := (s1 + b.toNat) % 65521
    adlerSums s1' ((s2 + s1') % 65521) bs

/-- `ADLER32(a, bytes)`. -/
def adler32 (a : Word) (bytes : List Byte) : Word :=
  let s := adlerSums (a.toNat % 65536) (a.toNat / 65536) bytes
  BitVec.ofNat 32 (s.2 * 65536 + s.1)

/-! ### Status codes, and ending a command (00_scope R12, R14; 60 R620) -/

/-- The integer of a status (R14). -/
def Status.toInt : Status → Int
  | .ok => 0
  | .streamEnd => 1
  | .needDict => 2
  | .streamError => -2
  | .dataError => -3
  | .memError => -4
  | .bufError => -5

/-- `sext_32` of a status: what RESULT shows. -/
def Status.word (st : Status) : Word := BitVec.ofInt 32 st.toInt

/-- What a command's rule leaves behind: its status, the registers and the slot of its context, and host memory. -/
structure Done where
  status : Status
  regs : Regs
  slot : Slot
  mem : Memory
  deriving DecidableEq, Repr

/-- The context `k` of a state; a number that names none reads as a reset context. -/
def State.ctx (s : State) (k : Nat) : Ctx := s.ctxs.getD k Ctx.reset

/-- Replace context `k`. -/
def State.setCtx (s : State) (k : Nat) (c : Ctx) : State := { s with ctxs := s.ctxs.set k c }

/-- RESULT <- sext_32(status), nothing else: the end of a command that is turned away (R133, R624). -/
def State.setResult (s : State) (st : Status) : State := { s with result := st.word }

/-- The end of a command on context `k` (R620): every change of the rule stands, and RESULT takes the status. This is
ZCORE's one mechanism for an error as for a success: nothing is saved, nothing is rolled back, no mode changes. -/
def State.finish (s : State) (k : Nat) (r : Done) : State :=
  ({ s with mem := r.mem }.setCtx k { regs := r.regs, slot := r.slot }).setResult r.status

/-- R130's check of CTX, then the command's rule `f` on context `k`. -/
def onContext (k : BitVec 8) (s : State) (f : State → State) : Host.Outcome State Fault Refusal :=
  if k.toNat < s.params.nctx then .next (f s) else .next (s.setResult .streamError)

/-- The KIND check for a D-engine command (60 R624), then its rule. -/
def onDeflate (k : BitVec 8) (s : State) (f : Regs → DState → Done) : Host.Outcome State Fault Refusal :=
  onContext k s fun s =>
    match (s.ctx k.toNat).slot with
    | .deflate d => s.finish k.toNat (f (s.ctx k.toNat).regs d)
    | .free => s.setResult .streamError
    | .inflate _ => s.setResult .streamError

/-- The KIND check for an I-engine command (60 R624), then its rule. -/
def onInflate (k : BitVec 8) (s : State) (f : Regs → IState → Done) : Host.Outcome State Fault Refusal :=
  onContext k s fun s =>
    match (s.ctx k.toNat).slot with
    | .inflate i => s.finish k.toNat (f (s.ctx k.toNat).regs i)
    | .free => s.setResult .streamError
    | .deflate _ => s.setResult .streamError

end Sys2Proof.Machine
end

