-- ==== Sys2Proof/Machine/Operands.lean ====
section
/-! DEFINITION. Operand assembly: every operand form of 30_encoding R131 and R132. -/

namespace Sys2Proof.Machine

/-- A signed ARG operand: the register read as a two's-complement integer (R132). -/
def signedOperand (w : Word) : Int := w.toInt

/-- An unsigned ARG operand (R132). -/
def unsignedOperand (w : Word) : Nat := w.toNat

/-- A B operand, zero-extended (R132): a flush value or a context index. -/
def byteOperand (b : BitVec 8) : Nat := b.toNat

/-- IUNDERMINE's B operand: 0 is false, any other value true (R131). -/
def boolOperand (b : BitVec 8) : Bool := decide (b ≠ 0)

/-- The level operand of DINIT and DPARAMS: -1 means 6, and only 0..9 is a level (44 R380, R384). -/
def levelOperand (w : Word) : Option Nat :=
  let l := signedOperand w
  let l := if l = -1 then 6 else l
  if 0 ≤ l ∧ l ≤ 9 then some l.toNat else none

/-- The strategy operand of DINIT and DPARAMS: 0..4 (44 R380, R384). -/
def strategyOperand (w : Word) : Option Nat :=
  let t := signedOperand w
  if 0 ≤ t ∧ t ≤ 4 then some t.toNat else none

/-- The memLevel operand of DINIT: 1..9 (44 R380). -/
def memLevelOperand (w : Word) : Option Nat :=
  let m := signedOperand w
  if 1 ≤ m ∧ m ≤ 9 then some m.toNat else none

/-- DINIT's windowBits (44 R380): the wrap value and w_bits it selects. A negative one is a raw stream; 8 is taken as 9 on
a zlib stream and refused on a raw one. -/
def dWindowOperand (w : Word) : Option (Int × Nat) :=
  let v := signedOperand w
  let wrap : Int := if v < 0 then 0 else 1
  let n := if v < 0 then -v else v
  if v < -15 ∨ n < 8 ∨ 15 < n ∨ (n = 8 ∧ wrap ≠ 1) then none
  else some (wrap, if n = 8 then 9 else n.toNat)

/-- IINIT's windowBits (47 R540): the wrap value and wbits it selects. -/
def iWindowOperand (w : Word) : Option (BitVec 3 × Nat) :=
  let v := signedOperand w
  if v < 0 then
    if v < -15 ∨ -v < 8 then none else some (0, (-v).toNat)
  else if 15 < v ∨ (v ≠ 0 ∧ v < 8) then none else some (5, v.toNat)

end Sys2Proof.Machine
end

