-- ==== Sys2Proof/Machine/Flags.lean ====
section
/-! DEFINITION. ZCORE has no condition codes (10_state R31). What stands in their place: the reports a command or a read
computes from the state (KIND, MSG, DATA_TYPE, CFG) and the order of the flush values. -/

namespace Sys2Proof.Machine

/-- The number of a mode (10_state R70); only the order matters. -/
def Mode.num : Mode → Nat
  | .HEAD => 0 | .FLAGS => 1 | .TIME => 2 | .OS => 3 | .EXLEN => 4 | .EXTRA => 5 | .NAME => 6 | .COMMENT => 7
  | .HCRC => 8 | .DICTID => 9 | .DICT => 10 | .TYPE => 11 | .TYPEDO => 12 | .STORED => 13 | .COPY_ => 14 | .COPY => 15
  | .TABLE => 16 | .LENLENS => 17 | .CODELENS => 18 | .LEN_ => 19 | .LEN => 20 | .LENEXT => 21 | .DIST => 22
  | .DISTEXT => 23 | .MATCH => 24 | .LIT => 25 | .CHECK => 26 | .LENGTH => 27 | .DONE => 28 | .BAD => 29 | .MEM => 30
  | .SYNC => 31

/-- The message code (10_state R36). -/
def Msg.code : Msg → Word
  | .none => 0 | .streamError => 1 | .bufferError => 2 | .headerCheck => 3 | .unknownMethod => 4 | .windowSize => 5
  | .blockType => 6 | .storedLengths => 7 | .tooManySymbols => 8 | .codeLengthsSet => 9 | .bitLengthRepeat => 10
  | .missingEndOfBlock => 11 | .literalLengthsSet => 12 | .distancesSet => 13 | .literalLengthCode => 14
  | .distanceCode => 15 | .distanceTooFar => 16 | .dataCheck => 17

/-- KIND (10_state R35). -/
def Slot.kind : Slot → Word
  | .free => 0
  | .deflate _ => 1
  | .inflate _ => 2

/-- CFG (10_state R33). -/
def cfgWord (p : Params) : Word :=
  BitVec.ofNat 32 (p.nctx % 2 ^ 9 + (if p.total64 then 2 ^ 16 else 0) + (if p.allowTooFar then 2 ^ 17 else 0))

/-- DATA_TYPE of an I-engine stream (10_state R37, 47 R503). -/
def IState.dataTypeWord (i : IState) : Word :=
  BitVec.ofNat 32 (i.bits + (if i.last then 64 else 0) + (if i.mode = .TYPE then 128 else 0)
    + (if i.mode = .LEN_ ∨ i.mode = .COPY_ then 256 else 0))

/-- `RANK(f)` (44 R379). -/
def rank (f : Int) : Int := 2 * f - (if 4 < f then 9 else 0)

end Sys2Proof.Machine
end

