-- ==== Sys2Proof/Machine/Csr.lean ====
section
/-! DEFINITION. The CSR space (spec 10_state R32 to R34, 20_memory R101), a write of CMD apart. -/

namespace Sys2Proof.Machine

/-- A read at byte offset `o` of a context's block (10_state R34). -/
def Ctx.csrRead (c : Ctx) (o : Nat) : Word :=
  match o with
  | 0x00 => c.regs.nextIn
  | 0x04 => c.regs.availIn
  | 0x08 => c.regs.nextOut
  | 0x0C => c.regs.availOut
  | 0x10 => c.regs.totalIn.setWidth 32
  | 0x14 => (c.regs.totalIn >>> 32).setWidth 32
  | 0x18 => c.regs.totalOut.setWidth 32
  | 0x1C => (c.regs.totalOut >>> 32).setWidth 32
  | 0x20 => c.regs.adler
  | 0x24 => c.regs.dataType
  | 0x28 => c.regs.msg.code
  | 0x2C => c.slot.kind
  | _ => 0

/-- A write at byte offset `o` of a context's block (10_state R34): only the four cursors can be written. -/
def Ctx.csrWrite (c : Ctx) (o : Nat) (v : Word) : Ctx :=
  match o with
  | 0x00 => { c with regs := { c.regs with nextIn := v } }
  | 0x04 => { c with regs := { c.regs with availIn := v } }
  | 0x08 => { c with regs := { c.regs with nextOut := v } }
  | 0x0C => { c with regs := { c.regs with availOut := v } }
  | _ => c

/-- A read of the CSR at byte offset `off` (10_state R32, 20_memory R101). -/
def State.csrRead (s : State) (off : Word) : Word :=
  let o := off.toNat
  if o % 4 ≠ 0 then 0
  else if o < 0x100 then
    match o with
    | 0x004 => s.arg0
    | 0x008 => s.arg1
    | 0x00C => s.arg2
    | 0x010 => s.arg3
    | 0x014 => s.result
    | 0x018 => cfgWord s.params
    | _ => 0
  else
    let k := (o - 0x100) / 0x40
    if k < s.params.nctx then (s.ctx k).csrRead ((o - 0x100) % 0x40) else 0

/-- A write of the CSR at byte offset `off`, CMD apart (10_state R32, 20_memory R101). -/
def State.csrWrite (s : State) (off v : Word) : State :=
  let o := off.toNat
  if o % 4 ≠ 0 then s
  else if o < 0x100 then
    match o with
    | 0x004 => { s with arg0 := v }
    | 0x008 => { s with arg1 := v }
    | 0x00C => { s with arg2 := v }
    | 0x010 => { s with arg3 := v }
    | _ => s
  else
    let k := (o - 0x100) / 0x40
    if k < s.params.nctx then s.setCtx k ((s.ctx k).csrWrite ((o - 0x100) % 0x40) v) else s

end Sys2Proof.Machine
end

