-- ==== Sys2Proof/Machine/BitWriter.lean ====
section
/-! DEFINITION. deflate_bit_writer (spec 43, R320 to R329). -/

namespace Sys2Proof.Machine.BitWriter

/-- PUT_BYTES (R320). -/
def putBytes (w : BitWriter) (bs : List Byte) : BitWriter := { w with pending := w.pending ++ bs }

/-- PUT_BYTE (R320). -/
def putByte (w : BitWriter) (b : Byte) : BitWriter := w.putBytes [b]

/-- PUT_SHORT (R320): little-endian. -/
def putShort (w : BitWriter) (v : BitVec 16) : BitWriter := w.putBytes [v.setWidth 8, (v >>> 8).setWidth 8]

/-- PUT_SHORT_MSB (R320): big-endian. -/
def putShortMsb (w : BitWriter) (v : BitVec 16) : BitWriter := w.putBytes [(v >>> 8).setWidth 8, v.setWidth 8]

/-- Both halves of a 32-bit value, big-endian (R375, R377). -/
def putWordMsb (w : BitWriter) (v : Word) : BitWriter :=
  (w.putShortMsb ((v >>> 16).setWidth 16)).putShortMsb (v.setWidth 16)

/-- SEND_BITS(value, length) (R321). -/
def sendBits (w : BitWriter) (value length : Nat) : BitWriter :=
  let v : BitVec 16 := BitVec.ofNat 16 value
  let buf := w.biBuf ||| (v <<< w.biValid)
  if 16 < w.biValid + length then
    { (w.putShort buf) with biBuf := v >>> (16 - w.biValid), biValid := w.biValid + length - 16 }
  else { w with biBuf := buf, biValid := w.biValid + length }

/-- BI_FLUSH (R323). -/
def biFlush (w : BitWriter) : BitWriter :=
  if w.biValid = 16 then { (w.putShort w.biBuf) with biBuf := 0, biValid := 0 }
  else if 8 ≤ w.biValid then
    { (w.putByte (w.biBuf.setWidth 8)) with biBuf := w.biBuf >>> 8, biValid := w.biValid - 8 }
  else w

/-- BI_WINDUP (R324). -/
def biWindup (w : BitWriter) : BitWriter :=
  let w :=
    if 8 < w.biValid then w.putShort w.biBuf
    else if 0 < w.biValid then w.putByte (w.biBuf.setWidth 8)
    else w
  { w with biBuf := 0, biValid := 0 }

end Sys2Proof.Machine.BitWriter

namespace Sys2Proof.Machine

/-- STORED_BLOCK(buf, stored_len, last) (42 R265): `raw` holds the window bytes sent, none of them for `buf` = none. -/
def storedBlock (w : BitWriter) (raw : List Byte) (storedLen : Nat) (last : Bool) : BitWriter :=
  let len : BitVec 16 := BitVec.ofNat 16 storedLen
  ((((w.sendBits last.toNat 3).biWindup).putShort len).putShort (~~~len)).putBytes raw

end Sys2Proof.Machine
end

