-- ==== Sys2Proof/Machine/Huffman.lean ====
section
/-! DEFINITION. deflate_huffman_encoder (spec 42, R250 to R300). -/

namespace Sys2Proof.Machine

/-! ### The symbol buffer -/

/-- One more use of symbol `n`. -/
def HTree.count (t : HTree) (n : Nat) : HTree := { t with freq := t.freq.set n (t.freq.get n + 1) }

/-- INIT_BLOCK (R251). -/
def initBlock (d : DState) : DState :=
  { d with
    ltree := { d.ltree with freq := (d.ltree.freq.clearBelow lCodes).set endBlock 1 }
    dtree := { d.dtree with freq := d.dtree.freq.clearBelow dCodes }
    bltree := { d.bltree with freq := d.bltree.freq.clearBelow blCodes }
    scratch := { d.scratch with optLen := 0, staticLen := 0 }
    sym := []
    slides := 0 }

/-- The symbol buffer is full: 3 * |sym| = sym_end (R252). -/
def symFull (d : DState) : Bool := decide (3 * d.sym.length = d.conf.symEnd)

/-- TALLY_LIT (R252): bflush, and the state after. -/
def tallyLit (c : Byte) (d : DState) : Bool × DState :=
  let d := { d with sym := d.sym ++ [{ dist := 0, lc := c.toNat }], ltree := d.ltree.count c.toNat }
  (symFull d, d)

/-- TALLY_DIST (R252): bflush, and the state after. -/
def tallyDist (dist lc : Nat) (d : DState) : Bool × DState :=
  let d := { d with sym := d.sym ++ [{ dist := dist, lc := lc }]
                    ltree := d.ltree.count (lengthCode lc + 257)
                    dtree := d.dtree.count (dCode (dist - 1)) }
  (symFull d, d)

/-! ### Tree construction -/

/-- SMALLER (R253). -/
def smaller (freq depth : Ram 10 Nat) (n m : Nat) : Bool :=
  decide (freq.get n < freq.get m) || (decide (freq.get n = freq.get m) && decide (depth.get n ≤ depth.get m))

/-- The loop of PQDOWNHEAP (R253) with the sifted node `v` at place `k`; `fuel` bounds the descent (log entry 8). -/
def siftDown (freq depth : Ram 10 Nat) (heapLen v : Nat) : Nat → Nat → Ram 10 Nat → Ram 10 Nat
  | 0, k, heap => heap.set k v
  | fuel + 1, k, heap =>
    let j := 2 * k
    if heapLen < j then heap.set k v
    else
      let j := if j < heapLen ∧ smaller freq depth (heap.get (j + 1)) (heap.get j) = true then j + 1 else j
      if smaller freq depth v (heap.get j) then heap.set k v
      else siftDown freq depth heapLen v fuel j (heap.set k (heap.get j))

/-- PQDOWNHEAP(T, k) (R253). -/
def pqDownHeap (t : HTree) (k : Nat) (b : TreeScratch) : TreeScratch :=
  { b with heap := siftDown t.freq b.depth b.heapLen (b.heap.get k) b.heapLen k b.heap }

/-- Step 1 of BUILD_TREE (R254) for the next `count` symbols from `n`: put the used ones in the heap, give the others
length 0. -/
def seedHeap : Nat → Nat → TreeScratch × HTree → TreeScratch × HTree
  | 0, _, bt => bt
  | count + 1, n, (b, t) =>
    seedHeap count (n + 1)
      (if t.freq.get n ≠ 0 then
        ({ b with heapLen := b.heapLen + 1, heap := b.heap.set (b.heapLen + 1) n, depth := b.depth.set n 0 },
         { t with maxCode := n })
      else (b, { t with len := t.len.set n 0 }))

/-- One pass of step 2 of BUILD_TREE (R254): force a symbol in. -/
def forceSymbol (stree : Option (Nat → Nat)) : TreeScratch × HTree → TreeScratch × HTree
  | (b, t) =>
    let maxCode := if t.maxCode < 2 then t.maxCode + 1 else t.maxCode
    let node := if t.maxCode < 2 then (t.maxCode + 1).toNat else 0
    ({ b with heapLen := b.heapLen + 1
              heap := b.heap.set (b.heapLen + 1) node
              depth := b.depth.set node 0
              optLen := b.optLen - 1
              staticLen := match stree with
                | some len => b.staticLen - len node
                | none => b.staticLen },
     { t with freq := t.freq.set node 1, maxCode := maxCode })

/-- Step 2 of BUILD_TREE (R254): while heap_len < 2, at most twice. -/
def forceTwo (stree : Option (Nat → Nat)) : Nat → TreeScratch × HTree → TreeScratch × HTree
  | 0, bt => bt
  | fuel + 1, bt => if bt.1.heapLen < 2 then forceTwo stree fuel (forceSymbol stree bt) else bt

/-- Heapify: PQDOWNHEAP from `k` down to 1 (R254). -/
def heapify (t : HTree) : Nat → TreeScratch → TreeScratch
  | 0, b => b
  | k + 1, b => heapify t k (pqDownHeap t (k + 1) b)

/-- One pass of step 3 of BUILD_TREE (R254): join the two least frequent nodes under the new node `node`. -/
def combineStep (node : Nat) : TreeScratch × HTree → TreeScratch × HTree
  | (b, t) =>
    let n := b.heap.get 1
    let b := pqDownHeap t 1 { b with heap := b.heap.set 1 (b.heap.get b.heapLen), heapLen := b.heapLen - 1 }
    let m := b.heap.get 1
    let t := { t with freq := t.freq.set node (t.freq.get n + t.freq.get m)
                      dad := (t.dad.set n node).set m node }
    let b := { b with heap := ((b.heap.set (b.heapMax - 1) n).set (b.heapMax - 2) m).set 1 node
                      heapMax := b.heapMax - 2
                      depth := b.depth.set node (max (b.depth.get n) (b.depth.get m) + 1) }
    (pqDownHeap t 1 b, t)

/-- Step 3 of BUILD_TREE (R254); `fuel` is the heap's size (log entry 8). -/
def combine : Nat → Nat → TreeScratch × HTree → TreeScratch × HTree
  | 0, _, bt => bt
  | fuel + 1, node, bt =>
    let bt := combineStep node bt
    if bt.1.heapLen < 2 then bt else combine fuel (node + 1) bt

/-- One node of GEN_BITLEN's walk from the root down (R255). The third component is `overflow`. -/
def bitlenNode (stree : Option (Nat → Nat)) (extra : List Nat) (base maxLength n : Nat) :
    TreeScratch × HTree × Nat → TreeScratch × HTree × Nat
  | (b, t, overflow) =>
    let want := t.len.get (t.dad.get n) + 1
    let bits := if maxLength < want then maxLength else want
    let overflow := if maxLength < want then overflow + 1 else overflow
    let t := { t with len := t.len.set n bits }
    if t.maxCode < (n : Int) then (b, t, overflow)
    else
      let xbits := if base ≤ n then tableAt extra (n - base) else 0
      let f := t.freq.get n
      ({ b with blCount := b.blCount.set bits (b.blCount.get bits + 1)
                optLen := b.optLen + f * (bits + xbits)
                staticLen := match stree with
                  | some len => b.staticLen + f * (len n + xbits)
                  | none => b.staticLen },
       t, overflow)

/-- GEN_BITLEN's walk over heap[h .. h + count) (R255). -/
def bitlenWalk (stree : Option (Nat → Nat)) (extra : List Nat) (base maxLength : Nat) :
    Nat → Nat → TreeScratch × HTree × Nat → TreeScratch × HTree × Nat
  | 0, _, x => x
  | count + 1, h, x =>
    bitlenWalk stree extra base maxLength count (h + 1)
      (bitlenNode stree extra base maxLength (x.1.heap.get h) x)

/-- The greatest length at most `bits` with a code, or 0. -/
def longestUsed (blCount : Ram 4 Nat) : Nat → Nat
  | 0 => 0
  | bits + 1 => if blCount.get (bits + 1) = 0 then longestUsed blCount bits else bits + 1

/-- One pass of GEN_BITLEN's repair of the histogram (R255). -/
def moveLeafDown (maxLength : Nat) (blCount : Ram 4 Nat) : Ram 4 Nat :=
  let bits := longestUsed blCount (maxLength - 1)
  let c := blCount.set bits (blCount.get bits - 1)
  let c := c.set (bits + 1) (c.get (bits + 1) + 2)
  c.set maxLength (c.get maxLength - 1)

/-- GEN_BITLEN's repair of the histogram (R255): until `overflow`, taken down by 2 a pass, is used up. -/
def fixHistogram (maxLength : Nat) : Nat → Nat → Ram 4 Nat → Ram 4 Nat
  | 0, _, c => c
  | fuel + 1, overflow, c =>
    let c := moveLeafDown maxLength c
    if overflow ≤ 2 then c else fixHistogram maxLength fuel (overflow - 2) c

/-- GEN_BITLEN's reassignment of one length (R255): `n` more leaves get `bits`, taken from heap[h - 1] down. Answers the
new h. -/
def reassignLevel (heap : Ram 10 Nat) (bits : Nat) : Nat → Nat → HTree × Int → Nat × HTree × Int
  | 0, _, acc => (0, acc)
  | h + 1, n, (t, opt) =>
    if n = 0 then (h + 1, t, opt)
    else
      let m := heap.get h
      if t.maxCode < m then reassignLevel heap bits h n (t, opt)
      else if t.len.get m ≠ bits then
        reassignLevel heap bits h (n - 1)
          ({ t with len := t.len.set m bits }, opt + ((bits : Int) - t.len.get m) * t.freq.get m)
      else reassignLevel heap bits h (n - 1) (t, opt)

/-- GEN_BITLEN's reassignment for the lengths `bits` down to 1 (R255). -/
def reassign (heap : Ram 10 Nat) (blCount : Ram 4 Nat) : Nat → Nat → HTree × Int → HTree × Int
  | 0, _, acc => acc
  | bits + 1, h, acc =>
    let r := reassignLevel heap (bits + 1) h (blCount.get (bits + 1)) acc
    reassign heap blCount bits r.1 r.2

/-- GEN_BITLEN (R255). -/
def genBitlen (stree : Option (Nat → Nat)) (extra : List Nat) (base maxLength : Nat) (b : TreeScratch) (t : HTree) :
    TreeScratch × HTree :=
  let t := { t with len := t.len.set (b.heap.get b.heapMax) 0 }
  let (b, t, overflow) :=
    bitlenWalk stree extra base maxLength (heapSize - (b.heapMax + 1)) (b.heapMax + 1)
      ({ b with blCount := Ram.zero }, t, 0)
  if overflow = 0 then (b, t)
  else
    let c := fixHistogram maxLength overflow overflow b.blCount
    let (t, opt) := reassign b.heap c maxLength heapSize (t, b.optLen)
    ({ b with blCount := c, optLen := opt }, t)

/-- The first code of each length from `bits` on (R256, R159), for `count` lengths. -/
def nextCodes (blCount : Ram 4 Nat) : Nat → Nat → Nat → Ram 4 Nat → Ram 4 Nat
  | 0, _, _, next => next
  | count + 1, bits, code, next =>
    let code := (code + blCount.get (bits - 1)) * 2
    nextCodes blCount count (bits + 1) code (next.set bits code)

/-- GEN_CODES' second loop (R256) over the next `count` symbols from `n`. -/
def assignCodes (len : Nat → Nat) : Nat → Nat → Ram 4 Nat → Ram 10 Nat → Ram 10 Nat
  | 0, _, _, codes => codes
  | count + 1, n, next, codes =>
    let l := len n
    if l = 0 then assignCodes len count (n + 1) next codes
    else
      assignCodes len count (n + 1) (next.set l (next.get l + 1)) (codes.set n (biReverse (next.get l) l))

/-- GEN_CODES for symbols 0..count-1 (R256); a symbol of length 0 keeps its code. -/
def genCodes (len : Nat → Nat) (count : Nat) (blCount : Ram 4 Nat) (codes : Ram 10 Nat) : Ram 10 Nat :=
  assignCodes len count 0 (nextCodes blCount maxBits 1 0 Ram.zero) codes

/-- BUILD_TREE (R254). -/
def buildTree (stree : Option (Nat → Nat)) (extra : List Nat) (base elems maxLength : Nat) (b : TreeScratch) (t : HTree) :
    TreeScratch × HTree :=
  let bt := seedHeap elems 0 ({ b with heapLen := 0, heapMax := heapSize }, { t with maxCode := -1 })
  let bt := forceTwo stree 2 bt
  let bt := (heapify bt.2 (bt.1.heapLen / 2) bt.1, bt.2)
  let (b, t) := combine bt.1.heapLen elems bt
  let b := { b with heapMax := b.heapMax - 1, heap := b.heap.set (b.heapMax - 1) (b.heap.get 1) }
  let (b, t) := genBitlen stree extra base maxLength b t
  (b, { t with code := genCodes t.len.get (t.maxCode + 1).toNat b.blCount t.code })

/-! ### The tree description -/

/-- One code-length symbol with its extra bits. -/
structure RunItem where
  sym : Nat
  extra : Nat
  extraLen : Nat
  deriving DecidableEq, Repr

/-- How one run of `count` equal lengths is coded (R257, R258). -/
def runItems (curlen count : Nat) (prevlen : Int) (minCount : Nat) : List RunItem :=
  if count < minCount then List.replicate count { sym := curlen, extra := 0, extraLen := 0 }
  else if curlen ≠ 0 then
    if (curlen : Int) ≠ prevlen then
      [{ sym := curlen, extra := 0, extraLen := 0 }, { sym := 16, extra := count - 1 - 3, extraLen := 2 }]
    else [{ sym := 16, extra := count - 3, extraLen := 2 }]
  else if count ≤ 10 then [{ sym := 17, extra := count - 3, extraLen := 3 }]
  else [{ sym := 18, extra := count - 11, extraLen := 7 }]

/-- The runs of a list of code lengths (R257, R258); past its end stands the guard 0xFFFF. -/
def codeRuns : List Nat → Int → Nat → Nat × Nat → List RunItem
  | [], _, _, _ => []
  | curlen :: rest, prevlen, count, limits =>
    let nextlen := rest.headD 0xFFFF
    if count + 1 < limits.1 ∧ curlen = nextlen then codeRuns rest prevlen (count + 1) limits
    else
      runItems curlen (count + 1) prevlen limits.2 ++
        codeRuns rest curlen 0 (if nextlen = 0 then (138, 3) else if curlen = nextlen then (6, 3) else (7, 4))

/-- The run-length coding of T.len[0..count-1], which SCAN_TREE counts and SEND_TREE sends (R257, R258). -/
def treeRuns (t : HTree) (count : Nat) : List RunItem :=
  let lens := t.len.slice 0 count
  codeRuns lens (-1) 0 (if lens.headD 0xFFFF = 0 then (138, 3) else (7, 4))

/-- SCAN_TREE (R257): count the code-length symbols into bltree. -/
def scanTree (runs : List RunItem) (bl : HTree) : HTree := runs.foldl (fun bl r => bl.count r.sym) bl

/-- SEND_CODE (R262). -/
def sendCode (t : HTree) (w : BitWriter) (c : Nat) : BitWriter := w.sendBits (t.code.get c) (t.len.get c)

/-- One item of SEND_TREE (R258). -/
def sendRun (bl : HTree) (w : BitWriter) (r : RunItem) : BitWriter :=
  let w := sendCode bl w r.sym
  if r.extraLen = 0 then w else w.sendBits r.extra r.extraLen

/-- SEND_TREE (R258). -/
def sendTree (bl : HTree) (runs : List RunItem) (w : BitWriter) : BitWriter := runs.foldl (sendRun bl) w

/-- The last index in bl_order, at most `i`, whose length is not 0, but at least 2 (R259). -/
def maxBlIndex (bl : HTree) : Nat → Nat
  | 0 => 0
  | i + 1 => if 3 ≤ i + 1 ∧ bl.len.get (tableAt blOrder (i + 1)) = 0 then maxBlIndex bl i else i + 1

/-- BUILD_BL_TREE (R259): the state after, and max_blindex. -/
def buildBlTree (d : DState) : DState × Nat :=
  let bl := scanTree (treeRuns d.ltree (d.ltree.maxCode + 1).toNat) d.bltree
  let bl := scanTree (treeRuns d.dtree (d.dtree.maxCode + 1).toNat) bl
  let (b, bl) := buildTree none extraBlbits 0 blCodes maxBlBits d.scratch bl
  let i := maxBlIndex bl (blCodes - 1)
  ({ d with bltree := bl, scratch := { b with optLen := b.optLen + (3 * (i + 1) + 5 + 5 + 4) } }, i)

/-- SEND_ALL_TREES (R260). -/
def sendAllTrees (lt dt bl : HTree) (lcodes dcodes blcodes : Nat) (w : BitWriter) : BitWriter :=
  let w := w.sendBits (lcodes - 257) 5
  let w := w.sendBits (dcodes - 1) 5
  let w := w.sendBits (blcodes - 4) 4
  let w := (blOrder.take blcodes).foldl (fun w s => w.sendBits (bl.len.get s) 3) w
  sendTree bl (treeRuns dt dcodes) (sendTree bl (treeRuns lt lcodes) w)

/-! ### Symbol coding -/

/-- The codes and lengths of the two alphabets that a block is sent with. -/
structure Codes where
  lcode : Nat → Nat
  llen : Nat → Nat
  dcode : Nat → Nat
  dlen : Nat → Nat

/-- The static trees (R263). -/
def staticCodes : Codes := { lcode := staticLcode, llen := staticLlen, dcode := staticDcode, dlen := staticDlen }

/-- One record of COMPRESS_BLOCK (R261). -/
def sendSym (c : Codes) (w : BitWriter) (s : Sym) : BitWriter :=
  if s.dist = 0 then w.sendBits (c.lcode s.lc) (c.llen s.lc)
  else
    let code := lengthCode s.lc
    let w := w.sendBits (c.lcode (code + 257)) (c.llen (code + 257))
    let w := if tableAt extraLbits code = 0 then w
      else w.sendBits (s.lc - tableAt baseLength code) (tableAt extraLbits code)
    let x := s.dist - 1
    let code := dCode x
    let w := w.sendBits (c.dcode code) (c.dlen code)
    if tableAt extraDbits code = 0 then w
    else w.sendBits (x - tableAt baseDist code) (tableAt extraDbits code)

/-- COMPRESS_BLOCK (R261). -/
def compressBlock (c : Codes) (sym : List Sym) (w : BitWriter) : BitWriter :=
  let w := sym.foldl (sendSym c) w
  w.sendBits (c.lcode endBlock) (c.llen endBlock)

/-- TR_ALIGN (R266). -/
def trAlign (w : BitWriter) : BitWriter :=
  ((w.sendBits 2 3).sendBits (staticLcode endBlock) (staticLlen endBlock)).biFlush

/-! ### Closing a block -/

/-- DETECT_DATA_TYPE (R300). -/
def detectDataType (lt : HTree) : Word :=
  let used (n : Nat) : Bool := decide (lt.freq.get n ≠ 0)
  if (List.range 32).any fun n => Nat.testBit 0xF3FFC07F n && used n then zBinary
  else if used 9 || used 10 || used 13 then zText
  else if (List.range 224).any fun n => used (n + 32) then zText
  else zBinary

/-- What FLUSH_BLOCK_CORE computes before it sends anything (R264): the trees, and the three costs in bytes. -/
structure BlockPlan where
  d : DState
  dataType : Word
  optLenb : Int
  staticLenb : Int
  maxBlindex : Nat

/-- The first part of FLUSH_BLOCK_CORE (R264). -/
def planBlock (d : DState) (dataType : Word) (storedLen : Nat) : BlockPlan :=
  if d.tune.level = 0 then
    { d := d, dataType := dataType, optLenb := storedLen + 5, staticLenb := storedLen + 5, maxBlindex := 0 }
  else
    let dataType := if dataType = zUnknown then detectDataType d.ltree else dataType
    let (b, lt) := buildTree (some staticLlen) extraLbits 257 lCodes maxBits d.scratch d.ltree
    let (b, dt) := buildTree (some staticDlen) extraDbits 0 dCodes maxBits b d.dtree
    let (d, i) := buildBlTree { d with scratch := b, ltree := lt, dtree := dt }
    let optLenb := (d.scratch.optLen + 3 + 7) / 8
    let staticLenb := (d.scratch.staticLen + 3 + 7) / 8
    { d := d, dataType := dataType,
      optLenb := if staticLenb ≤ optLenb ∨ d.tune.strategy = zFixed then staticLenb else optLenb,
      staticLenb := staticLenb, maxBlindex := i }

/-- The second part of FLUSH_BLOCK_CORE (R264): send the block as the cheapest type. -/
def emitBlock (p : BlockPlan) (buf : Option Nat) (storedLen : Nat) (last : Bool) : BitWriter :=
  let d := p.d
  match (if (storedLen : Int) + 4 ≤ p.optLenb then buf else none) with
  | some buf => storedBlock d.bw (d.window.slice buf storedLen) storedLen last
  | none =>
    if p.staticLenb = p.optLenb then
      compressBlock staticCodes d.sym (d.bw.sendBits (2 + last.toNat) 3)
    else
      let w := d.bw.sendBits (4 + last.toNat) 3
      let w := sendAllTrees d.ltree d.dtree d.bltree (d.ltree.maxCode + 1).toNat (d.dtree.maxCode + 1).toNat
        (p.maxBlindex + 1) w
      compressBlock { lcode := d.ltree.code.get, llen := d.ltree.len.get, dcode := d.dtree.code.get,
                      dlen := d.dtree.len.get } d.sym w

/-- FLUSH_BLOCK_CORE (R264): the state and DATA_TYPE after. -/
def flushBlockCore (d : DState) (dataType : Word) (buf : Option Nat) (storedLen : Nat) (last : Bool) : DState × Word :=
  let p := planBlock d dataType storedLen
  let w := emitBlock p buf storedLen last
  let d := initBlock { p.d with bw := w }
  ({ d with bw := if last then d.bw.biWindup else d.bw }, p.dataType)

end Sys2Proof.Machine
end

