-- ==== Sys2Proof/Machine/MatchFinder.lean ====
section
/-! DEFINITION. deflate_match_finder (spec 41, R200 to R224) up to the strategy functions: the hash chains, the window
fill, the match search. The input reader READ_BUF and FLUSH_PENDING (44 R356, 43 R325) stand here too, because the window
fill and the strategies use them. -/

namespace Sys2Proof.Machine

/-- A D-engine at work on its context inside one command: what it can read and change (44). -/
structure DRun where
  params : Params
  regs : Regs
  d : DState
  mem : Memory
  deriving DecidableEq, Repr

/-! ### Input and output -/

/-- READ_BUF up to the place the bytes go to (44 R356): the bytes taken, and the run after. -/
def readIn (size : Nat) (x : DRun) : List Byte × DRun :=
  let n := min x.regs.availIn.toNat size
  let data := x.mem.readN x.regs.nextIn n
  let regs := x.regs.consume x.params n
  (data, { x with regs := if x.d.wrap = 1 then { regs with adler := adler32 regs.adler data } else regs })

/-- FLUSH_PENDING (43 R325). -/
def flushPending (x : DRun) : DRun :=
  let w := x.d.bw.biFlush
  let n := min w.pending.length x.regs.availOut.toNat
  { x with
    regs := x.regs.produce x.params n
    d := { x.d with bw := { w with pending := w.pending.drop n } }
    mem := x.mem.writeN x.regs.nextOut (w.pending.take n) }

/-! ### Hash and hash chains -/

/-- MAX_DIST (R201). -/
def maxDist (d : DState) : Nat := d.conf.wSize - minLookahead

/-- UPDATE_HASH (R202). -/
def updateHash (d : DState) (h : Nat) (c : Byte) : Nat :=
  ((h <<< d.conf.hashShift) ^^^ c.toNat) &&& d.conf.hashMask

/-- INSERT_STRING(p) (R203): the previous chain head, and the state after. -/
def insertString (p : Nat) (d : DState) : Nat × DState :=
  let ins := updateHash d d.insH (d.window.get (p + 2))
  let h := d.head.get ins
  (h, { d with insH := ins, prev := d.prev.set (p &&& d.conf.wMask) h, head := d.head.set ins p })

/-- `n` calls of INSERT_STRING, at p, p + 1, ... -/
def insertStrings : Nat → Nat → DState → DState
  | 0, _, d => d
  | n + 1, p, d => insertStrings n (p + 1) (insertString p d).2

/-! ### Window slide and fill -/

/-- A chain entry after a slide (R206). -/
def slideEntry (wSize p : Nat) : Nat := if wSize ≤ p then p - wSize else 0

/-- SLIDE_HASH (R206). -/
def slideHash (d : DState) : DState :=
  { d with head := d.head.map (slideEntry d.conf.wSize), prev := d.prev.map (slideEntry d.conf.wSize) }

/-- The slide of FILL_WINDOW (R207), `more` bytes being free above. -/
def slideWindow (more : Nat) (d : DState) : DState :=
  let w := d.conf.wSize
  let strstart := d.strstart - w
  slideHash { d with
    window := d.window.move 0 w (w - more)
    matchStart := d.matchStart - w
    strstart := strstart
    blockStart := d.blockStart - w
    insert := if strstart < d.insert then strstart else d.insert }

/-- Insert the held-back positions from `st` on (R207), `insert` being the count. -/
def insertHeld : Nat → Nat → DState → DState
  | 0, _, d => d
  | n + 1, st, d =>
    let d := { (insertString st d).2 with insert := n }
    if d.lookahead + n < minMatch then d else insertHeld n (st + 1) d

/-- Prime the hash and insert the held-back positions (R207). -/
def primeHash (d : DState) : DState :=
  if minMatch ≤ d.lookahead + d.insert then
    let st := d.strstart - d.insert
    insertHeld d.insert st { d with insH := updateHash d (d.window.get st).toNat (d.window.get (st + 1)) }
  else d

/-- FILL_WINDOW's slide test (R207): the state after, and the free bytes. -/
def slideIfNeeded (d : DState) : DState × Nat :=
  let more := d.conf.windowSize - d.lookahead - d.strstart
  if d.conf.wSize + maxDist d ≤ d.strstart then (slideWindow more d, more + d.conf.wSize) else (d, more)

/-- FILL_WINDOW (R207); `fuel` bounds the passes (log entry 8). -/
def fillLoop : Nat → DRun → DRun
  | 0, x => x
  | fuel + 1, x =>
    let (d, more) := slideIfNeeded x.d
    let x := { x with d := d }
    if x.regs.availIn = 0 then x
    else
      let (data, x) := readIn more x
      let d := { x.d with window := x.d.window.setList (x.d.strstart + x.d.lookahead) data
                          lookahead := x.d.lookahead + data.length }
      let x := { x with d := primeHash d }
      if x.d.lookahead < minLookahead ∧ x.regs.availIn ≠ 0 then fillLoop fuel x else x

/-- FILL_WINDOW (R207). Every pass but the last takes at least one byte. -/
def fillWindow (x : DRun) : DRun := fillLoop (x.regs.availIn.toNat + 1) x

/-! ### Longest match -/

/-- How far `window[c..]` and `window[s..]` agree, from length `len` on, `fuel` bytes at most. -/
def matchRun (window : Ram 16 Byte) (c s : Nat) : Nat → Nat → Nat
  | 0, len => len
  | fuel + 1, len =>
    if window.get (c + len) = window.get (s + len) then matchRun window c s fuel (len + 1) else len

/-- The length LONGEST_MATCH finds at candidate `c`, none when the reject test drops it (R210). -/
def candidateLen (window : Ram 16 Byte) (c s best : Nat) : Option Nat :=
  if window.get (c + best) ≠ window.get (s + best)
      ∨ window.get (c + best - 1) ≠ window.get (s + best - 1)
      ∨ window.get c ≠ window.get s ∨ window.get (c + 1) ≠ window.get (s + 1) then none
  else some (matchRun window c s (maxMatch - 3) 3)

/-- The chain walk of LONGEST_MATCH (R210): best_len and match_start, `chain` candidates at most. -/
def chainWalk (d : DState) (limit nice : Nat) : Nat → Nat → Nat × Int → Nat × Int
  | 0, _, bm => bm
  | chain + 1, c, bm =>
    let found : Option Nat := (candidateLen d.window c d.strstart bm.1).filter fun len => decide (bm.1 < len)
    let bm : Nat × Int := match found with
      | some len => (len, (c : Int))
      | none => bm
    if found.isSome = true ∧ nice ≤ bm.1 then bm
    else
      let c := d.prev.get (c &&& d.conf.wMask)
      if c ≤ limit then bm else chainWalk d limit nice chain c bm

/-- LONGEST_MATCH(cur_match) (R210): the length, and the state after. -/
def longestMatch (cur : Nat) (d : DState) : Nat × DState :=
  let chain := if d.tune.goodMatch ≤ d.prevLength then d.tune.maxChainLength / 4 else d.tune.maxChainLength
  let nice := min d.tune.niceMatch d.lookahead
  let limit := if maxDist d < d.strstart then d.strstart - maxDist d else 0
  let (best, start) := chainWalk d limit nice chain cur (d.prevLength, d.matchStart)
  (min best d.lookahead, { d with matchStart := start })

/-- How many bytes from `window[s + k]` on equal `p`, added to `k`, `fuel` bytes at most. -/
def byteRun (window : Ram 16 Byte) (p : Byte) (s : Nat) : Nat → Nat → Nat
  | 0, k => k
  | fuel + 1, k => if window.get (s + k) = p then byteRun window p s fuel (k + 1) else k

/-- RLE_MATCH (R213). -/
def rleMatch (d : DState) : Nat :=
  let s := d.strstart
  let p := d.window.get (s - 1)
  if d.window.get s = p ∧ d.window.get (s + 1) = p ∧ d.window.get (s + 2) = p then
    min (byteRun d.window p s (maxMatch - 3) 3) d.lookahead
  else 0

end Sys2Proof.Machine
end

