-- ==== Sys2Proof/Machine/Strategy.lean ====
section
/-! DEFINITION. Closing a block and the five strategy functions (spec 44 R360 to R372, 41 R220 to R224). -/

namespace Sys2Proof.Machine

/-- What a strategy function returns (44 R372). -/
inductive BState where
  | needMore | blockDone | finishStarted | finishDone
  deriving DecidableEq, Repr

/-! ### Closing a block (44 R360, R361) -/

/-- FLUSH_BLOCK_ONLY(last) (R360). -/
def flushBlockOnly (last : Bool) (x : DRun) : DRun :=
  let d := x.d
  let buf := if 0 ≤ d.blockStart then some d.blockStart.toNat else none
  let (d', dt) := flushBlockCore d x.regs.dataType buf ((d.strstart : Int) - d.blockStart).toNat last
  flushPending { x with d := { d' with blockStart := d'.strstart }, regs := { x.regs with dataType := dt } }

/-- FLUSH_BLOCK(last) (R360): the block state to return at once, or none. -/
def flushBlock (last : Bool) (x : DRun) : Option BState × DRun :=
  let x := flushBlockOnly last x
  if x.regs.availOut = 0 then (some (if last then .finishStarted else .needMore), x) else (none, x)

/-- FINISH_STRATEGY(flush, ins) (R361). -/
def finishStrategy (flush ins : Nat) (x : DRun) : BState × DRun :=
  let x := { x with d := { x.d with insert := ins } }
  if flush = zFinish then
    let (r, x) := flushBlock true x
    (r.getD .finishDone, x)
  else if x.d.sym ≠ [] then
    let (r, x) := flushBlock false x
    (r.getD .blockDone, x)
  else (.blockDone, x)

/-- What one pass of a strategy's loop asks for next. -/
inductive Pass where
  /-- Return this block state. -/
  | stop (b : BState)
  /-- Go round again. -/
  | again
  deriving DecidableEq, Repr

/-- The end of a pass whose tally answered `bflush`: close the block if it is full. -/
def closeIfFull (bflush : Bool) (x : DRun) : Pass × DRun :=
  if bflush then
    match flushBlock false x with
    | (some b, x) => (.stop b, x)
    | (none, x) => (.again, x)
  else (.again, x)

/-- The loop of a strategy function: passes of `step` until one stops. `fuel` bounds the passes (log entry 8). -/
def strategyLoop (step : DRun → Pass × DRun) : Nat → DRun → BState × DRun
  | 0, x => (.needMore, x)
  | fuel + 1, x =>
    match step x with
    | (.stop b, x) => (b, x)
    | (.again, x) => strategyLoop step fuel x

/-- A bound on the passes of a strategy's loop: every pass that goes round again codes at least one byte. -/
def passBound (x : DRun) : Nat := x.d.lookahead + x.regs.availIn.toNat + 1

/-! ### The fast function (41 R220) -/

/-- Emit the match R220 found: tally it and move past it. -/
def fastMatch (d : DState) : Bool × DState :=
  let len := d.matchLength
  let (bflush, d) := tallyDist ((d.strstart : Int) - d.matchStart).toNat (len - minMatch) d
  let d := { d with lookahead := d.lookahead - len }
  if len ≤ d.tune.maxLazyMatch ∧ minMatch ≤ d.lookahead then
    let d := insertStrings (len - 1) (d.strstart + 1) d
    (bflush, { d with strstart := d.strstart + len, matchLength := 0 })
  else
    let s := d.strstart + len
    (bflush, { d with strstart := s, matchLength := 0
                      insH := updateHash d (d.window.get s).toNat (d.window.get (s + 1)) })

/-- Emit the byte at strstart as a literal and move past it (R220, R222, R223). -/
def emitLiteral (d : DState) : Bool × DState :=
  let (bflush, d) := tallyLit (d.window.get d.strstart) d
  (bflush, { d with lookahead := d.lookahead - 1, strstart := d.strstart + 1 })

/-- Insert the string at strstart when there are three bytes: the chain head before it, 0 when there is none. -/
def insertHere (d : DState) : Nat × DState :=
  if minMatch ≤ d.lookahead then insertString d.strstart d else (0, d)

/-- The search of R220. -/
def fastSearch (d : DState) : DState :=
  let (h, d) := insertHere d
  if h ≠ 0 ∧ d.strstart - h ≤ maxDist d then
    let (len, d) := longestMatch h d
    { d with matchLength := len }
  else d

/-- The coding half of a pass of DEFLATE_FAST (R220). -/
def fastCode (d : DState) : Bool × DState :=
  let d := fastSearch d
  if minMatch ≤ d.matchLength then fastMatch d else emitLiteral d

/-- Refill below MIN_LOOKAHEAD (R220, R221). -/
def refill (x : DRun) : DRun := if x.d.lookahead < minLookahead then fillWindow x else x

/-- One pass of DEFLATE_FAST (R220). -/
def fastStep (flush : Nat) (x : DRun) : Pass × DRun :=
  let x := refill x
  if x.d.lookahead < minLookahead ∧ flush = zNoFlush then (.stop .needMore, x)
  else if x.d.lookahead = 0 then
    let (b, x) := finishStrategy flush (min x.d.strstart (minMatch - 1)) x
    (.stop b, x)
  else
    let (bflush, d) := fastCode x.d
    closeIfFull bflush { x with d := d }

/-- DEFLATE_FAST (R220). -/
def deflateFast (flush : Nat) (x : DRun) : BState × DRun := strategyLoop (fastStep flush) (passBound x) x

/-! ### The slow function (41 R221) -/

/-- The search of R221, with the lazy state moved one place on. -/
def slowSearch (d : DState) : DState :=
  let (h, d) := insertHere d
  let d := { d with prevLength := d.matchLength, prevMatch := d.matchStart, matchLength := minMatch - 1 }
  if h ≠ 0 ∧ d.prevLength < d.tune.maxLazyMatch ∧ d.strstart - h ≤ maxDist d then
    let (len, d) := longestMatch h d
    let weak := len ≤ 5 ∧ (d.tune.strategy = zFiltered
      ∨ (len = minMatch ∧ (tooFar : Int) < (d.strstart : Int) - d.matchStart))
    { d with matchLength := if weak then minMatch - 1 else len }
  else d

/-- INSERT_STRING at `p`, p + 1, ... for `n` positions, leaving out those past `maxInsert` (R221). -/
def insertUpTo (maxInsert : Nat) : Nat → Nat → DState → DState
  | 0, _, d => d
  | n + 1, p, d => insertUpTo maxInsert n (p + 1) (if p ≤ maxInsert then (insertString p d).2 else d)

/-- Emit the previous position's match (R221). -/
def slowMatch (d : DState) : Bool × DState :=
  let len := d.prevLength
  let maxInsert := d.strstart + d.lookahead - minMatch
  let (bflush, d) := tallyDist ((d.strstart : Int) - 1 - d.prevMatch).toNat (len - minMatch) d
  let d := insertUpTo maxInsert (len - 2) (d.strstart + 1) d
  (bflush, { d with lookahead := d.lookahead - (len - 1), prevLength := 0, matchAvailable := false
                    matchLength := minMatch - 1, strstart := d.strstart + (len - 1) })

/-- The coding half of a pass of DEFLATE_SLOW (R221). -/
def slowCode (x : DRun) : Pass × DRun :=
  let d := slowSearch x.d
  if minMatch ≤ d.prevLength ∧ d.matchLength ≤ d.prevLength then
    let (bflush, d) := slowMatch d
    closeIfFull bflush { x with d := d }
  else if d.matchAvailable then
    let (bflush, d) := tallyLit (d.window.get (d.strstart - 1)) d
    let x := { x with d := d }
    let x := if bflush then flushBlockOnly false x else x
    let x := { x with d := { x.d with strstart := x.d.strstart + 1, lookahead := x.d.lookahead - 1 } }
    if x.regs.availOut = 0 then (.stop .needMore, x) else (.again, x)
  else
    (.again, { x with d := { d with matchAvailable := true, strstart := d.strstart + 1, lookahead := d.lookahead - 1 } })

/-- The last held-back byte, after the loop of R221. -/
def slowLast (d : DState) : DState :=
  if d.matchAvailable then { (tallyLit (d.window.get (d.strstart - 1)) d).2 with matchAvailable := false } else d

/-- One pass of DEFLATE_SLOW (R221). -/
def slowStep (flush : Nat) (x : DRun) : Pass × DRun :=
  let x := refill x
  if x.d.lookahead < minLookahead ∧ flush = zNoFlush then (.stop .needMore, x)
  else if x.d.lookahead = 0 then
    let x := { x with d := slowLast x.d }
    let (b, x) := finishStrategy flush (min x.d.strstart (minMatch - 1)) x
    (.stop b, x)
  else slowCode x

/-- DEFLATE_SLOW (R221). -/
def deflateSlow (flush : Nat) (x : DRun) : BState × DRun := strategyLoop (slowStep flush) (passBound x) x

/-! ### RLE and Huffman-only (41 R222, R223) -/

/-- The coding half of a pass of DEFLATE_RLE (R222). -/
def rleCode (d : DState) : Bool × DState :=
  let len := if minMatch ≤ d.lookahead ∧ 0 < d.strstart then rleMatch d else 0
  let d := { d with matchLength := len }
  if minMatch ≤ len then
    let (bflush, d) := tallyDist 1 (len - minMatch) d
    (bflush, { d with lookahead := d.lookahead - len, strstart := d.strstart + len, matchLength := 0 })
  else emitLiteral d

/-- One pass of DEFLATE_RLE (R222). -/
def rleStep (flush : Nat) (x : DRun) : Pass × DRun :=
  let x := if x.d.lookahead ≤ maxMatch then fillWindow x else x
  if x.d.lookahead ≤ maxMatch ∧ flush = zNoFlush then (.stop .needMore, x)
  else if x.d.lookahead = 0 then
    let (b, x) := finishStrategy flush 0 x
    (.stop b, x)
  else
    let (bflush, d) := rleCode x.d
    closeIfFull bflush { x with d := d }

/-- DEFLATE_RLE (R222). -/
def deflateRle (flush : Nat) (x : DRun) : BState × DRun := strategyLoop (rleStep flush) (passBound x) x

/-- One pass of DEFLATE_HUFF (R223). -/
def huffStep (flush : Nat) (x : DRun) : Pass × DRun :=
  let x := if x.d.lookahead = 0 then fillWindow x else x
  if x.d.lookahead = 0 then
    if flush = zNoFlush then (.stop .needMore, x)
    else
      let (b, x) := finishStrategy flush 0 x
      (.stop b, x)
  else
    let (bflush, d) := emitLiteral { x.d with matchLength := 0 }
    closeIfFull bflush { x with d := d }

/-- DEFLATE_HUFF (R223). -/
def deflateHuff (flush : Nat) (x : DRun) : BState × DRun := strategyLoop (huffStep flush) (passBound x) x

/-! ### The stored function (44 R370) -/

/-- The bytes a stored block's header needs, with the bits already waiting (R370). -/
def storedHeaderSize (d : DState) : Nat := (d.bw.biValid + 42) / 8

/-- The bytes of the current block that are in the window. -/
def blockLeft (d : DState) : Nat := ((d.strstart : Int) - d.blockStart).toNat

/-- STORED_BLOCK(none, 0, last) with its 4 length bytes replaced by those of `len` (R370). -/
def storedHeader (w : BitWriter) (len : Nat) (last : Bool) : BitWriter :=
  let w := storedBlock w [] 0 last
  let l : BitVec 16 := BitVec.ofNat 16 len
  ({ w with pending := w.pending.take (w.pending.length - 4) }.putShort l).putShort (~~~l)

/-- Copy `left` bytes of the window, then `len` bytes of input, to the output (R370 part 1). -/
def storedCopy (left len : Nat) (x : DRun) : DRun :=
  let x :=
    if left = 0 then x
    else
      { x with
        mem := x.mem.writeN x.regs.nextOut (x.d.window.slice x.d.blockStart.toNat left)
        regs := x.regs.produce x.params left
        d := { x.d with blockStart := x.d.blockStart + left } }
  if len = 0 then x
  else
    let out := x.regs.nextOut
    let (data, x) := readIn len x
    { x with mem := x.mem.writeN out data, regs := x.regs.produce x.params len }

/-- The length of the next direct copy, or none when R370's part 1 stops. -/
def storedLength (flush : Nat) (x : DRun) : Option Nat :=
  let header := storedHeaderSize x.d
  if x.regs.availOut.toNat < header then none
  else
    let all := blockLeft x.d + x.regs.availIn.toNat
    let len := min (min maxStored all) (x.regs.availOut.toNat - header)
    if len < min (x.d.conf.pendingBufSize - 5) x.d.conf.wSize
        ∧ ((len = 0 ∧ flush ≠ zFinish) ∨ flush = zNoFlush ∨ len ≠ all) then none
    else some len

/-- Part 1 of DEFLATE_STORED (R370): `last`, and the run after; `fuel` bounds the blocks (log entry 8). -/
def storedDirect (flush : Nat) : Nat → DRun → Bool × DRun
  | 0, x => (false, x)
  | fuel + 1, x =>
    match storedLength flush x with
    | none => (false, x)
    | some len =>
      let left := blockLeft x.d
      let last := decide (flush = zFinish ∧ len = left + x.regs.availIn.toNat)
      let x := flushPending { x with d := { x.d with bw := storedHeader x.d.bw len last } }
      let left := min left len
      let x := storedCopy left (len - left) x
      if last then (true, x) else storedDirect flush fuel x

/-- Slide the window down for the stored function: its upper part moves to 0, and the slide is counted (R370). -/
def storedSlide (d : DState) : DState :=
  let s := d.strstart - d.conf.wSize
  { d with strstart := s
           window := d.window.move 0 d.conf.wSize s
           slides := if d.slides < 2 then d.slides + 1 else d.slides
           insert := if s < d.insert then s else d.insert }

/-- Append `bytes` at strstart, as positions still to be inserted in the hash chains (R370). -/
def storedAppend (bytes : List Byte) (d : DState) : DState :=
  { d with window := d.window.setList d.strstart bytes
           strstart := d.strstart + bytes.length
           insert := d.insert + min bytes.length (d.conf.wSize - d.insert) }

/-- Part 2 of DEFLATE_STORED (R370): keep the last W of the `used` bytes just consumed. -/
def storedKeep (used : Nat) (x : DRun) : DRun :=
  if used = 0 then x
  else
    let w := x.d.conf.wSize
    let d :=
      if w ≤ used then
        { x.d with slides := 2
                   window := x.d.window.setList 0 (x.mem.readN (x.regs.nextIn - BitVec.ofNat 32 w) w)
                   strstart := w
                   insert := w }
      else
        storedAppend (x.mem.readN (x.regs.nextIn - BitVec.ofNat 32 used) used)
          (if x.d.conf.windowSize - x.d.strstart ≤ used then storedSlide x.d else x.d)
    { x with d := { d with blockStart := d.strstart } }

/-- Part 3 of DEFLATE_STORED (R370): fill the window. -/
def storedFill (x : DRun) : DRun :=
  let room := x.d.conf.windowSize - x.d.strstart
  let slide := room < x.regs.availIn.toNat ∧ (x.d.conf.wSize : Int) ≤ x.d.blockStart
  let d :=
    if slide then storedSlide { x.d with blockStart := x.d.blockStart - x.d.conf.wSize } else x.d
  let room := if slide then room + x.d.conf.wSize else room
  let (data, x) := readIn room { x with d := d }
  { x with d := storedAppend data x.d }

/-- Part 4 of DEFLATE_STORED (R370): a block from the window. -/
def storedFromWindow (flush : Nat) (x : DRun) : BState × DRun :=
  let most := min (x.d.conf.pendingBufSize - storedHeaderSize x.d) maxStored
  let left := blockLeft x.d
  if min most x.d.conf.wSize ≤ left
      ∨ ((left ≠ 0 ∨ flush = zFinish) ∧ flush ≠ zNoFlush ∧ x.regs.availIn = 0 ∧ left ≤ most) then
    let len := min left most
    let last := decide (flush = zFinish ∧ x.regs.availIn = 0 ∧ len = left)
    let d := { x.d with bw := storedBlock x.d.bw (x.d.window.slice x.d.blockStart.toNat len) len last
                        blockStart := x.d.blockStart + len }
    (if last then .finishStarted else .needMore, flushPending { x with d := d })
  else (.needMore, x)

/-- DEFLATE_STORED (R370). -/
def deflateStored (flush : Nat) (x : DRun) : BState × DRun :=
  let before := x.regs.availIn.toNat
  let (last, x) := storedDirect flush (blockLeft x.d + before + 1) x
  let x := storedKeep (before - x.regs.availIn.toNat) x
  if last then (.finishDone, x)
  else if flush ≠ zNoFlush ∧ flush ≠ zFinish ∧ x.regs.availIn = 0 ∧ (x.d.strstart : Int) = x.d.blockStart then
    (.blockDone, x)
  else storedFromWindow flush (storedFill x)

/-! ### Dispatch (44 R371) -/

/-- The strategy function of `level` and `strategy` (R371). -/
def runStrategy (flush : Nat) (x : DRun) : BState × DRun :=
  if x.d.tune.level = 0 then deflateStored flush x
  else if x.d.tune.strategy = zHuffmanOnly then deflateHuff flush x
  else if x.d.tune.strategy = zRle then deflateRle flush x
  else if x.d.tune.level ≤ 3 then deflateFast flush x
  else deflateSlow flush x

end Sys2Proof.Machine
end

