-- ==== Sys2Proof/Machine/Deflate.lean ====
section
/-! DEFINITION. Stream framing and the six D-engine commands (spec 44, R375 to R386). -/

namespace Sys2Proof.Machine

/-! ### Small writes of a run -/

/-- `MSG <- m`. -/
def DRun.say (m : Msg) (x : DRun) : DRun := { x with regs := { x.regs with msg := m } }

/-- `last_flush <- f`. -/
def DRun.setLastFlush (f : Int) (x : DRun) : DRun := { x with d := { x.d with lastFlush := f } }

/-- `status <- s`. -/
def DRun.setStatus (s : DStatus) (x : DRun) : DRun := { x with d := { x.d with status := s } }

/-- `head[0 .. hash_size) <- 0`. -/
def clearHash (d : DState) : DState := { d with head := d.head.clearBelow d.conf.hashSize }

/-! ### Framing -/

/-- FLEVEL (R376). -/
def flevel (t : DTune) : Nat :=
  if zHuffmanOnly ≤ t.strategy ∨ t.level < 2 then 0
  else if t.level < 6 then 1
  else if t.level = 6 then 2
  else 3

/-- The 16-bit zlib header (R375). -/
def headerWord (d : DState) : Nat :=
  let h := (8 + (d.conf.wBits - 8) * 2 ^ 4) * 2 ^ 8 + flevel d.tune * 2 ^ 6 + (if d.strstart ≠ 0 then 0x20 else 0)
  h + (31 - h % 31)

/-- WRITE_HEADER (R375). -/
def writeHeader (x : DRun) : DRun :=
  let w := x.d.bw.putShortMsb (BitVec.ofNat 16 (headerWord x.d))
  let w := if x.d.strstart ≠ 0 then w.putWordMsb x.regs.adler else w
  { x with d := { x.d with bw := w }, regs := { x.regs with adler := 1 } }

/-- WRITE_TRAILER (R377). -/
def writeTrailer (x : DRun) : DRun :=
  let x := flushPending { x with d := { x.d with bw := x.d.bw.putWordMsb x.regs.adler } }
  { x with d := { x.d with wrap := if 0 < x.d.wrap then -x.d.wrap else x.d.wrap } }

/-- FLUSH_ACTIONS (R378). -/
def flushActions (flush : Nat) (d : DState) : DState :=
  if flush = zPartialFlush then { d with bw := trAlign d.bw }
  else if flush = zBlock then d
  else
    let d := { d with bw := storedBlock d.bw [] 0 false }
    if flush = zFullFlush then
      let d := clearHash d
      if d.lookahead = 0 then { d with strstart := 0, blockStart := 0, insert := 0 } else d
    else d

/-! ### DEFLATE_CALL (R381), phase by phase: each answers the status the call ends with, or none to go on -/

/-- The checks before anything is done. -/
def callChecks (flush : Nat) (x : DRun) : Option Status × DRun :=
  if zBlock < flush then (some .streamError, x)
  else if x.regs.nextOut = 0 ∨ (x.regs.availIn ≠ 0 ∧ x.regs.nextIn = 0) ∨ (x.d.status = .finish ∧ flush ≠ zFinish) then
    (some .streamError, x.say .streamError)
  else if x.regs.availOut = 0 then (some .bufError, x.say .bufferError)
  else (none, x)

/-- Step 1: drain the pending output. -/
def drainPending (flush : Nat) (x : DRun) : Option Status × DRun :=
  let oldFlush := x.d.lastFlush
  let x := x.setLastFlush flush
  if x.d.bw.pending ≠ [] then
    let x := flushPending x
    if x.regs.availOut = 0 then (some .ok, x.setLastFlush (-1)) else (none, x)
  else if x.regs.availIn = 0 ∧ rank flush ≤ rank oldFlush ∧ flush ≠ zFinish then
    (some .bufError, x.say .bufferError)
  else (none, x)

/-- Input after the finish is refused. -/
def refuseLateInput (x : DRun) : Option Status × DRun :=
  if x.d.status = .finish ∧ x.regs.availIn ≠ 0 then (some .bufError, x.say .bufferError) else (none, x)

/-- Step 2: the header. -/
def startStream (x : DRun) : Option Status × DRun :=
  if x.d.status = .init then
    if x.d.wrap = 0 then (none, x.setStatus .busy)
    else
      let x := flushPending ((writeHeader x).setStatus .busy)
      if x.d.bw.pending ≠ [] then (some .ok, x.setLastFlush (-1)) else (none, x)
  else (none, x)

/-- What follows the strategy function's block state. -/
def afterStrategy (flush : Nat) (b : BState) (x : DRun) : Option Status × DRun :=
  match b with
  | .needMore => (some .ok, if x.regs.availOut = 0 then x.setLastFlush (-1) else x)
  | .finishStarted =>
    let x := x.setStatus .finish
    (some .ok, if x.regs.availOut = 0 then x.setLastFlush (-1) else x)
  | .blockDone =>
    let x := flushPending { x with d := flushActions flush x.d }
    if x.regs.availOut = 0 then (some .ok, x.setLastFlush (-1)) else (none, x)
  | .finishDone => (none, x.setStatus .finish)

/-- Step 3: compress. -/
def compressInput (flush : Nat) (x : DRun) : Option Status × DRun :=
  if x.regs.availIn ≠ 0 ∨ x.d.lookahead ≠ 0 ∨ (flush ≠ zNoFlush ∧ x.d.status ≠ .finish) then
    let (b, x) := runStrategy flush x
    afterStrategy flush b x
  else (none, x)

/-- Step 5: the trailer. -/
def endStream (flush : Nat) (x : DRun) : Status × DRun :=
  if flush ≠ zFinish then (.ok, x)
  else if x.d.wrap ≤ 0 then (.streamEnd, x)
  else
    let x := writeTrailer x
    (if x.d.bw.pending ≠ [] then .ok else .streamEnd, x)

/-- Go on with `f` unless a status has been reached. -/
def unlessEnded (r : Option Status × DRun) (f : DRun → Option Status × DRun) : Option Status × DRun :=
  match r with
  | (some st, x) => (some st, x)
  | (none, x) => f x

/-- DEFLATE_CALL (R381). -/
def deflateCall (flush : Nat) (x : DRun) : Status × DRun :=
  let r := unlessEnded (callChecks flush x) (drainPending flush)
  let r := unlessEnded r refuseLateInput
  let r := unlessEnded r startStream
  match unlessEnded r (compressInput flush) with
  | (some st, x) => (st, x)
  | (none, x) => endStream flush x

/-! ### Starting and restarting (R380, R383) -/

/-- DRESET_BODY (R383) on the private state. -/
def resetDeflate (d : DState) : DState :=
  let d := clearHash (initBlock
    { d with wrap := if d.wrap < 0 then -d.wrap else d.wrap
             status := .init
             lastFlush := -2
             bw := { biBuf := 0, biValid := 0, pending := [] } })
  { d with tune := configRow d.tune.level d.tune.strategy
           strstart := 0, blockStart := 0, lookahead := 0, insert := 0
           matchLength := 2, prevLength := 2, matchAvailable := false, matchStart := 0, prevMatch := 0
           insH := 0 }

/-- DRESET_BODY (R383) on the stream registers. -/
def resetDeflateRegs (r : Regs) : Regs :=
  { r with totalIn := 0, totalOut := 0, msg := .none, dataType := zUnknown, adler := 1 }

/-- A tree with every node field 0 (70 R671). -/
def HTree.zero : HTree := { freq := Ram.zero, len := Ram.zero, code := Ram.zero, dad := Ram.zero, maxCode := 0 }

/-- The sizes windowBits and memLevel give (10_state R40). -/
def dConf (wBits memLevel : Nat) : DConf :=
  { wBits := wBits, wSize := 2 ^ wBits, wMask := 2 ^ wBits - 1, windowSize := 2 * 2 ^ wBits
    hashBits := memLevel + 7, hashSize := 2 ^ (memLevel + 7), hashMask := 2 ^ (memLevel + 7) - 1
    hashShift := (memLevel + 7 + 2) / 3
    litBufsize := 2 ^ (memLevel + 6), pendingBufSize := 4 * 2 ^ (memLevel + 6), symEnd := 3 * (2 ^ (memLevel + 6) - 1) }

/-- The private state DINIT builds (R380), every other field 0 (70 R671). -/
def initDeflate (wrap : Int) (wBits level memLevel strategy : Nat) : DState :=
  resetDeflate
    { wrap := wrap
      conf := dConf wBits memLevel
      tune := configRow level strategy
      status := .init
      lastFlush := 0
      window := Ram.zero, head := Ram.zero, prev := Ram.zero
      insH := 0, strstart := 0, lookahead := 0, blockStart := 0, insert := 0
      matchLength := 0, matchStart := 0, prevLength := 0, prevMatch := 0, matchAvailable := false, slides := 0
      ltree := HTree.zero, dtree := HTree.zero, bltree := HTree.zero
      scratch := { heap := Ram.zero, heapLen := 0, heapMax := 0, depth := Ram.zero, blCount := Ram.zero, optLen := 0,
                   staticLen := 0 }
      bw := { biBuf := 0, biValid := 0, pending := [] }
      sym := [] }

/-- DINIT's operand checks (R380), and the private state they select. -/
def dinitState (arg0 arg1 arg2 arg3 : Word) : Option DState :=
  match dWindowOperand arg1, memLevelOperand arg2, levelOperand arg0, strategyOperand arg3 with
  | some (wrap, wBits), some memLevel, some level, some strategy => some (initDeflate wrap wBits level memLevel strategy)
  | _, _, _, _ => none

/-! ### Preset dictionary (R385) -/

/-- The loop of DSETDICT (R385); `fuel` bounds the passes (log entry 8). -/
def dictLoop : Nat → DRun → DRun
  | 0, x => x
  | fuel + 1, x =>
    if minMatch ≤ x.d.lookahead then
      let m := x.d.lookahead - 2
      let d := insertStrings m x.d.strstart x.d
      dictLoop fuel (fillWindow { x with d := { d with strstart := x.d.strstart + m, lookahead := 2 } })
    else x

/-- The end of DSETDICT (R385): every position is behind strstart, the last `lookahead` not yet in the chains. It runs for
n = 0 and for `"abc"` too, as the pseudocode has it; R385's corner case and example say otherwise (log entry 21). -/
def dictDone (d : DState) : DState :=
  { d with strstart := d.strstart + d.lookahead
           blockStart := d.strstart + d.lookahead
           insert := d.lookahead
           lookahead := 0
           matchLength := 2, prevLength := 2, matchAvailable := false }

/-- Forget a raw stream's window before a dictionary that fills it (R385). -/
def forgetWindow (d : DState) : DState := { clearHash d with strstart := 0, blockStart := 0, insert := 0 }

/-- DSETDICT after its checks (R385). -/
def loadDictionary (addr n : Word) (x : DRun) : DRun :=
  let wrap := x.d.wrap
  let regs :=
    if wrap = 1 then { x.regs with adler := adler32 x.regs.adler (x.mem.readN addr n.toNat) } else x.regs
  let big := x.d.conf.wSize ≤ n.toNat
  let d := if big ∧ wrap = 0 then forgetWindow x.d else x.d
  let addr := if big then addr + (n - BitVec.ofNat 32 d.conf.wSize) else addr
  let n := if big then BitVec.ofNat 32 d.conf.wSize else n
  let y := fillWindow { x with regs := { regs with nextIn := addr, availIn := n }, d := { d with wrap := 0 } }
  let y := dictLoop (n.toNat + y.d.lookahead + 1) y
  { y with regs := { y.regs with nextIn := x.regs.nextIn, availIn := x.regs.availIn }
           d := { dictDone y.d with wrap := wrap } }

/-! ### Changing the parameters (R384) -/

/-- Repair the hash chains when level 0 is left (R384). -/
def leaveStored (d : DState) : DState :=
  if d.tune.level = 0 ∧ d.slides ≠ 0 then
    { (if d.slides = 1 then slideHash d else clearHash d) with slides := 0 }
  else d

/-- The new level and strategy (R384). -/
def setTune (level strategy : Nat) (d : DState) : DState :=
  if d.tune.level ≠ level then { leaveStored d with tune := configRow level strategy }
  else { d with tune := { d.tune with strategy := strategy } }

/-- DPARAMS after its operand check (R384). -/
def changeParams (level strategy : Nat) (x : DRun) : Status × DRun :=
  if (strategy ≠ x.d.tune.strategy ∨ levelFunc x.d.tune.level ≠ levelFunc level) ∧ x.d.lastFlush ≠ -2 then
    let (err, x) := deflateCall zBlock x
    if err = .streamError then (.streamError, x)
    else if x.regs.availIn ≠ 0 ∨ (x.d.strstart : Int) - x.d.blockStart + x.d.lookahead ≠ 0 then (.bufError, x)
    else (.ok, { x with d := setTune level strategy x.d })
  else (.ok, { x with d := setTune level strategy x.d })

/-! ### The commands -/

/-- A D-engine command's run at its start. -/
def DRun.start (s : State) (r : Regs) (d : DState) : DRun := { params := s.params, regs := r, d := d, mem := s.mem }

/-- What a D-engine command's run leaves behind. -/
def DRun.done (st : Status) (x : DRun) : Done := { status := st, regs := x.regs, slot := .deflate x.d, mem := x.mem }

/-- A D-engine command that is refused by its own checks: nothing changes but RESULT (60 R630). -/
def refuseDeflate (s : State) (st : Status) (r : Regs) (d : DState) : Done := (DRun.start s r d).done st

/-- DINIT (R380). It does not check KIND. -/
def execDinit (k _b : BitVec 8) (s : State) : Host.Outcome State Fault Refusal :=
  onContext k s fun s =>
    match dinitState s.arg0 s.arg1 s.arg2 s.arg3 with
    | none => s.setResult .streamError
    | some d =>
      s.finish k.toNat
        { status := .ok, regs := resetDeflateRegs (s.ctx k.toNat).regs, slot := .deflate d, mem := s.mem }

/-- DPROC (R381). -/
def execDproc (k b : BitVec 8) (s : State) : Host.Outcome State Fault Refusal :=
  onDeflate k s fun r d =>
    let (st, x) := deflateCall (byteOperand b) (DRun.start s r d)
    x.done st

/-- DSETDICT (R385). An ended zlib stream, wrap -1, takes a dictionary too: that is R385's corner case, and 60 R620 and R623
give a command the checks of its pseudocode, where R632 and R630's row refuse it (DEDUCED; log entry 25). -/
def execDsetdict (k _b : BitVec 8) (s : State) : Host.Outcome State Fault Refusal :=
  onDeflate k s fun r d =>
    if s.arg0 = 0 ∨ (d.wrap = 1 ∧ d.status ≠ .init) ∨ d.lookahead ≠ 0 then refuseDeflate s .streamError r d
    else (loadDictionary s.arg0 s.arg1 (DRun.start s r d)).done .ok

/-- DRESET (R383). -/
def execDreset (k _b : BitVec 8) (s : State) : Host.Outcome State Fault Refusal :=
  onDeflate k s fun r d => { status := .ok, regs := resetDeflateRegs r, slot := .deflate (resetDeflate d), mem := s.mem }

/-- DPARAMS (R384). -/
def execDparams (k _b : BitVec 8) (s : State) : Host.Outcome State Fault Refusal :=
  onDeflate k s fun r d =>
    match levelOperand s.arg0, strategyOperand s.arg1 with
    | some level, some strategy =>
      let (st, x) := changeParams level strategy (DRun.start s r d)
      x.done st
    | _, _ => refuseDeflate s .streamError r d

/-- DEND (R386). -/
def execDend (k _b : BitVec 8) (s : State) : Host.Outcome State Fault Refusal :=
  onDeflate k s fun r d =>
    { status := if d.status = .busy then .dataError else .ok, regs := r, slot := .free, mem := s.mem }

end Sys2Proof.Machine
end

