-- ==== Sys2Proof/Machine/InflateTable.lean ====
section
/-! DEFINITION. inflate_table, the decode-table builder (spec 46, R460 to R480). -/

namespace Sys2Proof.Machine

/-- The type of a table (R460). -/
inductive CodeType where
  | codes | lens | dists
  deriving DecidableEq, Repr

/-! ### Entries (R464, R467) -/

/-- `{op, bits, val}` from numbers in their ranges. -/
def mkEntry (op bits val : Nat) : Entry :=
  { op := BitVec.ofNat 8 op, bits := BitVec.ofNat 8 bits, val := BitVec.ofNat 16 val }

/-- The `match` column of R464. -/
def CodeType.matchSym : CodeType → Nat
  | .codes => 20
  | .lens => 257
  | .dists => 0

/-- The `base` column of R464. -/
def CodeType.base : CodeType → List Nat
  | .codes => []
  | .lens => lbase
  | .dists => dbase

/-- The `extra` column of R464. -/
def CodeType.extra : CodeType → List Nat
  | .codes => []
  | .lens => lext
  | .dists => dext

/-- ENTRY(w, b) (R467). -/
def symEntry (ty : CodeType) (w b : Nat) : Entry :=
  let m := ty.matchSym
  if w + 1 < m then mkEntry 0 b w
  else if m ≤ w then mkEntry (tableAt ty.extra (w - m)) b (tableAt ty.base (w - m))
  else mkEntry 96 b 0

/-! ### Validation (R461, R462) -/

/-- `count` (R461): how many symbols have each length. -/
def countLens (lens : List Nat) : Ram 4 Nat := lens.foldl (fun c l => c.set l (c.get l + 1)) Ram.zero

/-- The greatest length at most `n` in use, or 0 (R461). -/
def maxUsed (count : Ram 4 Nat) : Nat → Nat
  | 0 => 0
  | n + 1 => if count.get (n + 1) = 0 then maxUsed count n else n + 1

/-- The least length in use from `m` on, below `max` (R461). -/
def minUsed (count : Ram 4 Nat) (max : Nat) : Nat → Nat → Nat
  | 0, m => m
  | fuel + 1, m => if m < max ∧ count.get m = 0 then minUsed count max fuel (m + 1) else m

/-- `left` after the lengths from `len` on, none when the lengths are over-subscribed (R462). -/
def spaceLeft (count : Ram 4 Nat) : Nat → Nat → Int → Option Int
  | 0, _, left => some left
  | n + 1, len, left =>
    let left := 2 * left - count.get len
    if left < 0 then none else spaceLeft count n (len + 1) left

/-- The lengths pass R462. -/
def lensValid (ty : CodeType) (count : Ram 4 Nat) (max : Nat) : Bool :=
  match spaceLeft count maxBits 1 1 with
  | none => false
  | some left => decide (¬ (0 < left ∧ (ty = .codes ∨ max ≠ 1)))

/-! ### Building (R463 to R469) -/

/-- `work` with each symbol's length: the used symbols by length, then by value (R463, R465). -/
def workList (lens : List Nat) : List (Nat × Nat) :=
  (List.range' 1 maxBits).flatMap fun l =>
    lens.zipIdx.filterMap fun (len, sym) => if len = l then some (sym, l) else none

/-- The variables of R466's loop. -/
structure Fill where
  dst : Ram 11 Entry
  count : Ram 4 Nat
  huff : Nat
  next : Nat
  curr : Nat
  drop : Nat
  low : Option Nat
  used : Nat

/-- Put `here` at `at_`, `at_ + incr`, ..., `n` times, the last first (R466). -/
def replicateEntry (here : Entry) (at_ incr : Nat) : Nat → Ram 11 Entry → Ram 11 Entry
  | 0, dst => dst
  | n + 1, dst => replicateEntry here at_ incr n (dst.set (at_ + n * incr) here)

/-- The next code of length `len`, bit-reversed (R466). -/
def nextHuff (huff : Nat) : Nat → Nat
  | 0 => 0
  | l + 1 => if huff.testBit l then nextHuff huff l else huff % 2 ^ l + 2 ^ l

/-- The index width of a new sub-table (R466, R468). -/
def subWidth (count : Ram 4 Nat) (drop max : Nat) : Nat → Nat → Int → Nat
  | 0, curr, _ => curr
  | fuel + 1, curr, left =>
    if curr + drop < max then
      let left := left - count.get (curr + drop)
      if left ≤ 0 then curr else subWidth count drop max fuel (curr + 1) (2 * left)
    else curr

/-- More entries than the type may have (R466, R470). -/
def tooBig (ty : CodeType) (used : Nat) : Bool :=
  decide ((ty = .lens ∧ enoughLens < used) ∨ (ty = .dists ∧ enoughDists < used))

/-- Place one symbol and move to the next code (R466). -/
def placeSym (ty : CodeType) (sym len : Nat) (f : Fill) : Fill :=
  let w := len - f.drop
  { f with dst := replicateEntry (symEntry ty sym w) (f.next + f.huff / 2 ^ f.drop) (2 ^ w) (2 ^ (f.curr - w)) f.dst
           huff := nextHuff f.huff len
           count := f.count.set len (f.count.get len - 1) }

/-- Start a sub-table for codes of length `len` (R466, R468), none when the table does not fit. -/
def startSub (ty : CodeType) (start root max len : Nat) (f : Fill) : Option Fill :=
  let drop := root
  let next := f.next + 2 ^ f.curr
  let curr := subWidth f.count drop max max (len - drop) (2 ^ (len - drop))
  let used := f.used + 2 ^ curr
  if tooBig ty used then none
  else
    let low := f.huff % 2 ^ root
    some { f with drop := drop, next := next, curr := curr, used := used, low := some low
                  dst := f.dst.set (start + low) (mkEntry curr root (next - start)) }

/-- R466's loop over `work`; none when the table does not fit. -/
def fillTable (ty : CodeType) (start root max : Nat) : List (Nat × Nat) → Fill → Option Fill
  | [], f => some f
  | (sym, len) :: rest, f =>
    let f := placeSym ty sym len f
    match rest with
    | [] => some f
    | (_, len') :: _ =>
      if root < len' ∧ some (f.huff % 2 ^ root) ≠ f.low then
        match startSub ty start root max len' f with
        | none => none
        | some f => fillTable ty start root max rest f
      else fillTable ty start root max rest f

/-- What INFLATE_TABLE answers (R460), with the table array after it. -/
structure TableResult where
  status : Int
  used : Nat
  root : Nat
  dst : Ram 11 Entry
  deriving DecidableEq, Repr

/-- INFLATE_TABLE (R460 to R469). -/
def inflateTable (ty : CodeType) (lens : List Nat) (dst : Ram 11 Entry) (start root : Nat) : TableResult :=
  let count := countLens lens
  let max := maxUsed count maxBits
  let root := min root max
  if max = 0 then
    { status := 0, used := 2, root := 1
      dst := (dst.set start (mkEntry 64 1 0)).set (start + 1) (mkEntry 64 1 0) }
  else
    let root := Nat.max root (minUsed count max max 1)
    if lensValid ty count max = false then { status := -1, used := 0, root := root, dst := dst }
    else if tooBig ty (2 ^ root) then { status := 1, used := 0, root := root, dst := dst }
    else
      let f : Fill := { dst := dst, count := count, huff := 0, next := start, curr := root, drop := 0, low := none,
                        used := 2 ^ root }
      match fillTable ty start root max (workList lens) f with
      | none => { status := 1, used := 0, root := root, dst := dst }
      | some f =>
        { status := 0, used := f.used, root := root
          dst := if f.huff ≠ 0 then f.dst.set (f.next + f.huff) (mkEntry 64 (max - f.drop) 0) else f.dst }

/-! ### The fixed tables (R480) -/

/-- The lengths FIXED_L and FIXED_D are built from (R480, R149). -/
def fixedLens : List Nat := List.replicate 144 8 ++ List.replicate 112 9 ++ List.replicate 24 7 ++ List.replicate 8 8
def fixedDlens : List Nat := List.replicate 32 5

/-- FIXED_L[i], in closed form: the symbol whose fixed code starts the bits of `i` (R149), with its ENTRY (R467). That
the builder gives these 512 entries is a lemma of Laws/Tables.lean (log entry 18). -/
def fixedEntryL (i : Nat) : Entry :=
  let code := biReverse i 9
  if 512 ≤ i then default
  else if code / 4 < 24 then symEntry .lens (256 + code / 4) 7
  else if code / 2 < 0xC0 then symEntry .lens (code / 2 - 0x30) 8
  else if code / 2 < 0xC8 then symEntry .lens (280 + (code / 2 - 0xC0)) 8
  else symEntry .lens (144 + (code - 0x190)) 9

/-- FIXED_D[i] (R480), in closed form. -/
def fixedEntryD (i : Nat) : Entry := if 32 ≤ i then default else symEntry .dists (biReverse i 5) 5

end Sys2Proof.Machine
end

