-- ==== Sys2Proof/Machine/BitReader.lean ====
section
/-! DEFINITION. bit_reader (spec 45, R430 to R439): the I-engine's local cursors and its input stage. -/

namespace Sys2Proof.Machine

/-- An I-engine at work inside one IPROC: what it can read and change (45 R430). The spec's local cursor `have` is
`avail` here. -/
structure IRun where
  params : Params
  regs : Regs
  i : IState
  mem : Memory
  /-- The flush value of the call. -/
  flush : Nat
  /-- Address of the next input byte. -/
  next : Word
  /-- Input bytes left. -/
  avail : Nat
  /-- Address of the next output byte. -/
  put : Word
  /-- Output bytes left. -/
  left : Nat
  /-- AVAIL_IN at the start of the call. -/
  inn : Nat
  /-- AVAIL_OUT at the start of the call, or `left` when CHECK was passed (47 R528). -/
  out : Nat
  deriving DecidableEq, Repr

/-- How a step of the state machine ends. -/
inductive Ctl where
  /-- The loop goes on with `mode`. -/
  | go
  /-- To EXIT with this `ret` (47 R503); SUSPEND is `leave .ok` (R438). -/
  | leave (ret : Status)
  /-- The NEED_DICT exit (47 R511): RESTORE, and no EXIT. -/
  | needDict
  /-- At once, past RESTORE and EXIT (47 R530). -/
  | abort (ret : Status)
  deriving DecidableEq, Repr

namespace IRun

/-- LOAD (R431), with `in` and `out` (47 R500). -/
def load (p : Params) (flush : Nat) (r : Regs) (i : IState) (m : Memory) : IRun :=
  { params := p, regs := r, i := i, mem := m, flush := flush, next := r.nextIn, avail := r.availIn.toNat, put := r.nextOut,
    left := r.availOut.toNat, inn := r.availIn.toNat, out := r.availOut.toNat }

/-- RESTORE (R431). -/
def restore (x : IRun) : IRun :=
  { x with regs := { x.regs with nextIn := x.next, availIn := BitVec.ofNat 32 x.avail, nextOut := x.put,
                                 availOut := BitVec.ofNat 32 x.left } }

/-- `mode <- m`. -/
def setMode (m : Mode) (x : IRun) : IRun := { x with i := { x.i with mode := m } }

/-- "BAD with MSG m" (47): `MSG <- m; mode <- BAD`. -/
def bad (m : Msg) (x : IRun) : IRun := { x with regs := { x.regs with msg := m }, i := { x.i with mode := .BAD } }

/-- No byte can be pulled. The input is out (R432's SUSPEND); or more than 24 bits are held, where R432 says that PULLBYTE
never runs: in a state where a loop asks for it all the same, the model suspends too, so that `hold` keeps every bit it has
and `bits` stays within 32 (10_state R73). DESIGN CHOICE, log entry 26. -/
def cannotPull (x : IRun) : Bool := decide (x.avail = 0 ∨ 24 < x.i.bits)

/-- PULLBYTE (R432) where a byte can be pulled: it fits above the bits held. -/
def pullByte (x : IRun) : IRun :=
  { x with avail := x.avail - 1
           i := { x.i with hold := x.i.hold + ((x.mem.read x.next).setWidth 32 <<< x.i.bits), bits := x.i.bits + 8 }
           next := x.next + 1 }

/-- NEEDBITS(n)'s loop (R433), `fuel` bytes at most: the run after, and whether n bits are there. -/
def fillBits (n : Nat) : Nat → IRun → Bool × IRun
  | 0, x => (decide (n ≤ x.i.bits), x)
  | fuel + 1, x =>
    if n ≤ x.i.bits then (true, x) else if x.cannotPull then (false, x) else fillBits n fuel x.pullByte

/-- NEEDBITS(n) for n in 1..32 (R433), then `k`; SUSPEND (R438) when no byte can be pulled. -/
def needBits (n : Nat) (x : IRun) (k : IRun → Ctl × IRun) : Ctl × IRun :=
  match fillBits n 4 x with
  | (true, x) => k x
  | (false, x) => (.leave .ok, x)

/-- BITS(n) (R434). -/
def bitsOf (n : Nat) (x : IRun) : Nat := x.i.hold.toNat % 2 ^ n

/-- DROPBITS(n) (R435). -/
def dropBits (n : Nat) (x : IRun) : IRun := { x with i := { x.i with hold := x.i.hold >>> n, bits := x.i.bits - n } }

/-- BYTEBITS (R436). -/
def byteBits (x : IRun) : IRun := x.dropBits (x.i.bits % 8)

/-- INITBITS (R437). -/
def initBits (x : IRun) : IRun := { x with i := { x.i with hold := 0, bits := 0 } }

end IRun

/-- `tbl[i]` of a view's table (10_state R75). -/
def IState.entry (s : IState) (t : Tbl) (i : Nat) : Entry :=
  match t with
  | .codes => s.codes.get i
  | .fixedL => fixedEntryL i
  | .fixedD => fixedEntryD i

namespace IRun

/-- The entry LOOKUP(view, n) sees with the bits held (R439). -/
def peek (view : View) (n : Nat) (x : IRun) : Entry := x.i.entry view.tbl (view.off + x.bitsOf n)

/-- LOOKUP's loop (R439) for a way `see` of finding the entry, whose code takes `extra` bits before the entry's own:
none when no byte can be pulled. Every pass but the last takes an input byte, which bounds them. -/
def lookupLoop (see : IRun → Entry) (extra : Nat) : Nat → IRun → Option Entry × IRun
  | 0, x => (none, x)
  | fuel + 1, x =>
    let here := see x
    if extra + here.bits.toNat ≤ x.i.bits then (some here, x)
    else if x.cannotPull then (none, x)
    else lookupLoop see extra fuel x.pullByte

/-- A lookup, then `k` with the entry; SUSPEND (R438) when no byte can be pulled. -/
def findEntry (see : IRun → Entry) (extra : Nat) (x : IRun) (k : Entry → IRun → Ctl × IRun) : Ctl × IRun :=
  match lookupLoop see extra (x.avail + 1) x with
  | (some here, x) => k here x
  | (none, x) => (.leave .ok, x)

/-- LOOKUP(view, n) (R439), then `k` with the entry. -/
def lookup (view : View) (n : Nat) (x : IRun) (k : Entry → IRun → Ctl × IRun) : Ctl × IRun :=
  findEntry (peek view n) 0 x k

/-- The sub-table entry a link leads to, with the bits held (47 R520, R522). -/
def peekLink (view : View) (link : Entry) (x : IRun) : Entry :=
  x.i.entry view.tbl (view.off + link.val.toNat
    + x.bitsOf (link.bits.toNat + link.op.toNat) / 2 ^ link.bits.toNat)

/-- Bits put in front of those held, the next of the stream first: how the model offers a lone wire element
(log entry 5). -/
def offerBits (n v : Nat) (x : IRun) : IRun :=
  { x with i := { x.i with hold := BitVec.ofNat 32 v ||| (x.i.hold <<< n), bits := x.i.bits + n } }

end IRun

end Sys2Proof.Machine
end

