-- ==== Sys2Proof/Machine/InflateWindow.lean ====
section
/-! DEFINITION. inflate_window (spec 48, R580 to R590). -/

namespace Sys2Proof.Machine

/-- 2^wbits, taken as at most 2^15 (R589; log entry 10). -/
def windowSizeOf (wbits : Nat) : Nat := 2 ^ min wbits 15

/-- The window's creation (R581), when there is none. -/
def openWindow (i : IState) : IState :=
  if i.wsize = 0 then { i with wsize := windowSizeOf i.wbits, wnext := 0, whave := 0 } else i

/-- UPDATEWINDOW (R581): append to the history the `copy` bytes that end just before host address `stop`. -/
def updateWindow (m : Memory) (stop : Word) (copy : Nat) (i : IState) : IState :=
  let i := openWindow i
  let bytes (n : Nat) : List Byte := m.readN (stop - BitVec.ofNat 32 n) n
  if i.wsize ≤ copy then
    { i with window := i.window.setList 0 (bytes i.wsize), wnext := 0, whave := i.wsize }
  else
    let dist := min (i.wsize - i.wnext) copy
    let data := bytes copy
    let i := { i with window := i.window.setList i.wnext (data.take dist) }
    if copy - dist ≠ 0 then
      { i with window := i.window.setList 0 (data.drop dist), wnext := copy - dist, whave := i.wsize }
    else
      { i with wnext := if i.wnext + dist = i.wsize then 0 else i.wnext + dist
               whave := if i.whave < i.wsize then i.whave + dist else i.whave }

/-- `n` bytes from host address `src` to host address `dst`, one at a time in increasing order (20 R106). -/
def copyBytes (m : Memory) (dst src : Word) : Nat → Memory
  | 0 => m
  | n + 1 => copyBytes (m.write dst (m.read src)) (dst + 1) (src + 1) n

namespace IRun

/-- The cursors after `n` bytes of a match have been written. -/
def advanceMatch (n : Nat) (x : IRun) : IRun :=
  { x with left := x.left - n, put := x.put + BitVec.ofNat 32 n, i := { x.i with length := x.i.length - n } }

/-- A match's source in the window at index `src`, at most `most` bytes of it (R587). -/
def copyWindow (src most : Nat) (x : IRun) : IRun :=
  let n := min (min most x.i.length) x.left
  { x with mem := x.mem.writeN x.put (x.i.window.slice src n) }.advanceMatch n

/-- A match's source in this call's output (R587). -/
def copyOutput (x : IRun) : IRun :=
  let n := min x.i.length x.left
  { x with mem := copyBytes x.mem x.put (x.put - BitVec.ofNat 32 x.i.offset) n }.advanceMatch n

/-- LENIENT_FILL (R588), `copy` being the distance back into the history. -/
def lenientFill (copy : Nat) (x : IRun) : IRun :=
  let n := min (min (copy - x.i.whave) x.i.length) x.left
  let x := { x with mem := x.mem.writeN x.put (List.replicate n 0) }.advanceMatch n
  if x.i.length = 0 then x.setMode .LEN else x

/-- MATCH_COPY (R587). -/
def matchCopy (x : IRun) : IRun :=
  let written := x.out - x.left
  if written < x.i.offset then
    let copy := x.i.offset - written
    if x.i.whave < copy then
      if x.i.sane then x.bad .distanceTooFar else x.lenientFill copy
    else if x.i.wnext < copy then x.copyWindow (x.i.wsize - (copy - x.i.wnext)) (copy - x.i.wnext)
    else x.copyWindow (x.i.wnext - copy) copy
  else x.copyOutput

end IRun

end Sys2Proof.Machine
end

