-- ==== Sys2Proof/Machine/Inflate.lean ====
section
/-! DEFINITION. inflate_block_state_machine: the step of every mode, and IPROC (spec 47, R500 to R533). -/

namespace Sys2Proof.Machine

/-- BYTESWAP32 (R511). -/
def byteSwap (x : BitVec 32) : BitVec 32 :=
  (x.setWidth 8 ++ (x >>> 8).setWidth 8 ++ (x >>> 16).setWidth 8 ++ (x >>> 24).setWidth 8 : BitVec 32)

namespace IRun

/-- `wrap & 4`: the trailer is checked (10_state R71). -/
def checked (x : IRun) : Bool := x.i.wrap.getLsbD 2

/-! ### Stream header (R510, R511) -/

/-- HEAD's fields once 16 bits are held (R510). -/
def readHeader (x : IRun) : IRun :=
  if x.i.wrap.getLsbD 0 = false ∨ (x.bitsOf 8 * 2 ^ 8 + x.i.hold.toNat / 2 ^ 8) % 31 ≠ 0 then x.bad .headerCheck
  else if x.bitsOf 4 ≠ 8 then x.bad .unknownMethod
  else
    let x := x.dropBits 4
    let len := x.bitsOf 4 + 8
    let x := if x.i.wbits = 0 then { x with i := { x.i with wbits := len } } else x
    if 15 < len ∨ x.i.wbits < len then x.bad .windowSize
    else
      initBits
        { x with
          i := { x.i with dmax := 2 ^ len, flags := 0, check := 1
                          mode := if x.i.hold.getLsbD 9 then .DICTID else .TYPE }
          regs := { x.regs with adler := 1 } }

/-- HEAD (R510). -/
def headStep (x : IRun) : Ctl × IRun :=
  if x.i.wrap = 0 then (.go, x.setMode .TYPEDO) else x.needBits 16 fun x => (.go, x.readHeader)

/-- DICTID (R511). -/
def dictIdStep (x : IRun) : Ctl × IRun :=
  x.needBits 32 fun x =>
    let id := byteSwap x.i.hold
    (.go, initBits { x with i := { x.i with check := id, mode := .DICT }, regs := { x.regs with adler := id } })

/-- DICT (R511). -/
def dictStep (x : IRun) : Ctl × IRun :=
  if x.i.havedict = false then (.needDict, x)
  else (.go, { x with i := { x.i with check := 1, mode := .TYPE }, regs := { x.regs with adler := 1 } })

/-! ### Blocks (R512 to R514) -/

/-- TYPE (R512). -/
def typeStep (x : IRun) : Ctl × IRun :=
  if x.flush = zBlock ∨ x.flush = zTrees then (.leave .ok, x) else (.go, x.setMode .TYPEDO)

/-- TYPEDO's dispatch once BFINAL has been dropped (R512). -/
def blockType (x : IRun) : Ctl × IRun :=
  match x.bitsOf 2 with
  | 0 => (.go, (x.setMode .STORED).dropBits 2)
  | 1 =>
    let x := { x with i := { x.i with lencode := { tbl := .fixedL, off := 0 }, lenbits := 9
                                      distcode := { tbl := .fixedD, off := 0 }, distbits := 5, mode := .LEN_ } }
    (if x.flush = zTrees then .leave .ok else .go, x.dropBits 2)
  | 2 => (.go, (x.setMode .TABLE).dropBits 2)
  | _ => (.go, (x.bad .blockType).dropBits 2)

/-- TYPEDO (R512). -/
def typeDoStep (x : IRun) : Ctl × IRun :=
  if x.i.last then (.go, x.byteBits.setMode .CHECK)
  else
    x.needBits 3 fun x =>
      blockType (dropBits 1 { x with i := { x.i with last := decide (x.bitsOf 1 = 1) } })

/-- STORED (R513). -/
def storedStep (x : IRun) : Ctl × IRun :=
  x.byteBits.needBits 32 fun x =>
    let len : BitVec 16 := x.i.hold.setWidth 16
    if len ≠ (x.i.hold >>> 16).setWidth 16 ^^^ 0xFFFF then (.go, x.bad .storedLengths)
    else
      (if x.flush = zTrees then .leave .ok else .go,
       initBits { x with i := { x.i with length := len.toNat, mode := .COPY_ } })

/-- COPY (R514). -/
def copyStep (x : IRun) : Ctl × IRun :=
  if x.i.length = 0 then (.go, x.setMode .TYPE)
  else
    let n := min (min x.i.length x.avail) x.left
    if n = 0 then (.leave .ok, x)
    else
      (.go,
       { x with mem := copyBytes x.mem x.put x.next n
                avail := x.avail - n, next := x.next + BitVec.ofNat 32 n
                left := x.left - n, put := x.put + BitVec.ofNat 32 n
                i := { x.i with length := x.i.length - n } })

/-! ### Dynamic block header (R515, R516) -/

/-- TABLE (R515). -/
def tableStep (x : IRun) : Ctl × IRun :=
  x.needBits 14 fun x =>
    let x := dropBits 5 { x with i := { x.i with nlen := x.bitsOf 5 + 257 } }
    let x := dropBits 5 { x with i := { x.i with ndist := x.bitsOf 5 + 1 } }
    let x := dropBits 4 { x with i := { x.i with ncode := x.bitsOf 4 + 4 } }
    if 286 < x.i.nlen ∨ 30 < x.i.ndist then (.go, x.bad .tooManySymbols)
    else (.go, { x with i := { x.i with haveCnt := 0, mode := .LENLENS } })

/-- `lens[bl_order[have]] <- len; have <- have + 1` (R515). -/
def putBlLen (len : Nat) (x : IRun) : IRun :=
  { x with i := { x.i with lens := x.i.lens.set (tableAt blOrder x.i.haveCnt) len, haveCnt := x.i.haveCnt + 1 } }

/-- The end of LENLENS (R515): build the code-length table. -/
def buildBlTable (x : IRun) : IRun :=
  let r := inflateTable .codes (x.i.lens.slice 0 19) x.i.codes 0 7
  let x := { x with i := { x.i with lencode := { tbl := .codes, off := 0 }, codes := r.dst, lenbits := r.root } }
  if r.status ≠ 0 then x.bad .codeLengthsSet
  else { x with i := { x.i with haveCnt := 0, mode := .CODELENS } }

/-- LENLENS (R515), one length a step (log entry 12). -/
def lenLensStep (x : IRun) : Ctl × IRun :=
  if x.i.haveCnt < x.i.ncode then
    x.needBits 3 fun x => (.go, (x.putBlLen (x.bitsOf 3)).dropBits 3)
  else if x.i.haveCnt < 19 then (.go, x.putBlLen 0)
  else (.go, x.buildBlTable)

/-- `copy` times `lens[have] <- len; have <- have + 1`, unless that goes past nlen + ndist (R516). -/
def repeatLen (len copy : Nat) (x : IRun) : IRun :=
  if x.i.nlen + x.i.ndist < x.i.haveCnt + copy then x.bad .bitLengthRepeat
  else
    { x with i := { x.i with lens := x.i.lens.setList x.i.haveCnt (List.replicate copy len)
                             haveCnt := x.i.haveCnt + copy } }

/-- A code-length symbol (R516), `here` being the entry found. -/
def clEntry (here : Entry) (x : IRun) : Ctl × IRun :=
  let b := here.bits.toNat
  if here.val.toNat < 16 then
    let x := x.dropBits b
    (.go, { x with i := { x.i with lens := x.i.lens.set x.i.haveCnt here.val.toNat, haveCnt := x.i.haveCnt + 1 } })
  else if here.val = 16 then
    x.needBits (b + 2) fun x =>
      let x := x.dropBits b
      if x.i.haveCnt = 0 then (.go, x.bad .bitLengthRepeat)
      else (.go, (x.dropBits 2).repeatLen (x.i.lens.get (x.i.haveCnt - 1)) (3 + x.bitsOf 2))
  else if here.val = 17 then
    x.needBits (b + 3) fun x =>
      let x := x.dropBits b
      (.go, (x.dropBits 3).repeatLen 0 (3 + x.bitsOf 3))
  else
    x.needBits (b + 7) fun x =>
      let x := x.dropBits b
      (.go, (x.dropBits 7).repeatLen 0 (11 + x.bitsOf 7))

/-- The end of CODELENS (R516): build the lit/len and the distance table. -/
def buildTables (x : IRun) : Ctl × IRun :=
  if x.i.lens.get 256 = 0 then (.go, x.bad .missingEndOfBlock)
  else
    let r := inflateTable .lens (x.i.lens.slice 0 x.i.nlen) x.i.codes 0 9
    let x := { x with i := { x.i with lencode := { tbl := .codes, off := 0 }, codes := r.dst, lenbits := r.root } }
    if r.status ≠ 0 then (.go, x.bad .literalLengthsSet)
    else
      let q := inflateTable .dists (x.i.lens.slice x.i.nlen x.i.ndist) x.i.codes r.used 6
      let x := { x with i := { x.i with distcode := { tbl := .codes, off := r.used }, codes := q.dst, distbits := q.root } }
      if q.status ≠ 0 then (.go, x.bad .distancesSet)
      else (if x.flush = zTrees then .leave .ok else .go, x.setMode .LEN_)

/-- CODELENS (R516), one symbol a step (log entry 12). -/
def codeLensStep (x : IRun) : Ctl × IRun :=
  if x.i.haveCnt < x.i.nlen + x.i.ndist then x.lookup x.i.lencode x.i.lenbits clEntry else x.buildTables

/-! ### Symbols (R520 to R525) -/

/-- The entry a lookup ends with, its bits dropped: `here` itself, or the sub-table entry when `isLink` (R520, R522). -/
def resolveLink (isLink : Bool) (view : View) (here : Entry) (x : IRun) (k : Entry → IRun → Ctl × IRun) : Ctl × IRun :=
  if isLink then
    findEntry (peekLink view here) here.bits.toNat x fun sub x =>
      k sub ((x.dropBits here.bits.toNat).dropBits sub.bits.toNat)
  else k here (x.dropBits here.bits.toNat)

/-- What a lit/len entry that is no link does (R520). -/
def lenAction (here : Entry) (x : IRun) : Ctl × IRun :=
  let x := { x with i := { x.i with length := here.val.toNat } }
  if here.op = 0 then (.go, x.setMode .LIT)
  else if here.op.getLsbD 5 then (.go, x.setMode .TYPE)
  else if here.op.getLsbD 6 then (.go, x.bad .literalLengthCode)
  else (.go, { x with i := { x.i with extra := here.op.toNat % 16, mode := .LENEXT } })

/-- LEN once the root entry is found (R520). -/
def lenEntry (here : Entry) (x : IRun) : Ctl × IRun :=
  x.resolveLink (decide (here.op ≠ 0 ∧ here.op &&& 0xF0 = 0)) x.i.lencode here lenAction

/-- LEN (R520). -/
def lenStep (x : IRun) : Ctl × IRun := x.lookup x.i.lencode x.i.lenbits lenEntry

/-- LENEXT (R521). -/
def lenExtStep (x : IRun) : Ctl × IRun :=
  let done (x : IRun) : Ctl × IRun := (.go, { x with i := { x.i with was := x.i.length, mode := .DIST } })
  if x.i.extra = 0 then done x
  else
    x.needBits x.i.extra fun x =>
      done (dropBits x.i.extra { x with i := { x.i with length := x.i.length + x.bitsOf x.i.extra } })

/-- What a distance entry that is no link does (R522). -/
def distAction (here : Entry) (x : IRun) : Ctl × IRun :=
  if here.op.getLsbD 6 then (.go, x.bad .distanceCode)
  else
    (.go, { x with i := { x.i with offset := here.val.toNat, extra := here.op.toNat % 16, mode := .DISTEXT } })

/-- DIST once the root entry is found (R522). -/
def distEntry (here : Entry) (x : IRun) : Ctl × IRun :=
  x.resolveLink (decide (here.op &&& 0xF0 = 0)) x.i.distcode here distAction

/-- DIST (R522). -/
def distStep (x : IRun) : Ctl × IRun := x.lookup x.i.distcode x.i.distbits distEntry

/-- DISTEXT (R523). -/
def distExtStep (x : IRun) : Ctl × IRun :=
  if x.i.extra = 0 then (.go, x.setMode .MATCH)
  else
    x.needBits x.i.extra fun x =>
      (.go, setMode .MATCH (dropBits x.i.extra { x with i := { x.i with offset := x.i.offset + x.bitsOf x.i.extra } }))

/-- MATCH (R524). -/
def matchStep (x : IRun) : Ctl × IRun :=
  if x.left = 0 then (.leave .ok, x)
  else
    let x := x.matchCopy
    (.go, if x.i.mode = .MATCH ∧ x.i.length = 0 then x.setMode .LEN else x)

/-- LIT (R525). With no room left the mode stays LIT, where R545's example has LEN (log entry 23). -/
def litStep (x : IRun) : Ctl × IRun :=
  if x.left = 0 then (.leave .ok, x)
  else
    (.go, setMode .LEN { x with mem := x.mem.write x.put (BitVec.ofNat 8 x.i.length), put := x.put + 1
                                left := x.left - 1 })

/-! ### End of stream (R528, R529) -/

/-- CHECK's account of the call's output so far (R528). -/
def checkOutput (x : IRun) : IRun :=
  let n := x.out - x.left
  let x := { x with regs := { x.regs with totalOut := addTotal x.params x.regs.totalOut n } }
  let x :=
    if x.checked ∧ n ≠ 0 then
      let sum := adler32 x.i.check (x.mem.readN (x.put - BitVec.ofNat 32 n) n)
      { x with i := { x.i with check := sum }, regs := { x.regs with adler := sum } }
    else x
  { x with out := x.left }

/-- CHECK (R528). -/
def checkStep (x : IRun) : Ctl × IRun :=
  if x.i.wrap = 0 then (.go, x.setMode .LENGTH)
  else
    x.needBits 32 fun x =>
      let x := x.checkOutput
      if x.checked ∧ byteSwap x.i.hold ≠ x.i.check then (.go, x.bad .dataCheck)
      else (.go, x.initBits.setMode .LENGTH)

/-! ### The state machine (R502) -/

/-- The step of `mode` (R502). -/
def iStep (x : IRun) : Ctl × IRun :=
  match x.i.mode with
  | .HEAD => x.headStep
  | .DICTID => x.dictIdStep
  | .DICT => x.dictStep
  | .TYPE => x.typeStep
  | .TYPEDO => x.typeDoStep
  | .STORED => x.storedStep
  | .COPY_ => (.go, x.setMode .COPY)
  | .COPY => x.copyStep
  | .TABLE => x.tableStep
  | .LENLENS => x.lenLensStep
  | .CODELENS => x.codeLensStep
  | .LEN_ => (.go, x.setMode .LEN)
  | .LEN => x.lenStep
  | .LENEXT => x.lenExtStep
  | .DIST => x.distStep
  | .DISTEXT => x.distExtStep
  | .MATCH => x.matchStep
  | .LIT => x.litStep
  | .CHECK => x.checkStep
  | .LENGTH => (.go, x.setMode .DONE)
  | .DONE => (.leave .streamEnd, x)
  | .BAD => (.leave .dataError, x)
  | .MEM => (.abort .memError, x)
  | .SYNC | .FLAGS | .TIME | .OS | .EXLEN | .EXTRA | .NAME | .COMMENT | .HCRC => (.abort .streamError, x)

/-- IPROC's loop (R500); `fuel` bounds the steps (log entry 8). -/
def iLoop : Nat → IRun → Ctl × IRun
  | 0, x => (.leave .ok, x)
  | fuel + 1, x =>
    match x.iStep with
    | (.go, x) => iLoop fuel x
    | (.leave ret, x) => (.leave ret, x)
    | (.needDict, x) => (.needDict, x)
    | (.abort ret, x) => (.abort ret, x)

/-- A bound on the steps of one call (log entry 8): 8 for every input bit there is and every output byte there is room
for, 64 for what needs neither. -/
def stepBound (x : IRun) : Nat := 8 * (x.i.bits + 8 * x.avail + x.left) + 64

/-! ### The exits (R503, R511, R530) -/

/-- EXIT's window update (R503). -/
def exitWindow (x : IRun) : IRun :=
  if x.i.wsize ≠ 0 ∨ (x.out ≠ x.left ∧ x.i.mode.num < Mode.BAD.num ∧ (x.i.mode.num < Mode.CHECK.num ∨ x.flush ≠ zFinish))
  then { x with i := updateWindow x.mem x.put (x.out - x.left) x.i }
  else x

/-- EXIT's counts and check value (R503). -/
def exitCounts (x : IRun) : IRun :=
  let inUsed := x.inn - x.avail
  let outUsed := x.out - x.left
  let x := { x with regs := { x.regs with totalIn := addTotal x.params x.regs.totalIn inUsed
                                          totalOut := addTotal x.params x.regs.totalOut outUsed } }
  if x.checked ∧ outUsed ≠ 0 then
    let sum := adler32 x.i.check (x.mem.readN (x.put - BitVec.ofNat 32 outUsed) outUsed)
    { x with i := { x.i with check := sum }, regs := { x.regs with adler := sum } }
  else x

/-- EXIT (R503): the status returned, and the run after. -/
def leaveCall (ret : Status) (x : IRun) : Status × IRun :=
  let inUsed := x.inn - x.avail
  let outUsed := x.out - x.left
  let x := x.restore.exitWindow.exitCounts
  (if ((inUsed = 0 ∧ outUsed = 0) ∨ x.flush = zFinish) ∧ ret = .ok then .bufError else ret,
   { x with regs := { x.regs with dataType := x.i.dataTypeWord } })

/-- How a call ends (R503, R511, R530). -/
def finishCall (r : Regs) : Ctl × IRun → Status × IRun
  | (.go, x) => leaveCall .ok x
  | (.leave ret, x) => leaveCall ret x
  | (.needDict, x) => (.needDict, x.restore)
  | (.abort ret, x) => (ret, { x with regs := r })

end IRun

/-- IPROC (R500) after its entry checks. -/
def inflateCall (p : Params) (flush : Nat) (r : Regs) (i : IState) (m : Memory) : Status × IRun :=
  let i := if i.mode = .TYPE then { i with mode := .TYPEDO } else i
  let x := IRun.load p flush r i m
  IRun.finishCall r (x.iLoop x.stepBound)

end Sys2Proof.Machine
end

