-- ==== Sys2Proof/Machine/InflateCmd.lean ====
section
/-! DEFINITION. The eight I-engine commands (spec 47, R500, R540 to R547). -/

namespace Sys2Proof.Machine

/-! ### Starting and restarting (R540, R541) -/

/-- IRESET_BODY (R541) on the private state. -/
def resetInflate (i : IState) : IState :=
  { i with wsize := 0, whave := 0, wnext := 0
           mode := .HEAD, last := false, havedict := false, flags := -1, dmax := 32768
           hold := 0, bits := 0
           lencode := { tbl := .codes, off := 0 }, distcode := { tbl := .codes, off := 0 }
           sane := true
           length := 0, offset := 0, extra := 0, was := 0, check := 0 }

/-- IRESET_BODY (R541) on the stream registers. -/
def resetInflateRegs (wrap : BitVec 3) (r : Regs) : Regs :=
  { r with totalIn := 0, totalOut := 0, msg := .none
           adler := if wrap ≠ 0 then (wrap &&& 1).setWidth 32 else r.adler }

/-- The private state IINIT builds (R540), every other field 0 (70 R671). -/
def initInflate (wrap : BitVec 3) (wbits : Nat) : IState :=
  resetInflate
    { mode := .HEAD, wrap := wrap, wbits := wbits, flags := 0, havedict := false, last := false, check := 0, dmax := 0
      hold := 0, bits := 0
      window := Ram.zero, wsize := 0, whave := 0, wnext := 0
      codes := Ram.zero, lencode := { tbl := .codes, off := 0 }, distcode := { tbl := .codes, off := 0 }
      lenbits := 0, distbits := 0
      nlen := 0, ndist := 0, ncode := 0, haveCnt := 0, lens := Ram.zero
      length := 0, offset := 0, extra := 0, was := 0, sane := false }

/-! ### Preset dictionary (R542) -/

/-- ISETDICT (R542): the status, and the private state after. -/
def setDictionary (addr n : Word) (m : Memory) (i : IState) : Status × IState :=
  if i.wrap ≠ 0 ∧ i.mode ≠ .DICT then (.streamError, i)
  else if i.mode = .DICT ∧ adler32 1 (m.readN addr n.toNat) ≠ i.check then (.dataError, i)
  else (.ok, { updateWindow m (addr + n) n.toNat i with havedict := true })

/-! ### Resynchronisation (R543, R544) -/

/-- SYNCSEARCH (R544) from `got` marker bytes, `examined` bytes already looked at: got, and the bytes examined. -/
def syncSearch : List Byte → Nat → Nat → Nat × Nat
  | [], got, examined => (got, examined)
  | b :: bs, got, examined =>
    if got < 4 then
      let got' := if b = (if got < 2 then 0x00 else 0xFF) then got + 1 else if b ≠ 0x00 then 0 else 4 - got
      syncSearch bs got' (examined + 1)
    else (got, examined)

/-- The whole bytes held in `hold`, the next of the stream first (R543). -/
def heldBytes (hold : BitVec 32) : Nat → List Byte
  | 0 => []
  | n + 1 => hold.setWidth 8 :: heldBytes (hold >>> 8) n

/-- The first ISYNC on a stream (R543, decision D23): enter SYNC, and search the whole bytes held in `hold`. It leaves every
mode, DONE too: R543 says so, and 60 R620 gives a command the effects of its pseudocode, where R505 has DONE left by IRESET or
IINIT alone (DEDUCED; log entry 22). -/
def enterSync (i : IState) : IState :=
  if i.mode = .SYNC then i
  else
    let bytes := heldBytes (i.hold >>> (i.bits % 8)) (i.bits / 8)
    { i with mode := .SYNC, hold := i.hold >>> (i.bits % 8 + 8 * (i.bits / 8)), bits := 0
             haveCnt := (syncSearch bytes 0 0).1 }

/-- The restart once the marker has been found (R543). -/
def syncRestart (r : Regs) (i : IState) : Regs × IState :=
  let wrap := if i.flags = -1 then 0 else i.wrap &&& 3
  ({ resetInflateRegs wrap r with totalIn := r.totalIn, totalOut := r.totalOut },
   { resetInflate { i with wrap := wrap } with flags := i.flags, mode := .TYPE })

/-- ISYNC (R543): the status, and what it leaves. -/
def syncCall (p : Params) (r : Regs) (i : IState) (m : Memory) : Status × Regs × IState :=
  if r.availIn = 0 ∧ i.bits < 8 then (.bufError, r, i)
  else
    let i := enterSync i
    let (got, n) := syncSearch (m.readN r.nextIn r.availIn.toNat) i.haveCnt 0
    let i := { i with haveCnt := got }
    let r := r.consume p n
    if got ≠ 4 then (.dataError, r, i) else (.ok, syncRestart r i)

/-! ### The commands -/

/-- IINIT (R540). It does not check KIND. -/
def execIinit (k _b : BitVec 8) (s : State) : Host.Outcome State Fault Refusal :=
  onContext k s fun s =>
    match iWindowOperand s.arg0 with
    | none => s.setResult .streamError
    | some (wrap, wbits) =>
      s.finish k.toNat
        { status := .ok
          regs := resetInflateRegs wrap { (s.ctx k.toNat).regs with dataType := 0, adler := 0 }
          slot := .inflate (initInflate wrap wbits), mem := s.mem }

/-- IPROC (R500), with its entry checks (R501). -/
def execIproc (k b : BitVec 8) (s : State) : Host.Outcome State Fault Refusal :=
  onInflate k s fun r i =>
    if zTrees < byteOperand b ∨ r.nextOut = 0 ∨ (r.nextIn = 0 ∧ r.availIn ≠ 0) then
      { status := .streamError, regs := r, slot := .inflate i, mem := s.mem }
    else
      let (st, x) := inflateCall s.params (byteOperand b) r i s.mem
      { status := st, regs := x.regs, slot := .inflate x.i, mem := x.mem }

/-- ISETDICT (R542). -/
def execIsetdict (k _b : BitVec 8) (s : State) : Host.Outcome State Fault Refusal :=
  onInflate k s fun r i =>
    let (st, i) := setDictionary s.arg0 s.arg1 s.mem i
    { status := st, regs := r, slot := .inflate i, mem := s.mem }

/-- IRESET (R541). -/
def execIreset (k _b : BitVec 8) (s : State) : Host.Outcome State Fault Refusal :=
  onInflate k s fun r i =>
    { status := .ok, regs := resetInflateRegs i.wrap r, slot := .inflate (resetInflate i), mem := s.mem }

/-- ISYNC (R543). -/
def execIsync (k _b : BitVec 8) (s : State) : Host.Outcome State Fault Refusal :=
  onInflate k s fun r i =>
    let (st, r, i) := syncCall s.params r i s.mem
    { status := st, regs := r, slot := .inflate i, mem := s.mem }

/-- ICOPY (R545): `b` is the destination context. -/
def execIcopy (k b : BitVec 8) (s : State) : Host.Outcome State Fault Refusal :=
  onContext k s fun s =>
    match (s.ctx k.toNat).slot with
    | .inflate _ =>
      if s.params.nctx ≤ byteOperand b then s.setResult .streamError
      else (s.setCtx (byteOperand b) (s.ctx k.toNat)).setResult .ok
    | .free => s.setResult .streamError
    | .deflate _ => s.setResult .streamError

/-- IUNDERMINE (R546). -/
def execIundermine (k b : BitVec 8) (s : State) : Host.Outcome State Fault Refusal :=
  onInflate k s fun r i =>
    if s.params.allowTooFar then
      { status := .ok, regs := r, slot := .inflate { i with sane := !boolOperand b }, mem := s.mem }
    else { status := .dataError, regs := r, slot := .inflate { i with sane := true }, mem := s.mem }

/-- IEND (R547). -/
def execIend (k _b : BitVec 8) (s : State) : Host.Outcome State Fault Refusal :=
  onInflate k s fun r _ => { status := .ok, regs := r, slot := .free, mem := s.mem }

end Sys2Proof.Machine
end

