-- ==== Sys2Proof/Machine/Wire.lean ====
section
/-! DEFINITION. The rows of the opcode table that are no commands: the elements of the wire format and the classes of a
decode-table entry (spec 30 parts 2 and 3; 47 R510 to R528). Each acts on the I-engine of context `cur` as the same
element does when IPROC meets it; bits that the row does not expect are read as the mode reads them (log entry 5). -/

namespace Sys2Proof.Machine

/-! ### Where an element can stand -/

/-- The I-engine is about to decode a lit/len symbol (47 R502, R520). -/
def IState.readsLen (i : IState) : Bool := decide (i.mode = .LEN ∨ i.mode = .LEN_)

/-- It is about to decode a distance symbol (R522). -/
def IState.readsDist (i : IState) : Bool := decide (i.mode = .DIST)

/-- It is about to decode a code-length symbol (R516). -/
def IState.readsCl (i : IState) : Bool := decide (i.mode = .CODELENS ∧ i.haveCnt < i.nlen + i.ndist)

/-- It is about to read a block header (R512). -/
def IState.readsBlock (i : IState) : Bool := decide ((i.mode = .TYPE ∨ i.mode = .TYPEDO) ∧ i.last = false)

/-- The accumulator has room for `n` more bits (10_state R73). -/
def IState.room (i : IState) (n : Nat) : Bool := decide (i.bits + n ≤ 32)

/-- It decodes lit/len symbols with FIXED_L (R512). -/
def IState.usesFixedL (i : IState) : Bool := decide (i.lencode = { tbl := .fixedL, off := 0 } ∧ i.lenbits = 9)

/-- It decodes distance symbols with FIXED_D (R512). -/
def IState.usesFixedD (i : IState) : Bool := decide (i.distcode = { tbl := .fixedD, off := 0 } ∧ i.distbits = 5)

/-- The bits held are enough for an entry of `n` code bits, so that LOOKUP hands it on (45 R439). -/
def IState.holds (i : IState) (n : BitVec 8) : Bool := decide (n.toNat ≤ i.bits)

/-- It is about to read a zlib header (R510). -/
def IState.readsHeader (i : IState) : Bool := decide (i.mode = .HEAD ∧ i.wrap ≠ 0) && i.room 16

/-- A lookup can end with an entry of `n` code bits. -/
def IState.readsEntry (i : IState) (n : BitVec 8) : Bool :=
  (i.readsLen || i.readsDist || i.readsCl) && i.holds n

/-- A fixed lit/len code of `n` bits can come next. -/
def IState.readsFixedLen (i : IState) (n : Nat) : Bool := i.readsLen && i.usesFixedL && i.room n

/-- A fixed distance code can come next. -/
def IState.readsFixedDist (i : IState) : Bool := i.readsDist && i.usesFixedD && i.room 5

/-- The I-engine reads the element here as its row has it. A command is no element. -/
def inPlace (e : Instr) (i : IState) : Bool :=
  match e with
  | .dinit _ _ | .dproc _ _ | .dsetdict _ _ | .dreset _ _ | .dparams _ _ | .dend _ _ => false
  | .iinit _ _ | .iproc _ _ | .isetdict _ _ | .ireset _ _ | .isync _ _ | .icopy _ _ => false
  | .iundermine _ _ | .iend _ _ => false
  | .blkStored _ | .blkFixed _ | .blkDynamic _ | .blkReserved _ => i.readsBlock && i.room 3
  | .zlibHdr _ _ _ _ => i.readsHeader
  | .zlibDictid _ => decide (i.mode = .DICTID) && i.room 32
  | .storedLen _ _ => decide (i.mode = .STORED ∧ i.bits < 8)
  | .zlibTrailer _ => decide (i.mode = .CHECK ∧ i.wrap ≠ 0) && i.room 32
  | .fixEob | .fixLen257to263 _ | .fixLen264to271 _ | .fixLen272to279 _ => i.readsFixedLen 7
  | .fixLit0to15 _ | .fixLit16to79 _ | .fixLit80to143 _ | .fixLen280to285 _ | .fixInvalid286to287 _ =>
      i.readsFixedLen 8
  | .fixLit144to159 _ | .fixLit160to191 _ | .fixLit192to255 _ => i.readsFixedLen 9
  | .fixDist0to15 _ | .fixDist16to29 _ | .fixDistInvalid _ => i.readsFixedDist
  | .symLiteral _ | .symEob | .symLength _ | .symLlInvalid _ => i.readsLen
  | .symDist _ | .symDistInvalid _ => i.readsDist
  | .clLength _ => i.readsCl
  | .clRepeatPrev _ => i.readsCl && i.room 2
  | .clZerosShort _ => i.readsCl && i.room 3
  | .clZerosLong _ => i.readsCl && i.room 7
  | .entLiteral bits _ | .entLink _ bits _ | .entBase _ bits _ | .entEob bits _ | .entInvalid bits _ => i.readsEntry bits

/-! ### How an element acts -/

/-- Run `f` on the I-engine of context `cur` where it is as `reads` asks, between LOAD and RESTORE (45 R431) with the flush
value 0. No command ends, so RESULT, TOTAL_IN, TOTAL_OUT and DATA_TYPE stay. Without an I-engine (60 R624), and where `reads`
does not hold, Z_STREAM_ERROR and no other change, as R630 has it for ISETDICT in another mode (log entry 5). -/
def onPlace (reads : IState → Bool) (f : IRun → Ctl × IRun) (s : State) : Host.Outcome State Fault Refusal :=
  match (s.ctx s.cur).slot with
  | .inflate i =>
    if reads i then
      let x := (f (IRun.load s.params zNoFlush (s.ctx s.cur).regs i s.mem)).2.restore
      .next ({ s with mem := x.mem }.setCtx s.cur { regs := x.regs, slot := .inflate x.i })
    else .next (s.setResult .streamError)
  | .free => .next (s.setResult .streamError)
  | .deflate _ => .next (s.setResult .streamError)

/-- Where the next bits are read: IPROC turns TYPE into TYPEDO (47 R500), as HEAD does on a raw stream (R510); LEN_ goes on to
LEN (R502); and STORED drops the padding that is held (R513). -/
def IState.settle (i : IState) : IState :=
  if i.mode = .TYPE ∨ (i.mode = .HEAD ∧ i.wrap = 0) then { i with mode := .TYPEDO }
  else if i.mode = .LEN_ then { i with mode := .LEN }
  else if i.mode = .STORED then { i with hold := i.hold >>> (i.bits % 8), bits := i.bits - i.bits % 8 }
  else i

/-- The modes whose step reads bits (R510 to R516, R520 to R523, R528). -/
def bitModes : List Mode :=
  [.HEAD, .DICTID, .TYPE, .TYPEDO, .STORED, .TABLE, .LENLENS, .CODELENS, .LEN_, .LEN, .LENEXT, .DIST, .DISTEXT, .CHECK]

/-- `n` more bits leave no part of a byte in DICTID and CHECK, which read whole bytes (R511, R528): HEAD's INITBITS and TYPEDO's
BYTEBITS leave none (R510, R512), and beside one the last PULLBYTE would not fit (45 R432; log entries 5 and 26). -/
def IState.wholeBytes (i : IState) (n : Nat) : Bool :=
  decide (i.mode = .DICTID ∨ i.mode = .CHECK → (i.bits + n) % 8 = 0)

/-- The I-engine reads bits, and can be given `n` more. -/
def IState.readsBits (n : Nat) (i : IState) : Bool :=
  decide (i.mode ∈ bitModes) && i.settle.room n && i.wholeBytes n

/-- `n` bits of the stream, then the step of the mode (R502), which reads them as its own whatever element they are. -/
def IRun.takeBits (n v : Nat) (x : IRun) : Ctl × IRun := (offerBits n v { x with i := x.i.settle }).iStep

/-- An element that is `n` bits of the stream, the first of them lowest in `v`. -/
def onBits (n v : Nat) (s : State) : Host.Outcome State Fault Refusal :=
  onPlace (fun i => i.readsBits n) (fun x => x.takeBits n v) s

/-- A Huffman code of `n` bits, which is sent most significant bit first (30 R144). -/
def onCode (n code : Nat) (s : State) : Host.Outcome State Fault Refusal := onBits n (biReverse code n) s

/-- A decoded lit/len symbol (47 R520, 46 R467), its code already taken. -/
def IRun.takeLenSym (sym : Nat) (x : IRun) : Ctl × IRun := x.lenAction (symEntry .lens sym 0)

/-- A decoded distance symbol (47 R522, 46 R467), its code already taken. -/
def IRun.takeDistSym (sym : Nat) (x : IRun) : Ctl × IRun := x.distAction (symEntry .dists sym 0)

/-- A decoded code-length symbol with its `n` extra bits (47 R516), its code already taken. -/
def IRun.takeClSym (sym n extra : Nat) (x : IRun) : Ctl × IRun :=
  (x.offerBits n extra).clEntry (symEntry .codes sym 0)

/-- An entry that LOOKUP has found (45 R439): what the mode does with it (47 R516, R520, R522). -/
def IRun.takeEntry (op bits val : Nat) (x : IRun) : Ctl × IRun :=
  let here := mkEntry op bits val
  if x.i.readsDist then x.distEntry here
  else if x.i.readsCl then x.clEntry here
  else (x.setMode .LEN).lenEntry here

/-! ### The rows -/

/-- Block header, BTYPE 0 (30 R145, 47 R512). -/
def execBlkStored (bfinal : Bool) (s : State) : Host.Outcome State Fault Refusal :=
  onBits 3 bfinal.toNat s

/-- Block header, BTYPE 1. -/
def execBlkFixed (bfinal : Bool) (s : State) : Host.Outcome State Fault Refusal :=
  onBits 3 (2 + bfinal.toNat) s

/-- Block header, BTYPE 2. -/
def execBlkDynamic (bfinal : Bool) (s : State) : Host.Outcome State Fault Refusal :=
  onBits 3 (4 + bfinal.toNat) s

/-- Block header, BTYPE 3: MSG 6 (30 R158). -/
def execBlkReserved (bfinal : Bool) (s : State) : Host.Outcome State Fault Refusal :=
  onBits 3 (6 + bfinal.toNat) s

/-- The zlib header with CM = 8 (30 R141, 47 R510). -/
def execZlibHdr (cinfo : BitVec 4) (flevel : BitVec 2) (fdict : Bool) (fcheck : BitVec 5) (s : State) :
    Host.Outcome State Fault Refusal :=
  let cmf := cinfo.toNat * 2 ^ 4 + 8
  let flg := flevel.toNat * 2 ^ 6 + fdict.toNat * 2 ^ 5 + fcheck.toNat
  onBits 16 (cmf + flg * 2 ^ 8) s

/-- The DICTID, most significant byte first (30 R142), then the DICTID step (47 R511). -/
def execZlibDictid (id : Word) (s : State) : Host.Outcome State Fault Refusal :=
  onBits 32 (byteSwap id).toNat s

/-- LEN, then NLEN, each least significant byte first (30 R148), after the padding; then the STORED step (47 R513). -/
def execStoredLen (len nlen : BitVec 16) (s : State) : Host.Outcome State Fault Refusal :=
  onBits 32 (len.toNat + nlen.toNat * 2 ^ 16) s

/-- The trailer, most significant byte first (30 R143), then the CHECK step (47 R528). -/
def execZlibTrailer (adler : Word) (s : State) : Host.Outcome State Fault Refusal :=
  onBits 32 (byteSwap adler).toNat s

/-- Fixed code 0000000, end-of-block (30 R149). -/
def execFixEob (s : State) : Host.Outcome State Fault Refusal :=
  onCode 7 0 s

/-- Fixed codes 0000xxx, symbols 257..263 (30 R149). -/
def execFixLen257to263 (x : BitVec 3) (s : State) : Host.Outcome State Fault Refusal :=
  onCode 7 x.toNat s

/-- Fixed codes 0001xxx, symbols 264..271 (30 R149). -/
def execFixLen264to271 (x : BitVec 3) (s : State) : Host.Outcome State Fault Refusal :=
  onCode 7 (0x8 + x.toNat) s

/-- Fixed codes 0010xxx, symbols 272..279 (30 R149). -/
def execFixLen272to279 (x : BitVec 3) (s : State) : Host.Outcome State Fault Refusal :=
  onCode 7 (0x10 + x.toNat) s

/-- Fixed codes 0011xxxx, literals 0..15 (30 R149). -/
def execFixLit0to15 (x : BitVec 4) (s : State) : Host.Outcome State Fault Refusal :=
  onCode 8 (0x30 + x.toNat) s

/-- Fixed codes 01xxxxxx, literals 16..79 (30 R149). -/
def execFixLit16to79 (x : BitVec 6) (s : State) : Host.Outcome State Fault Refusal :=
  onCode 8 (0x40 + x.toNat) s

/-- Fixed codes 10xxxxxx, literals 80..143 (30 R149). -/
def execFixLit80to143 (x : BitVec 6) (s : State) : Host.Outcome State Fault Refusal :=
  onCode 8 (0x80 + x.toNat) s

/-- Fixed codes 11000xxx, symbols 280..285 (30 R149). -/
def execFixLen280to285 (x : BitVec 3) (s : State) : Host.Outcome State Fault Refusal :=
  onCode 8 (0xC0 + x.toNat) s

/-- Fixed codes 1100011x, the invalid symbols 286 and 287: MSG 14 (30 R158). -/
def execFixInvalid286to287 (x : BitVec 1) (s : State) : Host.Outcome State Fault Refusal :=
  onCode 8 (0xC6 + x.toNat) s

/-- Fixed codes 11001xxxx, literals 144..159 (30 R149). -/
def execFixLit144to159 (x : BitVec 4) (s : State) : Host.Outcome State Fault Refusal :=
  onCode 9 (0x190 + x.toNat) s

/-- Fixed codes 1101xxxxx, literals 160..191 (30 R149). -/
def execFixLit160to191 (x : BitVec 5) (s : State) : Host.Outcome State Fault Refusal :=
  onCode 9 (0x1A0 + x.toNat) s

/-- Fixed codes 111xxxxxx, literals 192..255 (30 R149). -/
def execFixLit192to255 (x : BitVec 6) (s : State) : Host.Outcome State Fault Refusal :=
  onCode 9 (0x1C0 + x.toNat) s

/-- Fixed distance codes 0xxxx, symbols 0..15 (30 R149). -/
def execFixDist0to15 (x : BitVec 4) (s : State) : Host.Outcome State Fault Refusal :=
  onCode 5 x.toNat s

/-- Fixed distance codes 1xxxx, symbols 16..29. -/
def execFixDist16to29 (x : BitVec 4) (s : State) : Host.Outcome State Fault Refusal :=
  onCode 5 (0x10 + x.toNat) s

/-- Fixed distance codes 1111x, the invalid symbols 30 and 31: MSG 15 (30 R158). -/
def execFixDistInvalid (x : BitVec 1) (s : State) : Host.Outcome State Fault Refusal :=
  onCode 5 (0x1E + x.toNat) s

/-- Lit/len symbol 0..255, a literal (30 R150). -/
def execSymLiteral (byte : BitVec 8) (s : State) : Host.Outcome State Fault Refusal :=
  onPlace IState.readsLen (fun r => r.takeLenSym byte.toNat) s

/-- Lit/len symbol 256, end-of-block. -/
def execSymEob (s : State) : Host.Outcome State Fault Refusal :=
  onPlace IState.readsLen (fun r => r.takeLenSym endBlock) s

/-- Lit/len symbols 257..285, a length. -/
def execSymLength (x : BitVec 8) (s : State) : Host.Outcome State Fault Refusal :=
  onPlace IState.readsLen (fun r => r.takeLenSym (256 + x.toNat)) s

/-- Lit/len symbols 286 and 287, invalid: MSG 14 (30 R158). -/
def execSymLlInvalid (x : BitVec 1) (s : State) : Host.Outcome State Fault Refusal :=
  onPlace IState.readsLen (fun r => r.takeLenSym (286 + x.toNat)) s

/-- Distance symbols 0..29 (30 R151). -/
def execSymDist (code : BitVec 5) (s : State) : Host.Outcome State Fault Refusal :=
  onPlace IState.readsDist (fun r => r.takeDistSym code.toNat) s

/-- Distance symbols 30 and 31, invalid: MSG 15 (30 R158). -/
def execSymDistInvalid (x : BitVec 1) (s : State) : Host.Outcome State Fault Refusal :=
  onPlace IState.readsDist (fun r => r.takeDistSym (30 + x.toNat)) s

/-- Code-length symbols 0..15: one length (30 R152). -/
def execClLength (len : BitVec 4) (s : State) : Host.Outcome State Fault Refusal :=
  onPlace IState.readsCl (fun r => r.takeClSym len.toNat 0 0) s

/-- Code-length symbol 16: the previous length 3..6 times. -/
def execClRepeatPrev (extra : BitVec 2) (s : State) : Host.Outcome State Fault Refusal :=
  onPlace (fun i => i.readsCl && i.room 2) (fun r => r.takeClSym 16 2 extra.toNat) s

/-- Code-length symbol 17: 3..10 zero lengths. -/
def execClZerosShort (extra : BitVec 3) (s : State) : Host.Outcome State Fault Refusal :=
  onPlace (fun i => i.readsCl && i.room 3) (fun r => r.takeClSym 17 3 extra.toNat) s

/-- Code-length symbol 18: 11..138 zero lengths. -/
def execClZerosLong (extra : BitVec 7) (s : State) : Host.Outcome State Fault Refusal :=
  onPlace (fun i => i.readsCl && i.room 7) (fun r => r.takeClSym 18 7 extra.toNat) s

/-- Decode-table entry, op 0 (30 R170). -/
def execEntLiteral (bits : BitVec 8) (val : BitVec 16) (s : State) : Host.Outcome State Fault Refusal :=
  onPlace (fun i => i.readsEntry bits) (fun r => r.takeEntry 0 bits.toNat val.toNat) s

/-- Decode-table entry, op 1..15: a sub-table link. -/
def execEntLink (t : BitVec 4) (bits : BitVec 8) (val : BitVec 16) (s : State) : Host.Outcome State Fault Refusal :=
  onPlace (fun i => i.readsEntry bits) (fun r => r.takeEntry t.toNat bits.toNat val.toNat) s

/-- Decode-table entry, op 16..31: a length or distance base. -/
def execEntBase (extra : BitVec 4) (bits : BitVec 8) (val : BitVec 16) (s : State) : Host.Outcome State Fault Refusal :=
  onPlace (fun i => i.readsEntry bits) (fun r => r.takeEntry (16 + extra.toNat) bits.toNat val.toNat) s

/-- Decode-table entry, op 96: end-of-block. -/
def execEntEob (bits : BitVec 8) (val : BitVec 16) (s : State) : Host.Outcome State Fault Refusal :=
  onPlace (fun i => i.readsEntry bits) (fun r => r.takeEntry 96 bits.toNat val.toNat) s

/-- Decode-table entry, op 64: invalid. -/
def execEntInvalid (bits : BitVec 8) (val : BitVec 16) (s : State) : Host.Outcome State Fault Refusal :=
  onPlace (fun i => i.readsEntry bits) (fun r => r.takeEntry 64 bits.toNat val.toNat) s

/-! ### Values that are no row of the table -/

/-- The bits of an offered value that are the element's: those its format has and, after a code-length symbol, the extra
bits the symbol takes (30 R152). The bits above are no part of it (log entry 5). -/
def ownBits (f : Format) (v : Nat) : Nat :=
  if f = .clSym then v % 2 ^ (5 + tableAt extraBlbits (v % 2 ^ 5)) else v % 2 ^ f.width

/-- The bits of a value of format `f` in the order of the stream, the first lowest (30 R141 to R145, R148, R149): CMF before
FLG, the Adler-32 fields most significant byte first, the codes most significant bit first. -/
def wireBits (f : Format) (w : Nat) : Nat :=
  match f with
  | .zlibHdr => w / 2 ^ 8 + w % 2 ^ 8 * 2 ^ 8
  | .dictid | .trailer => (byteSwap (BitVec.ofNat 32 w)).toNat
  | .fixedLL7 | .fixedLL8 | .fixedLL9 | .fixedDist => biReverse w f.width
  | .cmd | .storedLen | .blockHdr | .llSym | .distSym | .clSym | .entry => w

/-- An offered value `w` that the decoder rejects, `why` being its word for it. A header with CM ≠ 8, and the bits of a
shorter or longer fixed code, are bits of the stream like any other: HEAD answers MSG 3 or 4 (47 R510, 30 R158), LEN decodes
what it can and may leave bits over or suspend (R520). An entry is tested bit by bit, whatever its op byte (R516, R520,
R522). An illegal command word, and a symbol number outside its alphabet (30 R150, R152), end with Z_STREAM_ERROR and change
nothing else (R133; log entry 5). No value cut to its own bits is too wide or has stray extra bits (`ownBits_error`). -/
def offerStray (f : Format) (w : Nat) (why : Reject) (s : State) : Host.Outcome State Fault Refusal :=
  match why with
  | .wrongMethod | .noSuchCode => onBits f.width (wireBits f w) s
  | .unknownEntryOp =>
    let bits : BitVec 8 := bitField 8 8 w
    onPlace (fun i => i.readsEntry bits) (fun x => x.takeEntry (w % 2 ^ 8) bits.toNat (w / 2 ^ 16)) s
  | .reservedBits | .unknownOpcode | .noSuchSymbol | .tooWide | .strayExtra => .next (s.setResult .streamError)

/-! ### A place for an element -/

/-- A fresh zlib I-engine that is about to read `e`: what `withFetchWord` installs (log entry 5). No lookup finds an entry
of more than 32 code bits, since `hold` has no more (10_state R73; 45 R439). -/
def placeFor (e : Instr) : IState :=
  let i := initInflate 5 15
  let fixed (m : Mode) : IState :=
    { i with mode := m, lencode := { tbl := .fixedL, off := 0 }, lenbits := 9
             distcode := { tbl := .fixedD, off := 0 }, distbits := 5 }
  match e with
  | .dinit _ _ | .dproc _ _ | .dsetdict _ _ | .dreset _ _ | .dparams _ _ | .dend _ _ => i
  | .iinit _ _ | .iproc _ _ | .isetdict _ _ | .ireset _ _ | .isync _ _ | .icopy _ _ => i
  | .iundermine _ _ | .iend _ _ => i
  | .zlibHdr _ _ _ _ => i
  | .blkStored _ | .blkFixed _ | .blkDynamic _ | .blkReserved _ => { i with mode := .TYPEDO }
  | .zlibDictid _ => { i with mode := .DICTID }
  | .storedLen _ _ => { i with mode := .STORED }
  | .zlibTrailer _ => { i with mode := .CHECK, check := 1 }
  | .fixEob | .fixLen257to263 _ | .fixLen264to271 _ | .fixLen272to279 _ => fixed .LEN
  | .fixLit0to15 _ | .fixLit16to79 _ | .fixLit80to143 _ | .fixLen280to285 _ | .fixInvalid286to287 _ => fixed .LEN
  | .fixLit144to159 _ | .fixLit160to191 _ | .fixLit192to255 _ => fixed .LEN
  | .fixDist0to15 _ | .fixDist16to29 _ | .fixDistInvalid _ => fixed .DIST
  | .symLiteral _ | .symEob | .symLength _ | .symLlInvalid _ => fixed .LEN
  | .symDist _ | .symDistInvalid _ => fixed .DIST
  | .clLength _ | .clRepeatPrev _ | .clZerosShort _ | .clZerosLong _ =>
      { i with mode := .CODELENS, nlen := 257, ndist := 1, haveCnt := 1 }
  | .entLiteral bits _ | .entLink _ bits _ | .entBase _ bits _ | .entEob bits _ | .entInvalid bits _ =>
      { fixed .LEN with bits := min bits.toNat 32 }

/-- Put an I-engine that is about to read `e` into context `cur`, unless one is there. -/
def State.makePlace (s : State) (e : Instr) : State :=
  let fresh := s.setCtx s.cur { s.ctx s.cur with slot := .inflate (placeFor e) }
  match (s.ctx s.cur).slot with
  | .inflate i => if inPlace e i then s else fresh
  | .free => fresh
  | .deflate _ => fresh

end Sys2Proof.Machine
end

