-- ==== Sys2Proof/Machine/Dispatch.lean ====
section
/-! DEFINITION. The one dispatch from an instruction to its meaning. -/

namespace Sys2Proof.Machine

/-- The meaning of an instruction. -/
def exec (i : Instr) (s : State) : Host.Outcome State Fault Refusal :=
  match i with
  | .dinit k b => Sys2Proof.Machine.execDinit k b s
  | .dproc k b => Sys2Proof.Machine.execDproc k b s
  | .dsetdict k b => Sys2Proof.Machine.execDsetdict k b s
  | .dreset k b => Sys2Proof.Machine.execDreset k b s
  | .dparams k b => Sys2Proof.Machine.execDparams k b s
  | .dend k b => Sys2Proof.Machine.execDend k b s
  | .iinit k b => Sys2Proof.Machine.execIinit k b s
  | .iproc k b => Sys2Proof.Machine.execIproc k b s
  | .isetdict k b => Sys2Proof.Machine.execIsetdict k b s
  | .ireset k b => Sys2Proof.Machine.execIreset k b s
  | .isync k b => Sys2Proof.Machine.execIsync k b s
  | .icopy k b => Sys2Proof.Machine.execIcopy k b s
  | .iundermine k b => Sys2Proof.Machine.execIundermine k b s
  | .iend k b => Sys2Proof.Machine.execIend k b s
  | .blkStored bfinal => Sys2Proof.Machine.execBlkStored bfinal s
  | .blkFixed bfinal => Sys2Proof.Machine.execBlkFixed bfinal s
  | .blkDynamic bfinal => Sys2Proof.Machine.execBlkDynamic bfinal s
  | .blkReserved bfinal => Sys2Proof.Machine.execBlkReserved bfinal s
  | .zlibHdr cinfo flevel fdict fcheck => Sys2Proof.Machine.execZlibHdr cinfo flevel fdict fcheck s
  | .zlibDictid id => Sys2Proof.Machine.execZlibDictid id s
  | .storedLen len nlen => Sys2Proof.Machine.execStoredLen len nlen s
  | .zlibTrailer adler => Sys2Proof.Machine.execZlibTrailer adler s
  | .fixEob => Sys2Proof.Machine.execFixEob s
  | .fixLen257to263 x => Sys2Proof.Machine.execFixLen257to263 x s
  | .fixLen264to271 x => Sys2Proof.Machine.execFixLen264to271 x s
  | .fixLen272to279 x => Sys2Proof.Machine.execFixLen272to279 x s
  | .fixLit0to15 x => Sys2Proof.Machine.execFixLit0to15 x s
  | .fixLit16to79 x => Sys2Proof.Machine.execFixLit16to79 x s
  | .fixLit80to143 x => Sys2Proof.Machine.execFixLit80to143 x s
  | .fixLen280to285 x => Sys2Proof.Machine.execFixLen280to285 x s
  | .fixInvalid286to287 x => Sys2Proof.Machine.execFixInvalid286to287 x s
  | .fixLit144to159 x => Sys2Proof.Machine.execFixLit144to159 x s
  | .fixLit160to191 x => Sys2Proof.Machine.execFixLit160to191 x s
  | .fixLit192to255 x => Sys2Proof.Machine.execFixLit192to255 x s
  | .fixDist0to15 x => Sys2Proof.Machine.execFixDist0to15 x s
  | .fixDist16to29 x => Sys2Proof.Machine.execFixDist16to29 x s
  | .fixDistInvalid x => Sys2Proof.Machine.execFixDistInvalid x s
  | .symLiteral byte => Sys2Proof.Machine.execSymLiteral byte s
  | .symEob => Sys2Proof.Machine.execSymEob s
  | .symLength x => Sys2Proof.Machine.execSymLength x s
  | .symLlInvalid x => Sys2Proof.Machine.execSymLlInvalid x s
  | .symDist code => Sys2Proof.Machine.execSymDist code s
  | .symDistInvalid x => Sys2Proof.Machine.execSymDistInvalid x s
  | .clLength len => Sys2Proof.Machine.execClLength len s
  | .clRepeatPrev extra => Sys2Proof.Machine.execClRepeatPrev extra s
  | .clZerosShort extra => Sys2Proof.Machine.execClZerosShort extra s
  | .clZerosLong extra => Sys2Proof.Machine.execClZerosLong extra s
  | .entLiteral bits val => Sys2Proof.Machine.execEntLiteral bits val s
  | .entLink t bits val => Sys2Proof.Machine.execEntLink t bits val s
  | .entBase extra bits val => Sys2Proof.Machine.execEntBase extra bits val s
  | .entEob bits val => Sys2Proof.Machine.execEntEob bits val s
  | .entInvalid bits val => Sys2Proof.Machine.execEntInvalid bits val s

end Sys2Proof.Machine
end

