-- ==== Sys2Proof/Machine/Access.lean ====
section
/-! DEFINITION. What one host access does (spec 20_memory R101, R107, R111; 30_encoding R130; 70 R670). -/

namespace Sys2Proof.Machine

/-- A write of CMD (30 R130): run the command, or end with Z_STREAM_ERROR and change nothing else (R133). -/
def submit (w : Word) (s : State) : Host.Outcome State Fault Refusal :=
  match decode .cmd w.toNat with
  | .ok i => exec i s
  | .error _ => .next (s.setResult .streamError)

/-- A lone wire value for the I-engine of context `k` (log entry 5). -/
def offerElement (k : BitVec 8) (f : Format) (v : Word) (s : State) : Host.Outcome State Fault Refusal :=
  let w := ownBits f v.toNat
  match decode f w with
  | .ok i => exec i { s with cur := k.toNat }
  | .error why => offerStray f w why { s with cur := k.toNat }

/-- One host access. -/
def access (a : Input) (s : State) : Host.Outcome State Fault Refusal :=
  match a with
  | .powerOnReset => .next { State.powerOn s.params s.mem with inputs := s.inputs }
  | .csrWrite off v => if off = 0 then submit v s else .next (s.csrWrite off v)
  | .csrRead off => .next { s with readData := s.csrRead off }
  | .memWrite addr b => .next { s with mem := s.mem.write addr b }
  | .memRead addr => .next { s with readData := (s.mem.read addr).setWidth 32 }
  | .wire k f v => offerElement k f v s

/-- The access that submits the instruction a table word stands for (log entry 6). -/
def wordAccess (s : State) (nbits w : Nat) : Input :=
  match tableFormat nbits w with
  | .cmd => .csrWrite 0 (BitVec.ofNat 32 w)
  | f => .wire (BitVec.ofNat 8 s.cur) f (BitVec.ofNat 32 w)

/-- The state in which the instruction of a table word can run: a wire element needs an I-engine that reads it. -/
def placeWord (s : State) (nbits w : Nat) : State :=
  match tableFormat nbits w with
  | .cmd => s
  | _ =>
    match decodeTableWord nbits w with
    | some e => s.makePlace e
    | none => s

end Sys2Proof.Machine
end

