-- ==== Sys2Proof/Machine/Step.lean ====
section
/-! DEFINITION. The step function: one host access a step (spec 00_scope R5, 20_memory R107; log entry 3). -/

namespace Sys2Proof.Machine

/-- Take the next host access; with none to come, the machine waits. -/
def step (s : State) : Host.Outcome State Fault Refusal :=
  match s.inputs with
  | [] => .next s
  | a :: rest => access a { s with inputs := rest }

/-- `s` with the instruction of a table word as its next access (log entries 3, 5 and 6). -/
def State.withFetchWord (s : State) (nbits w : Nat) : State :=
  { placeWord s nbits w with inputs := wordAccess s nbits w :: s.inputs }

end Sys2Proof.Machine
end

