-- ==== Sys2Proof/Safety.lean ====
section
/-! DEFINITION. What a safe state of ZCORE is, and the notions the statements are written in: what a step may touch, the
bit stream a writer holds, the history a window holds, what a run of code-length symbols means. -/

namespace Sys2Proof.Machine

/-! ### Safe states -/

/-- The window's invariants (48 R586), and its largest size (R589). -/
structure IState.WindowOk (i : IState) : Prop where
  wsize_le : i.wsize ≤ 2 ^ 15
  whave_le : i.whave ≤ i.wsize
  no_window : i.wsize = 0 → i.whave = 0 ∧ i.wnext = 0
  wnext_lt : i.wsize ≠ 0 → i.wnext < i.wsize
  filling : i.whave < i.wsize → i.wnext = i.whave

/-- The accumulator is 0 above its valid bits (10_state R72). -/
def IState.HoldOk (i : IState) : Prop := i.hold.toNat < 2 ^ i.bits

/-- `bits` is in 0..32 (10_state R73). In DICTID and CHECK whole bytes are held: HEAD's INITBITS and TYPEDO's BYTEBITS
leave no part of one (47 R510, R512). That is what lets NEEDBITS(32) end at 32 there (45 R432, R433). -/
structure IState.BitsOk (i : IState) : Prop where
  le : i.bits ≤ 32
  whole : i.mode = .DICTID ∨ i.mode = .CHECK → i.bits % 8 = 0

/-- The modes that are entered (47 R505): no gzip mode, and not MEM. -/
def Mode.Entered (m : Mode) : Prop :=
  m ∉ [Mode.FLAGS, Mode.TIME, Mode.OS, Mode.EXLEN, Mode.EXTRA, Mode.NAME, Mode.COMMENT, Mode.HCRC, Mode.MEM]

/-- In SYNC no bits are held, and fewer than four marker bytes have been seen (47 R543). -/
def IState.SyncOk (i : IState) : Prop := i.mode = .SYNC → i.haveCnt < 4 ∧ i.bits = 0

/-- A safe I-engine of a build `p`. -/
structure IState.Ok (p : Params) (i : IState) : Prop where
  window : i.WindowOk
  hold : i.HoldOk
  bits : i.BitsOk
  mode : i.mode.Entered
  /-- Only a build with ALLOW_TOOFAR has the lenient mode (10_state R78). -/
  sane : p.allowTooFar = false → i.sane = true
  sync : i.SyncOk

/-- The window cursors (10_state R45): strstart and lookahead keep within the window, and block_start does not pass
strstart (below, it has no bound: log entry 24). The other three clauses are what keeps the first true: the match the slow
function holds back fits what is ahead, the other functions hold none back, and the stored function, like a fresh stream,
has nothing ahead. -/
structure DState.CursorsOk (d : DState) : Prop where
  room : d.strstart + d.lookahead ≤ d.conf.windowSize
  block : d.blockStart ≤ d.strstart
  held : d.matchLength ≤ max 2 (d.lookahead + 1)
  notHeld : d.tune.level ≤ 3 ∨ d.tune.strategy = zHuffmanOnly ∨ d.tune.strategy = zRle → d.matchLength ≤ 2
  nothingAhead : d.tune.level = 0 ∨ d.lastFlush = -2 → d.lookahead = 0

/-- A safe D-engine: its configuration is one DINIT builds, and its level's row is the one of R200 (10_state R40, R41). -/
structure DState.Ok (d : DState) : Prop where
  wrap : d.wrap = 1 ∨ d.wrap = 0 ∨ d.wrap = -1
  conf : ∃ wBits memLevel, 9 ≤ wBits ∧ wBits ≤ 15 ∧ 1 ≤ memLevel ∧ memLevel ≤ 9 ∧ d.conf = dConf wBits memLevel
  level : d.tune.level ≤ 9
  strategy : d.tune.strategy ≤ 4
  row : d.tune = configRow d.tune.level d.tune.strategy
  lastFlush : -2 ≤ d.lastFlush ∧ d.lastFlush ≤ 5
  slides : d.slides ≤ 2
  cursors : d.CursorsOk

/-- TOTAL_IN and TOTAL_OUT fit TOTAL_W (10_state R38). -/
def Regs.TotalsOk (p : Params) (r : Regs) : Prop :=
  p.total64 = false → r.totalIn.toNat < 2 ^ 32 ∧ r.totalOut.toNat < 2 ^ 32

/-- A safe context. -/
structure Ctx.Ok (p : Params) (c : Ctx) : Prop where
  totals : c.regs.TotalsOk p
  deflate : ∀ d, c.slot = .deflate d → d.Ok
  inflate : ∀ i, c.slot = .inflate i → i.Ok p

/-- A safe machine: the invariant that every step keeps. -/
structure Inv (s : State) : Prop where
  params : s.params.wf = true
  mem : s.mem.wf = true
  count : s.ctxs.length = s.params.nctx
  ctxs : ∀ c ∈ s.ctxs, c.Ok s.params

/-! ### What a step may touch -/

/-- `t` is `s` but for context `k`, RESULT and host memory. -/
structure OnlyCtx (k : Nat) (s t : State) : Prop where
  params : t.params = s.params
  args : t.arg0 = s.arg0 ∧ t.arg1 = s.arg1 ∧ t.arg2 = s.arg2 ∧ t.arg3 = s.arg3
  inputs : t.inputs = s.inputs
  readData : t.readData = s.readData
  cur : t.cur = s.cur
  count : t.ctxs.length = s.ctxs.length
  others : ∀ j, j ≠ k → t.ctx j = s.ctx j

/-- Outside the `n` bytes from `a` on, `m'` reads as `m`. -/
def SameOutside (a : Word) (n : Nat) (m m' : Memory) : Prop :=
  ∀ x : Word, (∀ j < n, x ≠ a + BitVec.ofNat 32 j) → m'.read x = m.read x

/-- The cursors of `r'` are those of `r` after `used` bytes of input and `made` bytes of output (20 R105). -/
structure Moved (r r' : Regs) (used made : Nat) : Prop where
  availIn : r'.availIn.toNat + used = r.availIn.toNat
  nextIn : r'.nextIn = r.nextIn + BitVec.ofNat 32 used
  availOut : r'.availOut.toNat + made = r.availOut.toNat
  nextOut : r'.nextOut = r.nextOut + BitVec.ofNat 32 made

/-- The `n` bytes from `a` on and the `m` bytes from `b` on do not overlap (70 R680). -/
def BuffersApart (a : Word) (n : Nat) (b : Word) (m : Nat) : Prop :=
  ∀ i < n, ∀ j < m, a + BitVec.ofNat 32 i ≠ b + BitVec.ofNat 32 j

/-! ### The bit writer's stream (43 R322) -/

/-- The `n` low bits of `v`, least significant first. -/
def lowBits : Nat → Nat → List Bool
  | 0, _ => []
  | n + 1, v => decide (v % 2 = 1) :: lowBits n (v / 2)

/-- The bits a writer holds, the oldest first. -/
def BitWriter.stream (w : BitWriter) : List Bool :=
  w.pending.flatMap (fun b => lowBits 8 b.toNat) ++ lowBits w.biValid w.biBuf.toNat

/-- The buffer is 0 above its valid bits. -/
def BitWriter.BufOk (w : BitWriter) : Prop := w.biValid ≤ 16 ∧ w.biBuf.toNat < 2 ^ w.biValid

/-! ### The I-engine's history (48 R580) -/

/-- The history, its oldest byte first: the byte `d` back from the end is `window[(wnext - d) mod wsize]`. -/
def IState.history (i : IState) : List Byte :=
  (List.range i.whave).map fun j => i.window.get ((i.wnext + i.wsize - (i.whave - j)) % i.wsize)

/-- The last `n` elements of a list. -/
def lastN {α : Type} (n : Nat) (l : List α) : List α := l.drop (l.length - n)

/-! ### Code-length symbols (30 R152) -/

/-- What a decoder adds to the lengths `got` so far for one symbol, none where R152 makes it a data error. -/
def expandItem (got : List Nat) (r : RunItem) : Option (List Nat) :=
  if r.sym < 16 then some (got ++ [r.sym])
  else if r.sym = 16 then got.getLast?.map fun l => got ++ List.replicate (3 + r.extra) l
  else if r.sym = 17 then some (got ++ List.replicate (3 + r.extra) 0)
  else if r.sym = 18 then some (got ++ List.replicate (11 + r.extra) 0)
  else none

/-- What a decoder makes of a sequence of symbols. -/
def expandItems : List RunItem → List Nat → Option (List Nat)
  | [], got => some got
  | r :: rs, got => (expandItem got r).bind (expandItems rs)

/-! ### The full-flush marker (47 R543) -/

/-- The marker `00 00 FF FF` stands in `bs` so that it ends just before index `n`. -/
def MarkerEndsAt (bs : List Byte) (n : Nat) : Prop :=
  4 ≤ n ∧ (bs.drop (n - 4)).take 4 = [0x00, 0x00, 0xFF, 0xFF]

end Sys2Proof.Machine
end

