-- ==== Sys2Proof/Certificates/Slice0/Obligations.lean ====
section
/-! DEFINITION. The statements about ZCORE, for the provers. Each docstring names the rules of spec/ it formalises. -/

open Sys2Proof Sys2Proof.Machine

/-! ### Encoding and decoding -/

/-- Words written out from the tables of 30 R130, R131, R141, R145, R148 to R152 and R170. -/
def Obligations.DecodesSpecWords : Prop :=
  decode .cmd 0x00000001 = .ok (.dinit 0 0) ∧
  decode .cmd 0x00040302 = .ok (.dproc 3 4) ∧
  decode .cmd 0x00010216 = .ok (.icopy 2 1) ∧
  decode .cmd 0x00000007 = .error .unknownOpcode ∧
  decode .cmd 0x01000001 = .error .reservedBits ∧
  decode .zlibHdr 0x789C = .ok (.zlibHdr 7 2 false 28) ∧
  decode .zlibHdr 0x78BB = .ok (.zlibHdr 7 2 true 27) ∧
  decode .blockHdr 3 = .ok (.blkFixed true) ∧
  decode .storedLen 0xFFFC0003 = .ok (.storedLen 3 0xFFFC) ∧
  decode .fixedLL8 0x98 = .ok (.fixLit80to143 0x18) ∧
  decode .fixedLL7 0 = .ok .fixEob ∧
  decode .fixedDist 0x1F = .ok (.fixDistInvalid 1) ∧
  decode .llSym 285 = .ok (.symLength 29) ∧
  decode .clSym 0xB2 = .ok (.clZerosLong 5) ∧
  decode .entry 0x00070960 = .ok (.entEob 9 7)

/-- Decoding gives back every operand of every well-formed instruction (30 R130 to R170). -/
def Obligations.DecodeOfEncode : Prop :=
  ∀ i : Instr, i.wf = true → decode (encode i).1 (encode i).2 = .ok i

/-- A value that decodes has exactly one meaning: the instruction is well formed and encodes to that value. -/
def Obligations.EncodeOfDecode : Prop :=
  ∀ (f : Format) (v : Nat) (i : Instr), decode f v = .ok i → i.wf = true ∧ encode i = (f, v)

/-! ### The step, the host interface and reset -/

/-- A step runs the decoded instruction: a write of CMD runs the command its word decodes to, a wire element the element
its value decodes to, and with no access to come the machine waits (30 R130; 70 R670; log entries 3 and 5). -/
def Obligations.StepRunsTheDecodedInstruction : Prop :=
  (∀ s : State, s.inputs = [] → step s = .next s) ∧
  (∀ (s : State) (w : Word) (rest : List Input) (i : Instr),
    s.inputs = .csrWrite 0 w :: rest → decode .cmd w.toNat = .ok i → step s = exec i { s with inputs := rest }) ∧
  (∀ (s : State) (k : BitVec 8) (f : Format) (v : Word) (rest : List Input) (i : Instr),
    s.inputs = .wire k f v :: rest → decode f v.toNat = .ok i →
      step s = exec i { s with inputs := rest, cur := k.toNat })

/-- An illegal command word ends with Z_STREAM_ERROR in RESULT and changes nothing else (30 R133). -/
def Obligations.IllegalCommandWord : Prop :=
  ∀ (s : State) (w : Word) (rest : List Input),
    s.inputs = .csrWrite 0 w :: rest →
    (w.toNat / 2 ^ 24 ≠ 0 ∨
      w.toNat % 2 ^ 8 ∉ [0x01, 0x02, 0x03, 0x04, 0x05, 0x06, 0x11, 0x12, 0x13, 0x14, 0x15, 0x16, 0x17, 0x18] ∨
      s.params.nctx ≤ w.toNat / 2 ^ 8 % 2 ^ 8) →
    step s = .next { s with inputs := rest, result := 0xFFFFFFFE }

/-- The KIND check (60 R624): every command but the two INITs on a slot of the wrong kind changes RESULT alone. -/
def Obligations.KindCheck : Prop :=
  ∀ (k b : BitVec 8) (s : State),
    ((∀ d, (s.ctx k.toNat).slot ≠ .deflate d) →
      ∀ i ∈ [Instr.dproc k b, .dsetdict k b, .dreset k b, .dparams k b, .dend k b],
        exec i s = .next { s with result := 0xFFFFFFFE }) ∧
    ((∀ x, (s.ctx k.toNat).slot ≠ .inflate x) →
      ∀ i ∈ [Instr.iproc k b, .isetdict k b, .ireset k b, .isync k b, .icopy k b, .iundermine k b, .iend k b],
        exec i s = .next { s with result := 0xFFFFFFFE })

/-- A host read of a global CSR (10 R32), and of a context's block (10 R34, R35), MSG as its code (10 R36), answered in
`readData` (log entry 3). -/
def Obligations.CsrReads : Prop :=
  ∀ (s : State) (off : Word) (rest : List Input), s.inputs = .csrRead off :: rest → s.params.wf = true →
    (∀ v, (off, v) ∈ [((0x000 : Word), (0 : Word)), (0x004, s.arg0), (0x008, s.arg1), (0x00C, s.arg2), (0x010, s.arg3),
        (0x014, s.result)] → step s = .next { s with inputs := rest, readData := v }) ∧
    (∀ k < s.params.nctx, ∀ o v code,
      let r := (s.ctx k).regs
      let kind : Word := match (s.ctx k).slot with
        | .free => 0
        | .deflate _ => 1
        | .inflate _ => 2
      (r.msg, code) ∈ [(Msg.none, (0 : Word)), (.streamError, 1), (.bufferError, 2), (.headerCheck, 3), (.unknownMethod, 4),
        (.windowSize, 5), (.blockType, 6), (.storedLengths, 7), (.tooManySymbols, 8), (.codeLengthsSet, 9),
        (.bitLengthRepeat, 10), (.missingEndOfBlock, 11), (.literalLengthsSet, 12), (.distancesSet, 13),
        (.literalLengthCode, 14), (.distanceCode, 15), (.distanceTooFar, 16), (.dataCheck, 17)] →
      (o, v) ∈ [((0x00 : Nat), r.nextIn), (0x04, r.availIn), (0x08, r.nextOut), (0x0C, r.availOut),
        (0x10, r.totalIn.extractLsb' 0 32), (0x14, r.totalIn.extractLsb' 32 32), (0x18, r.totalOut.extractLsb' 0 32),
        (0x1C, r.totalOut.extractLsb' 32 32), (0x20, r.adler), (0x24, r.dataType), (0x28, code), (0x2C, kind)] →
      off = BitVec.ofNat 32 (0x100 + 0x40 * k + o) → step s = .next { s with inputs := rest, readData := v })

/-- CFG reports the build parameters and cannot be written (10 R33). -/
def Obligations.CfgReportsTheBuild : Prop :=
  ∀ (s : State) (rest : List Input), s.params.wf = true →
    (s.inputs = .csrRead 0x018 :: rest →
      ∃ v : Word, step s = .next { s with inputs := rest, readData := v } ∧
        v.toNat % 2 ^ 9 = s.params.nctx ∧ v.toNat / 2 ^ 9 % 2 ^ 7 = 0 ∧
        v.getLsbD 16 = s.params.total64 ∧ v.getLsbD 17 = s.params.allowTooFar ∧ v.toNat / 2 ^ 18 = 0) ∧
    (∀ w, s.inputs = .csrWrite 0x018 w :: rest → step s = .next { s with inputs := rest })

/-- A host write reaches the ARG registers and a context's four cursors (10 R32, R34). -/
def Obligations.CsrWrites : Prop :=
  ∀ (s : State) (off v : Word) (rest : List Input), s.inputs = .csrWrite off v :: rest → s.params.wf = true →
    (off = 0x004 → step s = .next { s with inputs := rest, arg0 := v }) ∧
    (off = 0x008 → step s = .next { s with inputs := rest, arg1 := v }) ∧
    (off = 0x00C → step s = .next { s with inputs := rest, arg2 := v }) ∧
    (off = 0x010 → step s = .next { s with inputs := rest, arg3 := v }) ∧
    (∀ k < s.params.nctx, ∀ o r,
      (o, r) ∈ [((0x00 : Nat), { (s.ctx k).regs with nextIn := v }), (0x04, { (s.ctx k).regs with availIn := v }),
        (0x08, { (s.ctx k).regs with nextOut := v }), (0x0C, { (s.ctx k).regs with availOut := v })] →
      off = BitVec.ofNat 32 (0x100 + 0x40 * k + o) →
        step s = .next ({ s with inputs := rest }.setCtx k { s.ctx k with regs := r }))

/-- A read at an offset that maps no register returns 0; a write there, or to a read-only register, is ignored
(20 R101). The offsets are those of 10 R32 and R34. -/
def Obligations.UnmappedCsr : Prop :=
  ∀ (s : State) (off : Word) (rest : List Input),
    let o := off.toNat
    let unmapped := o % 4 ≠ 0 ∨ (0x1C ≤ o ∧ o < 0x100) ∨ 0x100 + 0x40 * s.params.nctx ≤ o
      ∨ (0x100 ≤ o ∧ 0x30 ≤ (o - 0x100) % 0x40)
    let readOnly := o = 0x014 ∨ o = 0x018 ∨ (0x100 ≤ o ∧ 0x10 ≤ (o - 0x100) % 0x40)
    (s.inputs = .csrRead off :: rest → unmapped → step s = .next { s with inputs := rest, readData := 0 }) ∧
    (∀ v, s.inputs = .csrWrite off v :: rest → unmapped ∨ readOnly → step s = .next { s with inputs := rest })

/-- Power-on reset (70 R670): the CSRs, the stream registers and KIND are 0, and host memory is unchanged. The machine
after it waits. -/
def Obligations.PowerOnReset : Prop :=
  (∀ (s : State) (rest : List Input), s.inputs = .powerOnReset :: rest →
    ∃ t, step s = .next t ∧ t.params = s.params ∧ t.mem = s.mem ∧ t.inputs = rest ∧
      t.arg0 = 0 ∧ t.arg1 = 0 ∧ t.arg2 = 0 ∧ t.arg3 = 0 ∧ t.result = 0 ∧ t.ctxs.length = s.params.nctx ∧
      (∀ c ∈ t.ctxs, c.slot = .free ∧ c.regs = Regs.zero) ∧
      (s.params.wf = true →
        ∀ k < t.params.nctx, ∀ o < 0x40, t.csrRead (BitVec.ofNat 32 (0x100 + 0x40 * k + o)) = 0)) ∧
  step State.reset = .next State.reset

/-! ### The invariant -/

/-- The machine after reset is safe (70 R670; its build parameters are log entry 1's). -/
def Obligations.ResetIsSafe : Prop := Inv State.reset

/-- Every step of a safe machine answers a next state, for there are no traps (60 R620), and it is safe again (48 R586;
10 R38, R40, R41, R45, R72, R73, R78; 47 R505, R543; 20 R105; memory's canonical form, the window's largest size,
block_start's missing lower bound and what the model does where R432 says PULLBYTE never runs are log entries 2, 10, 24 and
26). -/
def Obligations.StepKeepsInv : Prop := ∀ s : State, Inv s → ∃ t, step s = .next t ∧ Inv t

/-- A command changes its own context and RESULT; ICOPY changes its destination context instead (20 R102; 10 R32). Host
memory changes for DPROC, DPARAMS and IPROC alone. That DPARAMS is among them is 44 R384's inner DEFLATE_CALL(Z_BLOCK) and
log entry 20: 20 R103's table lists it among the commands that touch no host memory. -/
def Obligations.CommandsTouchOneContext : Prop :=
  ∀ (k b : BitVec 8) (s t : State),
    (∀ i ∈ [Instr.dinit k b, .dproc k b, .dsetdict k b, .dreset k b, .dparams k b, .dend k b, .iinit k b, .iproc k b,
        .isetdict k b, .ireset k b, .isync k b, .iundermine k b, .iend k b], exec i s = .next t →
      OnlyCtx k.toNat s t ∧ (i ≠ .dproc k b → i ≠ .dparams k b → i ≠ .iproc k b → t.mem = s.mem)) ∧
    (exec (.icopy k b) s = .next t → OnlyCtx b.toNat s t ∧ t.mem = s.mem)

/-- A command sees of the contexts only its own: two machines that agree on it, on the ARG registers, on host memory and
on the build end with the same RESULT, the same host memory and the same context (20 R102; 70 R690). -/
def Obligations.CommandsSeeOneContext : Prop :=
  ∀ (k b : BitVec 8) (s s' t t' : State),
    s.params = s'.params → s.arg0 = s'.arg0 → s.arg1 = s'.arg1 → s.arg2 = s'.arg2 → s.arg3 = s'.arg3 →
    s.mem = s'.mem → s.ctxs.length = s'.ctxs.length → s.ctx k.toNat = s'.ctx k.toNat →
    ∀ i ∈ [Instr.dinit k b, .dproc k b, .dsetdict k b, .dreset k b, .dparams k b, .dend k b, .iinit k b, .iproc k b,
        .isetdict k b, .ireset k b, .isync k b, .iundermine k b, .iend k b],
      exec i s = .next t → exec i s' = .next t' →
      t.result = t'.result ∧ t.mem = t'.mem ∧ t.ctx k.toNat = t'.ctx k.toNat

/-- A wire element completes in every state (log entry 5). It changes the context it is offered to and nothing else, host
memory included: every byte reads as before (45 R431); or RESULT alone, which is then Z_STREAM_ERROR. -/
def Obligations.ElementsTouchOneContext : Prop :=
  ∀ (i : Instr) (s : State), (encode i).1 ≠ .cmd →
    exec i s = .next { s with result := 0xFFFFFFFE } ∨
    ∃ t, exec i s = .next t ∧ OnlyCtx s.cur s t ∧ t.mem = s.mem ∧ t.result = s.result

/-! ### Host memory and the checksum -/

/-- MemWrite then MemRead (20 R104): the bytes written read back in order, wrapping at 2^32, and no other byte changes.
That the memory keeps its canonical form (`wf`) is of the model's own form of memory (log entry 2). -/
def Obligations.MemWriteThenRead : Prop :=
  ∀ (m : Memory) (a : Word) (vs : List Byte), m.wf = true → vs.length ≤ 2 ^ 32 →
    (m.writeN a vs).wf = true ∧ (m.writeN a vs).readN a vs.length = vs ∧ SameOutside a vs.length m (m.writeN a vs) ∧
    ∀ (n i : Nat), i < n → (m.readN a n)[i]? = some (m.read (a + BitVec.ofNat 32 i))

/-- ADLER32 of a string of bytes from 1 (44 R350): its low half is 1 plus the sum of the bytes, its high half the sum of
those sums, modulo 65521. -/
def Obligations.AdlerIsTwoSums : Prop :=
  ∀ bs : List Byte,
    (adler32 1 bs).toNat % 2 ^ 16 = (1 + (bs.map BitVec.toNat).sum) % 65521 ∧
    (adler32 1 bs).toNat / 2 ^ 16 =
      (bs.length + ((bs.zipIdx.map fun p => (bs.length - p.2) * p.1.toNat)).sum) % 65521

/-! ### The D-engine: its pieces -/

/-- SEND_BITS appends the low bits of its value to the bit stream and keeps the writer's invariant (43 R321, R322). -/
def Obligations.SendBitsAppends : Prop :=
  ∀ (w : BitWriter) (value length : Nat), w.BufOk → 1 ≤ length → length ≤ 16 → value < 2 ^ length →
    (w.sendBits value length).BufOk ∧ (w.sendBits value length).stream = w.stream ++ lowBits length value

/-- BI_FLUSH keeps the bit stream and leaves at most 7 bits (43 R323); BI_WINDUP pads it with zeros to a byte boundary
and leaves none (43 R324). -/
def Obligations.BiFlushAndBiWindup : Prop :=
  ∀ w : BitWriter, w.BufOk →
    (w.biFlush.stream = w.stream ∧ w.biFlush.biValid ≤ 7 ∧ w.biFlush.BufOk) ∧
    w.biWindup.biValid = 0 ∧ w.biWindup.biBuf = 0 ∧
    w.biWindup.stream = w.stream ++ List.replicate ((8 - w.biValid % 8) % 8) false

/-- The encoder's code of a length or distance and the decoder's base of it agree (30 R150, R151, R155 to R157): base
plus extra value is the length or distance sent, and the extra value fits its field. -/
def Obligations.LengthAndDistanceCodesAgree : Prop :=
  (∀ len, 3 ≤ len → len ≤ 258 →
    let c := lengthCode (len - 3)
    let extra := if tableAt extraLbits c = 0 then 0 else len - 3 - tableAt baseLength c
    c < 29 ∧ tableAt lbase c + extra = len ∧ extra < 2 ^ tableAt extraLbits c ∧
      tableAt lext c = 16 + tableAt extraLbits c) ∧
  (∀ dist, 1 ≤ dist → dist ≤ 32768 →
    let c := dCode (dist - 1)
    let extra := if tableAt extraDbits c = 0 then 0 else dist - 1 - tableAt baseDist c
    c < 30 ∧ tableAt dbase c + extra = dist ∧ extra < 2 ^ tableAt extraDbits c ∧
      tableAt dext c = 16 + tableAt extraDbits c)

/-- RLE_MATCH (41 R213): 0, or the length of the run of the byte before strstart, at least 3, cut to 258 and to the
lookahead. -/
def Obligations.RleMatchIsTheRun : Prop :=
  ∀ d : DState, minMatch ≤ d.lookahead → 0 < d.strstart →
    let p := d.window.get (d.strstart - 1)
    let n := rleMatch d
    (n = 0 → ∃ j < 3, d.window.get (d.strstart + j) ≠ p) ∧
    (n ≠ 0 → minMatch ≤ n ∧ n ≤ maxMatch ∧ n ≤ d.lookahead ∧ (∀ j < n, d.window.get (d.strstart + j) = p) ∧
      (n < maxMatch → n < d.lookahead → d.window.get (d.strstart + n) ≠ p))

/-- The run-length coding of a tree's code lengths, which 42 R257 counts and R258 sends, is read back by a decoder of 30
R152 as those lengths, and every symbol and extra value fits its field. -/
def Obligations.CodeRunsExpandToTheLengths : Prop :=
  ∀ lens : List Nat, (∀ l ∈ lens, l ≤ 15) →
    let runs := codeRuns lens (-1) 0 (if lens.headD 0xFFFF = 0 then (138, 3) else (7, 4))
    expandItems runs [] = some lens ∧ ∀ r ∈ runs, r.sym ≤ 18 ∧ r.extra < 2 ^ r.extraLen ∧
      r.extraLen = tableAt extraBlbits r.sym

/-- WRITE_HEADER (44 R375, R376) queues two bytes, which as a big-endian number are a multiple of 31 that 30 R141 reads as
CM = 8, CINFO = w_bits - 8, R376's level hint and, exactly when a dictionary was loaded, FDICT; then, exactly when FDICT is
set, the 4 bytes of ADLER, most significant first (30 R142). ADLER restarts at 1, and nothing else changes. -/
def Obligations.HeaderIsLegal : Prop :=
  ∀ x : DRun, 9 ≤ x.d.conf.wBits → x.d.conf.wBits ≤ 15 →
    let a := x.regs.adler
    let hint : BitVec 2 :=
      if 2 ≤ x.d.tune.strategy ∨ x.d.tune.level < 2 then 0
      else if x.d.tune.level < 6 then 1
      else if x.d.tune.level = 6 then 2
      else 3
    let dictid : List Byte :=
      if x.d.strstart ≠ 0 then
        [a.extractLsb' 24 8, a.extractLsb' 16 8, a.extractLsb' 8 8, a.extractLsb' 0 8]
      else []
    ∃ (cmf flg : Byte) (fcheck : BitVec 5),
      (cmf.toNat * 256 + flg.toNat) % 31 = 0 ∧ fcheck ≠ 0 ∧
      decode .zlibHdr (cmf.toNat * 256 + flg.toNat) =
        .ok (.zlibHdr (BitVec.ofNat 4 (x.d.conf.wBits - 8)) hint (decide (x.d.strstart ≠ 0)) fcheck) ∧
      writeHeader x =
        { x with d := { x.d with bw := { x.d.bw with pending := x.d.bw.pending ++ [cmf, flg] ++ dictid } }
                 regs := { x.regs with adler := 1 } }

/-! ### The D-engine: its commands -/

/-- DINIT with valid operands (44 R380; 70 R671, R672): the slot becomes a fresh D-engine of that configuration, with the
row of its level in 41 R200 (level, good_match, max_lazy_match, nice_match, max_chain_length), the stream registers restart,
the cursors stay. -/
def Obligations.DinitStartsAStream : Prop :=
  ∀ (k b : BitVec 8) (s : State) (level w memLevel strategy : Nat) (raw : Bool),
    k.toNat < s.params.nctx →
    (s.arg0.toInt = level ∧ level ≤ 9 ∨ s.arg0.toInt = -1 ∧ level = 6) →
    s.arg1.toInt = (if raw then -(w : Int) else w) → 8 ≤ w → w ≤ 15 → (raw = true → w ≠ 8) →
    s.arg2.toInt = memLevel → 1 ≤ memLevel → memLevel ≤ 9 → s.arg3.toInt = strategy → strategy ≤ 4 →
    ∃ d : DState,
      exec (.dinit k b) s =
        .next (s.finish k.toNat
          { status := .ok
            regs := { (s.ctx k.toNat).regs with
              totalIn := 0, totalOut := 0, adler := 1, dataType := 2, msg := .none }
            slot := .deflate d, mem := s.mem }) ∧
      d.wrap = (if raw then 0 else 1) ∧
      d.conf = { wBits := max 9 w, wSize := 2 ^ max 9 w, wMask := 2 ^ max 9 w - 1, windowSize := 2 * 2 ^ max 9 w
                 hashBits := memLevel + 7, hashSize := 2 ^ (memLevel + 7), hashMask := 2 ^ (memLevel + 7) - 1
                 hashShift := (memLevel + 7 + 2) / 3, litBufsize := 2 ^ (memLevel + 6)
                 pendingBufSize := 4 * 2 ^ (memLevel + 6), symEnd := 3 * (2 ^ (memLevel + 6) - 1) } ∧
      d.tune = configRow level strategy ∧ d.tune.level = level ∧ d.tune.strategy = strategy ∧
      (level, d.tune.goodMatch, d.tune.maxLazyMatch, d.tune.niceMatch, d.tune.maxChainLength) ∈
        [(0, 0, 0, 0, 0), (1, 4, 4, 8, 4), (2, 4, 5, 16, 8), (3, 4, 6, 32, 32), (4, 4, 4, 16, 16), (5, 8, 16, 32, 32),
          (6, 8, 16, 128, 128), (7, 8, 32, 128, 256), (8, 32, 128, 258, 1024), (9, 32, 258, 258, 4096)] ∧
      d.status = .init ∧ d.lastFlush = -2 ∧
      d.bw = { biBuf := 0, biValid := 0, pending := [] } ∧ d.sym = [] ∧ d.slides = 0 ∧
      d.strstart = 0 ∧ d.lookahead = 0 ∧ d.blockStart = 0 ∧ d.insert = 0 ∧ d.insH = 0 ∧ d.matchLength = 2 ∧
      d.prevLength = 2 ∧ d.matchStart = 0 ∧ d.prevMatch = 0 ∧ d.matchAvailable = false ∧
      (∀ i, d.window.get i = 0 ∧ d.head.get i = 0 ∧ d.prev.get i = 0 ∧
        d.ltree.freq.get i = (if i = 256 then 1 else 0) ∧ d.dtree.freq.get i = 0 ∧ d.bltree.freq.get i = 0)

/-- The commands' own operand checks (44 R380, R384, R385; 47 R540; 60 R630): an operand the rule does not take ends the
command with Z_STREAM_ERROR, and nothing else changes. For DSETDICT, R630's "zlib stream past INIT" is R385's wrap = 1, not
an ended stream's -1 (log entry 25). -/
def Obligations.OperandChecks : Prop :=
  ∀ (k b : BitVec 8) (s : State),
    ((s.arg0.toInt < -1 ∨ 9 < s.arg0.toInt ∨ s.arg1.toInt < -15 ∨ 15 < s.arg1.toInt ∨
      (-9 < s.arg1.toInt ∧ s.arg1.toInt < 8) ∨ s.arg2.toInt < 1 ∨ 9 < s.arg2.toInt ∨ s.arg3.toInt < 0 ∨
      4 < s.arg3.toInt) →
      exec (.dinit k b) s = .next { s with result := 0xFFFFFFFE }) ∧
    ((s.arg0.toInt < -1 ∨ 9 < s.arg0.toInt ∨ s.arg1.toInt < 0 ∨ 4 < s.arg1.toInt) →
      exec (.dparams k b) s = .next { s with result := 0xFFFFFFFE }) ∧
    (∀ d, (s.ctx k.toNat).slot = .deflate d →
      (s.arg0 = 0 ∨ (d.wrap = 1 ∧ d.status ≠ .init) ∨ d.lookahead ≠ 0) →
      exec (.dsetdict k b) s = .next { s with result := 0xFFFFFFFE }) ∧
    ((s.arg0.toInt < -15 ∨ 15 < s.arg0.toInt ∨ (s.arg0.toInt ≠ 0 ∧ -8 < s.arg0.toInt ∧ s.arg0.toInt < 8)) →
      exec (.iinit k b) s = .next { s with result := 0xFFFFFFFE })

/-- DRESET (44 R383): a new stream of the same configuration, level and strategy; the window and `prev` are kept. -/
def Obligations.DresetRestartsTheStream : Prop :=
  ∀ (k b : BitVec 8) (s : State) (d : DState), k.toNat < s.params.nctx → (s.ctx k.toNat).slot = .deflate d →
    ∃ d' : DState,
      exec (.dreset k b) s =
        .next (s.finish k.toNat
          { status := .ok
            regs := { (s.ctx k.toNat).regs with
              totalIn := 0, totalOut := 0, adler := 1, dataType := 2, msg := .none }
            slot := .deflate d', mem := s.mem }) ∧
      d'.wrap = (if d.wrap < 0 then -d.wrap else d.wrap) ∧ d'.conf = d.conf ∧
      d'.tune = configRow d.tune.level d.tune.strategy ∧ d'.window = d.window ∧ d'.prev = d.prev ∧
      d'.status = .init ∧ d'.lastFlush = -2 ∧ d'.bw = { biBuf := 0, biValid := 0, pending := [] } ∧ d'.sym = [] ∧
      d'.slides = 0 ∧ d'.strstart = 0 ∧ d'.lookahead = 0 ∧ d'.blockStart = 0 ∧ d'.insert = 0 ∧ d'.insH = 0 ∧
      d'.matchLength = 2 ∧ d'.prevLength = 2 ∧ d'.matchStart = 0 ∧ d'.prevMatch = 0 ∧ d'.matchAvailable = false ∧
      (∀ i < d.conf.hashSize, d'.head.get i = 0) ∧
      (∀ i < 286, d'.ltree.freq.get i = if i = 256 then 1 else 0) ∧ (∀ i < 30, d'.dtree.freq.get i = 0) ∧
      ∀ i < 19, d'.bltree.freq.get i = 0

/-- DPARAMS when nothing has to be flushed (44 R384): the new level's row and strategy, and when level 0 is left after
slides, chains slid or cleared. Nothing else changes. -/
def Obligations.DparamsChangesTheLevel : Prop :=
  ∀ (k b : BitVec 8) (s : State) (d : DState) (level strategy : Nat),
    k.toNat < s.params.nctx → (s.ctx k.toNat).slot = .deflate d →
    (s.arg0.toInt = level ∧ level ≤ 9 ∨ s.arg0.toInt = -1 ∧ level = 6) → s.arg1.toInt = strategy → strategy ≤ 4 →
    (strategy = d.tune.strategy ∧ levelFunc level = levelFunc d.tune.level ∨ d.lastFlush = -2) →
    ∃ d' : DState,
      exec (.dparams k b) s =
        .next (s.finish k.toNat
          { status := .ok, regs := (s.ctx k.toNat).regs, slot := .deflate d', mem := s.mem }) ∧
      (level = d.tune.level → d' = { d with tune := { d.tune with strategy := strategy } }) ∧
      (level ≠ d.tune.level →
        let slid := d.tune.level = 0 ∧ d.slides ≠ 0
        d' = { d with tune := configRow level strategy, head := d'.head, prev := d'.prev
                      slides := if slid then 0 else d.slides } ∧
        (¬ slid → d'.head = d.head ∧ d'.prev = d.prev) ∧
        (slid → d.slides = 1 → ∀ i,
          d'.head.get i = (if d.conf.wSize ≤ d.head.get i then d.head.get i - d.conf.wSize else 0) ∧
          d'.prev.get i = (if d.conf.wSize ≤ d.prev.get i then d.prev.get i - d.conf.wSize else 0)) ∧
        (slid → d.slides ≠ 1 → d'.prev = d.prev ∧ ∀ i < d.conf.hashSize, d'.head.get i = 0))

/-- DPARAMS with something to flush (44 R384) is a DPROC with Z_BLOCK, whose effects all stand; the new level and strategy
follow only if it left no input and no uncoded byte. -/
def Obligations.DparamsFlushesFirst : Prop :=
  ∀ (k b : BitVec 8) (s u : State) (d d' : DState) (level strategy : Nat),
    k.toNat < s.params.nctx → (s.ctx k.toNat).slot = .deflate d →
    (s.arg0.toInt = level ∧ level ≤ 9 ∨ s.arg0.toInt = -1 ∧ level = 6) → s.arg1.toInt = strategy → strategy ≤ 4 →
    ¬ (strategy = d.tune.strategy ∧ levelFunc level = levelFunc d.tune.level) → d.lastFlush ≠ -2 →
    exec (.dproc k 5) s = .next u → (u.ctx k.toNat).slot = .deflate d' →
    exec (.dparams k b) s =
      .next
        (if u.result = 0xFFFFFFFE then u
        else if (u.ctx k.toNat).regs.availIn ≠ 0 ∨ (d'.strstart : Int) - d'.blockStart + d'.lookahead ≠ 0 then
          { u with result := 0xFFFFFFFB }
        else
          { u.setCtx k.toNat { (u.ctx k.toNat) with slot := .deflate (setTune level strategy d') } with result := 0 })

/-- DSETDICT on every stream that takes one (44 R385): a zlib stream before its header, and a raw or ended one at any time
with nothing left to code. The last min(n, W) bytes of the dictionary stand in the window before strstart, and before
them what stood before strstart, unless a raw stream's window is forgotten because the dictionary fills it; `slid` slides
of the window (41 R207) keep at least W - 262 of these bytes. TOTAL_IN grows by the bytes kept, a zlib stream's ADLER covers
all n bytes, and neither the cursors nor host memory change. That insert is then min(kept, 2), and block_start strstart,
for n = 0 too, is the pseudocode's (log entry 21). That an ended zlib stream, wrap -1, takes one is R385's corner case, which
60 R632 and R630's row do not have (log entry 25). -/
def Obligations.DsetdictLoadsTheDictionary : Prop :=
  ∀ (k b : BitVec 8) (s : State) (d : DState), k.toNat < s.params.nctx → (s.ctx k.toNat).slot = .deflate d → d.Ok →
    s.arg0 ≠ 0 → (d.wrap = 1 → d.status = .init) → d.lookahead = 0 → (s.ctx k.toNat).regs.TotalsOk s.params →
    let n := s.arg1.toNat
    let w := d.conf.wSize
    let kept := min n w
    let start := if w ≤ n ∧ d.wrap = 0 then 0 else d.strstart
    let r := (s.ctx k.toNat).regs
    ∃ (d' : DState) (slid : Nat),
      exec (.dsetdict k b) s =
        .next (s.finish k.toNat
          { status := .ok
            regs := { r with totalIn := addTotal s.params r.totalIn kept
                             adler := if d.wrap = 1 then adler32 r.adler (s.mem.readN s.arg0 n) else r.adler }
            slot := .deflate d', mem := s.mem }) ∧
      d'.strstart + slid * w = start + kept ∧ (slid ≠ 0 → w - 262 ≤ d'.strstart) ∧
      (∀ q, 1 ≤ q → q ≤ d'.strstart →
        d'.window.get (d'.strstart - q) =
          if q ≤ kept then s.mem.read (s.arg0 + BitVec.ofNat 32 (n - q)) else d.window.get (start + kept - q)) ∧
      d' = { d with strstart := d'.strstart, blockStart := d'.strstart, lookahead := 0, insert := min kept 2
                    matchLength := 2, prevLength := 2, matchAvailable := false
                    window := d'.window, head := d'.head, prev := d'.prev, insH := d'.insH
                    matchStart := d'.matchStart }

/-- DEND (44 R386): the slot is freed, the stream registers stay, and RESULT is Z_DATA_ERROR exactly when the status is
BUSY. -/
def Obligations.DendFreesTheSlot : Prop :=
  ∀ (k b : BitVec 8) (s : State) (d : DState), k.toNat < s.params.nctx → (s.ctx k.toNat).slot = .deflate d →
    exec (.dend k b) s =
      .next { s.setCtx k.toNat { regs := (s.ctx k.toNat).regs, slot := .free } with
              result := if d.status = .busy then 0xFFFFFFFD else 0 }

/-- DPROC's five entry checks, in R623's order (44 R379, R381; 60 R623, R630): a flush above 5; a null buffer or another
flush after the finish; no room; no progress possible, by R379's ranks of the flush values -2 to 5, the only ones last_flush
takes (`DState.Ok`); input after the finish, once the pending output is drained. -/
def Obligations.DprocEntryChecks : Prop :=
  ∀ (k b : BitVec 8) (s : State) (d : DState), k.toNat < s.params.nctx → (s.ctx k.toNat).slot = .deflate d →
    let r := (s.ctx k.toNat).regs
    let refused := r.nextOut = 0 ∨ (r.availIn ≠ 0 ∧ r.nextIn = 0) ∨ (d.status = .finish ∧ b ≠ 4)
    let ranks : List (Int × Int) := [(-2, -4), (-1, -2), (0, 0), (5, 1), (1, 2), (2, 4), (3, 6), (4, 8)]
    (5 < b.toNat → exec (.dproc k b) s = .next { s with result := 0xFFFFFFFE }) ∧
    (b.toNat ≤ 5 → refused →
      exec (.dproc k b) s =
        .next { s.setCtx k.toNat { regs := { r with msg := .streamError }, slot := .deflate d } with
                result := 0xFFFFFFFE }) ∧
    (b.toNat ≤ 5 → ¬ refused → r.availOut = 0 →
      exec (.dproc k b) s =
        .next { s.setCtx k.toNat { regs := { r with msg := .bufferError }, slot := .deflate d } with
                result := 0xFFFFFFFB }) ∧
    (∀ new old, ((b.toNat : Int), new) ∈ ranks → (d.lastFlush, old) ∈ ranks → new ≤ old →
      ¬ refused → r.availOut ≠ 0 → d.bw.pending = [] → r.availIn = 0 → b ≠ 4 →
      exec (.dproc k b) s =
        .next { s.setCtx k.toNat { regs := { r with msg := .bufferError }
                                   slot := .deflate { d with lastFlush := b.toNat } } with
                result := 0xFFFFFFFB }) ∧
    (b = 4 → ¬ refused → r.availOut ≠ 0 → d.status = .finish → r.availIn ≠ 0 →
      (d.bw.pending = [] →
        exec (.dproc k b) s =
          .next { s.setCtx k.toNat { regs := { r with msg := .bufferError }, slot := .deflate { d with lastFlush := 4 } } with
                  result := 0xFFFFFFFB }) ∧
      (d.bw.pending ≠ [] →
        let w := d.bw.biFlush
        let made := w.pending.length
        made < r.availOut.toNat →
        exec (.dproc k b) s =
          .next (s.finish k.toNat
            { status := .bufError
              regs := { r with nextOut := r.nextOut + BitVec.ofNat 32 made
                               availOut := r.availOut - BitVec.ofNat 32 made
                               totalOut := addTotal s.params r.totalOut made, msg := .bufferError }
              slot := .deflate { d with lastFlush := 4, bw := { w with pending := [] } }
              mem := s.mem.writeN r.nextOut w.pending })))

/-- What every DPROC that passes its entry checks accounts for (44 R382; 10 R38; 20 R105): it completes; the input
cursors move by the bytes consumed and the output cursors by the bytes written, TOTAL_IN and TOTAL_OUT count them, and
host memory changes only where the output went. The configuration stays. `m'.wf` is of the model's own form of memory (log
entry 2). -/
def Obligations.DprocAccounts : Prop :=
  ∀ (k b : BitVec 8) (s : State) (d : DState), k.toNat < s.params.nctx → (s.ctx k.toNat).slot = .deflate d →
    s.mem.wf = true → (s.ctx k.toNat).regs.TotalsOk s.params → b.toNat ≤ 5 →
    let r := (s.ctx k.toNat).regs
    r.nextOut ≠ 0 → (r.availIn ≠ 0 → r.nextIn ≠ 0) → (d.status = .finish → b = 4) → r.availOut ≠ 0 →
    ∃ (st : Status) (r' : Regs) (d' : DState) (m' : Memory) (used made : Nat),
      exec (.dproc k b) s =
        .next (s.finish k.toNat { status := st, regs := r', slot := .deflate d', mem := m' }) ∧
      st ∈ [Status.ok, .streamEnd, .bufError] ∧
      Moved r r' used made ∧ r'.totalIn = addTotal s.params r.totalIn used ∧
      r'.totalOut = addTotal s.params r.totalOut made ∧ SameOutside r.nextOut made s.mem m' ∧ m'.wf = true ∧
      d'.conf = d.conf ∧ d'.tune = d.tune

/-- DPROC with Z_FINISH once the final block is drained (44 R377, R381; 43 R325; 30 R143): on a zlib stream it queues the 4
bytes of ADLER, most significant first, writes as many of the bytes queued as there is room for, marks the trailer as
written, and returns Z_STREAM_END if none is left and Z_OK otherwise; after that, and on a raw stream, it returns
Z_STREAM_END and writes nothing. -/
def Obligations.DprocEndsTheStream : Prop :=
  ∀ (k : BitVec 8) (s : State) (d : DState), k.toNat < s.params.nctx → (s.ctx k.toNat).slot = .deflate d →
    let r := (s.ctx k.toNat).regs
    r.nextOut ≠ 0 → r.availOut ≠ 0 → r.availIn = 0 → d.status = .finish → d.lookahead = 0 → d.bw.pending = [] →
    (d.wrap ≤ 0 →
      exec (.dproc k 4) s =
        .next { s.setCtx k.toNat { regs := r, slot := .deflate { d with lastFlush := 4 } } with result := 1 }) ∧
    (d.wrap = 1 →
      let trailer : List Byte :=
        [r.adler.extractLsb' 24 8, r.adler.extractLsb' 16 8, r.adler.extractLsb' 8 8, r.adler.extractLsb' 0 8]
      let w := { d.bw with pending := trailer }.biFlush
      let made := min w.pending.length r.availOut.toNat
      (d.bw.biValid < 8 → w = { d.bw with pending := trailer }) ∧
      exec (.dproc k 4) s =
        .next (s.finish k.toNat
          { status := if made = w.pending.length then .streamEnd else .ok
            regs := { r with nextOut := r.nextOut + BitVec.ofNat 32 made
                             availOut := r.availOut - BitVec.ofNat 32 made
                             totalOut := addTotal s.params r.totalOut made }
            slot := .deflate { d with lastFlush := 4, wrap := -1, bw := { w with pending := w.pending.drop made } }
            mem := s.mem.writeN r.nextOut (w.pending.take made) }))

/-- A whole input compressed at level 0 (44 R370; 42 R265; 30 R145 to R148): a fresh raw stream and one DPROC with
Z_FINISH, with room for it, write one final stored block: the header byte 01, LEN, NLEN, then the input as it stands in
memory once the header is written. -/
def Obligations.DprocStoresTheInput : Prop :=
  ∀ (k : BitVec 8) (s : State) (d : DState), k.toNat < s.params.nctx → (s.ctx k.toNat).slot = .deflate d →
    let r := (s.ctx k.toNat).regs
    let n := r.availIn.toNat
    r.TotalsOk s.params → d.wrap = 0 → d.tune.level = 0 → d.status = .init → d.strstart = 0 → d.blockStart = 0 →
    d.bw = { biBuf := 0, biValid := 0, pending := [] } →
    r.nextOut ≠ 0 → (n ≠ 0 → r.nextIn ≠ 0) → n ≤ 65535 → n + 5 ≤ r.availOut.toNat →
    let len : BitVec 16 := BitVec.ofNat 16 n
    let headed := s.mem.writeN r.nextOut
      [1, len.extractLsb' 0 8, len.extractLsb' 8 8, (~~~len).extractLsb' 0 8, (~~~len).extractLsb' 8 8]
    ∃ d' : DState,
      exec (.dproc k 4) s =
        .next (s.finish k.toNat
          { status := .streamEnd
            regs := { r with nextIn := r.nextIn + r.availIn, availIn := 0
                             nextOut := r.nextOut + BitVec.ofNat 32 (n + 5)
                             availOut := r.availOut - BitVec.ofNat 32 (n + 5)
                             totalIn := addTotal s.params r.totalIn n
                             totalOut := addTotal s.params r.totalOut (n + 5) }
            slot := .deflate d'
            mem := headed.writeN (r.nextOut + 5) (headed.readN r.nextIn n) }) ∧
      d'.status = .finish

/-! ### The I-engine: its pieces -/

/-- UPDATEWINDOW (48 R580, R581, R586) makes the history the last bytes of the old history followed by the bytes
appended, as many as the window holds, and keeps the window's invariants. That a window created here has 2^min(wbits, 15)
bytes, not R581's 2^wbits, and that `WindowOk` has 2^15 for the largest, is what 48 R589 permits and log entry 10 chooses. -/
def Obligations.UpdateWindowAppendsToTheHistory : Prop :=
  ∀ (m : Memory) (stop : Word) (n : Nat) (i : IState), i.WindowOk →
    let i' := updateWindow m stop n i
    i'.WindowOk ∧ i'.wsize = (if i.wsize = 0 then 2 ^ min i.wbits 15 else i.wsize) ∧
    i'.history = lastN i'.wsize (i.history ++ m.readN (stop - BitVec.ofNat 32 n) n) ∧
    i' = { i with window := i'.window, wsize := i'.wsize, whave := i'.whave, wnext := i'.wnext }

/-- MATCH_COPY (48 R587, R588; the history is R580's), `seen` being the history and, after it, this call's output. A match
whose distance reaches into `seen` writes, at put, what stands that distance back in `seen`, repeating it when the match is
longer; from the window it goes no further than the window's end, wnext, or the match's; it always writes something. A
distance beyond `seen` is MSG 16 and BAD, or in the lenient mode zeros, and LEN when they end the match. No byte changes
but those written (`m'.wf` is log entry 2's). An overlapping copy (R587's output part) repeats its last `offset` bytes. -/
def Obligations.MatchCopyWritesTheHistory : Prop :=
  (∀ (m : Memory) (put : Word) (offset n : Nat), m.wf = true → 1 ≤ offset → offset + n ≤ 2 ^ 32 →
    let src := put - BitVec.ofNat 32 offset
    (∀ j < n, (copyBytes m put src n).read (put + BitVec.ofNat 32 j) = m.read (src + BitVec.ofNat 32 (j % offset))) ∧
    SameOutside put n m (copyBytes m put src n)) ∧
  ∀ x : IRun, x.i.WindowOk → x.mem.wf = true → x.left ≤ x.out → x.out < 2 ^ 32 →
    1 ≤ x.i.offset → 1 ≤ x.i.length → 1 ≤ x.left →
    let done := x.out - x.left
    let seen := x.i.history ++ x.mem.readN (x.put - BitVec.ofNat 32 done) done
    let back := x.i.offset - done
    let writes (n : Nat) (byte : Nat → Option Byte) (mode : Mode) : Prop :=
      1 ≤ n ∧ ∃ m' : Memory,
        x.matchCopy = { x with mem := m', left := x.left - n, put := x.put + BitVec.ofNat 32 n
                               i := { x.i with length := x.i.length - n, mode := mode } } ∧
        m'.wf = true ∧ SameOutside x.put n x.mem m' ∧ ∀ j < n, some (m'.read (x.put + BitVec.ofNat 32 j)) = byte j
    (x.i.offset ≤ seen.length →
      let most := if x.i.offset ≤ done then x.i.length else if x.i.wnext < back then back - x.i.wnext else back
      writes (min (min most x.i.length) x.left) (fun j => seen[seen.length - x.i.offset + j % x.i.offset]?) x.i.mode) ∧
    (seen.length < x.i.offset → x.i.sane = true →
      x.matchCopy = { x with regs := { x.regs with msg := .distanceTooFar }, i := { x.i with mode := .BAD } }) ∧
    (seen.length < x.i.offset → x.i.sane = false →
      let n := min (min (back - x.i.whave) x.i.length) x.left
      writes n (fun _ => some 0) (if x.i.length = n then .LEN else x.i.mode))

/-- SYNCSEARCH (47 R544) from no marker byte seen stops just after the first marker, and reports 4 exactly when there is
one; otherwise it examines everything. -/
def Obligations.SyncSearchFindsTheFirstMarker : Prop :=
  ∀ bs : List Byte,
    let (got, n) := syncSearch bs 0 0
    (got = 4 ↔ ∃ e, e ≤ bs.length ∧ MarkerEndsAt bs e) ∧
    (got = 4 → n ≤ bs.length ∧ MarkerEndsAt bs n ∧ ∀ e < n, ¬ MarkerEndsAt bs e) ∧
    (got ≠ 4 → n = bs.length ∧ got < 4)

/-! ### The I-engine: its commands -/

/-- IINIT with a valid windowBits (47 R540, R541; 70 R671): a fresh I-engine; the cursors stay. -/
def Obligations.IinitStartsAStream : Prop :=
  ∀ (k b : BitVec 8) (s : State) (w : Nat) (raw : Bool), k.toNat < s.params.nctx →
    s.arg0.toInt = (if raw then -(w : Int) else w) → w ≤ 15 → (8 ≤ w ∨ (w = 0 ∧ raw = false)) →
    ∃ i : IState,
      exec (.iinit k b) s =
        .next (s.finish k.toNat
          { status := .ok
            regs := { (s.ctx k.toNat).regs with
              totalIn := 0, totalOut := 0, adler := if raw then 0 else 1, dataType := 0, msg := .none }
            slot := .inflate i, mem := s.mem }) ∧
      i.mode = .HEAD ∧ i.wrap = (if raw then 0 else 5) ∧ i.wbits = w ∧ i.flags = -1 ∧ i.havedict = false ∧
      i.last = false ∧ i.check = 0 ∧ i.dmax = 32768 ∧ i.hold = 0 ∧ i.bits = 0 ∧ i.wsize = 0 ∧ i.whave = 0 ∧
      i.wnext = 0 ∧ i.lencode = { tbl := .codes, off := 0 } ∧ i.distcode = { tbl := .codes, off := 0 } ∧
      i.lenbits = 0 ∧ i.distbits = 0 ∧ i.length = 0 ∧ i.offset = 0 ∧ i.extra = 0 ∧ i.was = 0 ∧ i.sane = true ∧
      i.haveCnt = 0 ∧ ∀ j, i.window.get j = 0 ∧ i.codes.get j = { op := 0, bits := 0, val := 0 } ∧ i.lens.get j = 0

/-- IRESET (47 R541): a new stream with the same wrap and wbits. -/
def Obligations.IresetRestartsTheStream : Prop :=
  ∀ (k b : BitVec 8) (s : State) (i : IState), k.toNat < s.params.nctx → (s.ctx k.toNat).slot = .inflate i →
    let r := (s.ctx k.toNat).regs
    exec (.ireset k b) s =
      .next (s.finish k.toNat
        { status := .ok
          regs := { r with totalIn := 0, totalOut := 0, msg := .none
                           adler := if i.wrap = 0 then r.adler else if i.wrap.getLsbD 0 then 1 else 0 }
          slot := .inflate
            { i with wsize := 0, whave := 0, wnext := 0, mode := .HEAD, last := false, havedict := false, flags := -1
                     dmax := 32768, hold := 0, bits := 0, lencode := { tbl := .codes, off := 0 }
                     distcode := { tbl := .codes, off := 0 }, sane := true, length := 0, offset := 0, extra := 0
                     was := 0, check := 0 }
          mem := s.mem })

/-- IPROC's entry checks (47 R501): RESULT alone changes. -/
def Obligations.IprocEntryChecks : Prop :=
  ∀ (k b : BitVec 8) (s : State) (i : IState), (s.ctx k.toNat).slot = .inflate i →
    let r := (s.ctx k.toNat).regs
    (6 < b.toNat ∨ r.nextOut = 0 ∨ (r.nextIn = 0 ∧ r.availIn ≠ 0)) →
    exec (.iproc k b) s = .next { s with result := 0xFFFFFFFE }

/-- What every IPROC that passes its entry checks accounts for (47 R503, R511; 10 R37, R38; 20 R105): it completes with one
of five statuses in RESULT (00 R14); the cursors move by the bytes consumed and written, TOTAL_IN and TOTAL_OUT count them
and DATA_TYPE reports the bits held, `last` and the mode (R37), but for the Z_NEED_DICT exit, which leaves TOTAL_IN and
DATA_TYPE as they were; and host memory changes only where the output went. `m'.wf` is of the model's own form of memory
(log entry 2). -/
def Obligations.IprocAccounts : Prop :=
  ∀ (k b : BitVec 8) (s : State) (i : IState), k.toNat < s.params.nctx → (s.ctx k.toNat).slot = .inflate i →
    s.mem.wf = true → i.mode.Entered → i.mode ≠ .SYNC → b.toNat ≤ 6 →
    let r := (s.ctx k.toNat).regs
    r.nextOut ≠ 0 → (r.availIn ≠ 0 → r.nextIn ≠ 0) →
    ∃ (st : Status) (result : Word) (r' : Regs) (i' : IState) (m' : Memory) (used made : Nat),
      exec (.iproc k b) s =
        .next { s.finish k.toNat { status := st, regs := r', slot := .inflate i', mem := m' } with result := result } ∧
      (st, result) ∈ [(Status.ok, (0 : Word)), (.streamEnd, 1), (.needDict, 2), (.dataError, 0xFFFFFFFD),
        (.bufError, 0xFFFFFFFB)] ∧
      Moved r r' used made ∧ SameOutside r.nextOut made s.mem m' ∧ m'.wf = true ∧
      (st = .needDict → r'.totalIn = r.totalIn ∧ r'.dataType = r.dataType ∧ i'.mode = .DICT) ∧
      (st ≠ .needDict → r'.totalIn = addTotal s.params r.totalIn used ∧
        r'.totalOut = addTotal s.params r.totalOut made ∧
        r'.dataType = BitVec.ofNat 32 (i'.bits + (if i'.last then 64 else 0) + (if i'.mode = .TYPE then 128 else 0)
          + if i'.mode = .LEN_ ∨ i'.mode = .COPY_ then 256 else 0)) ∧
      (st = .ok → b ≠ 4 ∧ used + made ≠ 0) ∧
      (st = .streamEnd → i'.mode = .DONE) ∧ (st = .dataError → i'.mode = .BAD)

/-- A whole stored stream decompressed (47 R512 to R514, R500 to R503; 30 R145, R148; 70 R680): a fresh raw I-engine and
one IPROC, its input a final stored block and its output elsewhere with room for the data, copy the data, consume the
block and end the stream; a Z_BLOCK or Z_TREES would stop at the block's end. -/
def Obligations.IprocReadsAStoredStream : Prop :=
  ∀ (k b : BitVec 8) (s : State) (i : IState) (n : Nat), k.toNat < s.params.nctx →
    (s.ctx k.toNat).slot = .inflate i → i.WindowOk → i.mode = .HEAD → i.last = false → i.wrap = 0 → i.hold = 0 →
    i.bits = 0 → s.mem.wf = true → b.toNat ≤ 4 →
    let r := (s.ctx k.toNat).regs
    let len : BitVec 16 := BitVec.ofNat 16 n
    r.nextOut ≠ 0 → r.nextIn ≠ 0 → n ≤ 65535 → r.availIn.toNat = n + 5 → n ≤ r.availOut.toNat →
    s.mem.readN r.nextIn 5 =
      [1, len.extractLsb' 0 8, len.extractLsb' 8 8, (~~~len).extractLsb' 0 8, (~~~len).extractLsb' 8 8] →
    BuffersApart r.nextIn (n + 5) r.nextOut n →
    ∃ i' : IState,
      exec (.iproc k b) s =
        .next (s.finish k.toNat
          { status := .streamEnd
            regs := { r with nextIn := r.nextIn + r.availIn, availIn := 0
                             nextOut := r.nextOut + BitVec.ofNat 32 n, availOut := r.availOut - BitVec.ofNat 32 n
                             totalIn := addTotal s.params r.totalIn (n + 5)
                             totalOut := addTotal s.params r.totalOut n
                             dataType := 64 }
            slot := .inflate i'
            mem := s.mem.writeN r.nextOut (s.mem.readN (r.nextIn + 5) n) }) ∧
      i'.mode = .DONE ∧ i'.last = true ∧ i'.bits = 0

/-- The modes that end a stream (47 R529, R530): BAD returns Z_DATA_ERROR and DONE, which LENGTH passes to, Z_STREAM_END,
through the common exit, which consumes and writes nothing and reports DATA_TYPE; MEM and the modes that are not entered
return at once and change nothing else. -/
def Obligations.IprocTerminalModes : Prop :=
  ∀ (k b : BitVec 8) (s : State) (i : IState), k.toNat < s.params.nctx → (s.ctx k.toNat).slot = .inflate i →
    i.WindowOk → (s.ctx k.toNat).regs.TotalsOk s.params → b.toNat ≤ 6 →
    let r := (s.ctx k.toNat).regs
    let reported := { r with dataType := BitVec.ofNat 32 (i.bits + if i.last then 64 else 0) }
    r.nextOut ≠ 0 → (r.availIn ≠ 0 → r.nextIn ≠ 0) →
    (i.mode = .BAD →
      exec (.iproc k b) s =
        .next { s.setCtx k.toNat { regs := reported, slot := .inflate i } with result := 0xFFFFFFFD }) ∧
    (i.mode = .LENGTH ∨ i.mode = .DONE →
      exec (.iproc k b) s =
        .next { s.setCtx k.toNat { regs := reported, slot := .inflate { i with mode := .DONE } } with result := 1 }) ∧
    (i.mode = .MEM → exec (.iproc k b) s = .next { s with result := 0xFFFFFFFC }) ∧
    (i.mode ∈ [Mode.SYNC, .FLAGS, .TIME, .OS, .EXLEN, .EXTRA, .NAME, .COMMENT, .HCRC] →
      exec (.iproc k b) s = .next { s with result := 0xFFFFFFFE })

/-- ISETDICT (47 R542; 48 R583): the check of the dictionary, and the dictionary appended to the history. That a window
created here has 2^min(wbits, 15) bytes, not R581's 2^wbits, is what 48 R589 permits and log entry 10 chooses. -/
def Obligations.IsetdictAppendsToTheHistory : Prop :=
  ∀ (k b : BitVec 8) (s : State) (i : IState), k.toNat < s.params.nctx → (s.ctx k.toNat).slot = .inflate i →
    i.WindowOk →
    let dict := s.mem.readN s.arg0 s.arg1.toNat
    (i.wrap ≠ 0 ∧ i.mode ≠ .DICT → exec (.isetdict k b) s = .next { s with result := 0xFFFFFFFE }) ∧
    (i.mode = .DICT ∧ adler32 1 dict ≠ i.check → exec (.isetdict k b) s = .next { s with result := 0xFFFFFFFD }) ∧
    ((i.wrap = 0 ∨ i.mode = .DICT) ∧ (i.mode = .DICT → adler32 1 dict = i.check) →
      ∃ i' : IState,
        exec (.isetdict k b) s =
          .next { s.setCtx k.toNat { regs := (s.ctx k.toNat).regs, slot := .inflate i' } with result := 0 } ∧
        i'.history = lastN i'.wsize (i.history ++ dict) ∧
        i'.wsize = (if i.wsize = 0 then 2 ^ min i.wbits 15 else i.wsize) ∧
        i' = { i with havedict := true, window := i'.window, wsize := i'.wsize, whave := i'.whave, wnext := i'.wnext })

/-- ISYNC in any mode (47 R543, R544; leaving DONE is log entry 22): it searches the whole bytes held in `hold`, or, in mode
SYNC, goes on from the marker bytes already seen, and then the input. With nothing to search, Z_BUF_ERROR and no change;
without the marker, Z_DATA_ERROR, all input consumed, mode SYNC and the count of marker bytes the search ends with; with
it, the input consumed up to the marker's end and the stream restarted in TYPE, raw when no header was read. -/
def Obligations.IsyncFindsTheMarker : Prop :=
  ∀ (k b : BitVec 8) (s : State) (i : IState), k.toNat < s.params.nctx → (s.ctx k.toNat).slot = .inflate i → i.SyncOk →
    let r := (s.ctx k.toNat).regs
    let marker : List Byte := [0x00, 0x00, 0xFF, 0xFF]
    let before : List Byte :=
      if i.mode = .SYNC then marker.take i.haveCnt
      else (List.range (i.bits / 8)).map fun j => (i.hold >>> (i.bits % 8 + 8 * j)).extractLsb' 0 8
    let all := before ++ s.mem.readN r.nextIn r.availIn.toNat
    (r.availIn = 0 ∧ i.bits < 8 → exec (.isync k b) s = .next { s with result := 0xFFFFFFFB }) ∧
    (¬ (r.availIn = 0 ∧ i.bits < 8) → (∀ e ≤ all.length, ¬ MarkerEndsAt all e) →
      ∃ got < 4,
        lastN got all = marker.take got ∧ (∀ g < 4, got < g → lastN g all ≠ marker.take g) ∧
        exec (.isync k b) s =
          .next (s.finish k.toNat
            { status := .dataError, regs := r.consume s.params r.availIn.toNat
              slot := .inflate { i with mode := .SYNC, hold := i.hold >>> i.bits, bits := 0, haveCnt := got }
              mem := s.mem })) ∧
    (¬ (r.availIn = 0 ∧ i.bits < 8) → ∀ e ≤ all.length, MarkerEndsAt all e → (∀ e' < e, ¬ MarkerEndsAt all e') →
      ∃ i' : IState,
        let wrap : BitVec 3 := if i.flags = -1 then 0 else i.wrap &&& 3
        exec (.isync k b) s =
          .next (s.finish k.toNat
            { status := .ok
              regs := { r.consume s.params (e - before.length) with
                msg := .none
                adler := if wrap = 0 then r.adler else if wrap.getLsbD 0 then 1 else 0 }
              slot := .inflate i', mem := s.mem }) ∧
        i'.mode = .TYPE ∧ i'.wrap = wrap ∧ i'.flags = i.flags ∧ i'.wbits = i.wbits ∧ i'.whave = 0 ∧ i'.wsize = 0 ∧
        i'.wnext = 0 ∧ i'.last = false ∧ i'.havedict = false ∧ i'.sane = true ∧ i'.bits = 0 ∧ i'.hold = 0)

/-- ICOPY (47 R545): Z_STREAM_ERROR and no change for a destination that is no context; else the destination becomes the
source, registers and private state. -/
def Obligations.IcopyDuplicates : Prop :=
  ∀ (k b : BitVec 8) (s : State) (i : IState), k.toNat < s.params.nctx → (s.ctx k.toNat).slot = .inflate i →
    (s.params.nctx ≤ b.toNat → exec (.icopy k b) s = .next { s with result := 0xFFFFFFFE }) ∧
    (b.toNat < s.params.nctx →
      exec (.icopy k b) s = .next { s.setCtx b.toNat (s.ctx k.toNat) with result := 0 } ∧
      (b = k → exec (.icopy k b) s = .next { s with result := 0 }))

/-- IUNDERMINE (47 R546; 10 R78): the lenient mode where the build has it; else Z_DATA_ERROR and `sane` stays 1. -/
def Obligations.IundermineSetsSane : Prop :=
  ∀ (k b : BitVec 8) (s : State) (i : IState), k.toNat < s.params.nctx → (s.ctx k.toNat).slot = .inflate i →
    exec (.iundermine k b) s =
      .next
        { s.setCtx k.toNat
            { regs := (s.ctx k.toNat).regs
              slot := .inflate { i with sane := !s.params.allowTooFar || decide (b = 0) } } with
          result := if s.params.allowTooFar then 0 else 0xFFFFFFFD }

/-- IEND (47 R547): the slot is freed, the stream registers stay, in every mode. -/
def Obligations.IendFreesTheSlot : Prop :=
  ∀ (k b : BitVec 8) (s : State) (i : IState), k.toNat < s.params.nctx → (s.ctx k.toNat).slot = .inflate i →
    exec (.iend k b) s =
      .next { s.setCtx k.toNat { regs := (s.ctx k.toNat).regs, slot := .free } with result := 0 }

/-! ### The elements of the wire format -/

/-- The four block headers (30 R145; 47 R512; log entry 5), on an I-engine that reads a block header with room for its 3 bits: BFINAL
goes to `last`, BTYPE picks the mode, and a fixed block selects the fixed tables. -/
def Obligations.BlockHeaderElements : Prop :=
  ∀ (s : State) (i : IState) (f : Bool), (s.ctx s.cur).slot = .inflate i → i.HoldOk → i.bits ≤ 29 →
    (i.mode = .TYPE ∨ i.mode = .TYPEDO) → i.last = false →
    let r := (s.ctx s.cur).regs
    exec (.blkStored f) s =
      .next (s.setCtx s.cur { regs := r, slot := .inflate { i with last := f, mode := .STORED } }) ∧
    exec (.blkFixed f) s =
      .next (s.setCtx s.cur
        { regs := r
          slot := .inflate { i with last := f, mode := .LEN_, lencode := { tbl := .fixedL, off := 0 }, lenbits := 9
                                    distcode := { tbl := .fixedD, off := 0 }, distbits := 5 } }) ∧
    exec (.blkDynamic f) s =
      .next (s.setCtx s.cur { regs := r, slot := .inflate { i with last := f, mode := .TABLE } }) ∧
    exec (.blkReserved f) s =
      .next (s.setCtx s.cur
        { regs := { r with msg := .blockType }, slot := .inflate { i with last := f, mode := .BAD } })

/-- The zlib header (30 R141, R158; 47 R510; log entry 5), on a fresh zlib I-engine: MSG 3 when the 16 bits are no multiple of
31, MSG 4 when CM is not 8, which the value of such a header offered to the machine shows, MSG 5 when the window is too
large, else the window size, ADLER = 1, and DICTID or TYPE. -/
def Obligations.ZlibHeaderElement : Prop :=
  ∀ (s : State) (i : IState) (cinfo : BitVec 4) (flevel : BitVec 2) (fdict : Bool) (fcheck : BitVec 5),
    (s.ctx s.cur).slot = .inflate i → i.mode = .HEAD → i.wrap.getLsbD 0 = true → i.hold = 0 → i.bits = 0 →
    let r := (s.ctx s.cur).regs
    let cmf := cinfo.toNat * 16 + 8
    let flg := flevel.toNat * 64 + fdict.toNat * 32 + fcheck.toNat
    let len := cinfo.toNat + 8
    let wbits := if i.wbits = 0 then len else i.wbits
    let run (r' : Regs) (i' : IState) : Prop :=
      exec (.zlibHdr cinfo flevel fdict fcheck) s = .next (s.setCtx s.cur { regs := r', slot := .inflate i' })
    ((cmf * 256 + flg) % 31 ≠ 0 →
      run { r with msg := .headerCheck }
        { i with mode := .BAD, hold := BitVec.ofNat 32 (cmf + flg * 256), bits := 16 }) ∧
    ((cmf * 256 + flg) % 31 = 0 → (15 < len ∨ wbits < len) →
      run { r with msg := .windowSize }
        { i with mode := .BAD, wbits := wbits, hold := BitVec.ofNat 32 (cinfo.toNat + flg * 16), bits := 12 }) ∧
    ((cmf * 256 + flg) % 31 = 0 → len ≤ 15 → len ≤ wbits →
      run { r with adler := 1 }
        { i with mode := if fdict then .DICTID else .TYPE, wbits := wbits, dmax := 2 ^ len, flags := 0, check := 1
                 hold := 0, bits := 0 }) ∧
    ∀ (u : State) (k : BitVec 8) (v : Word) (rest : List Input),
      u.inputs = .wire k .zlibHdr v :: rest → s = { u with inputs := rest, cur := k.toNat } → v.toNat < 2 ^ 16 →
      v.toNat / 2 ^ 8 % 2 ^ 4 ≠ 8 →
      step u = .next (s.setCtx s.cur
        { regs := { r with msg := if v.toNat % 31 ≠ 0 then .headerCheck else .unknownMethod }
          slot := .inflate { i with mode := .BAD, hold := BitVec.ofNat 32 (v.toNat / 2 ^ 8 + v.toNat % 2 ^ 8 * 2 ^ 8)
                                    bits := 16 } })

/-- The two Adler-32 fields, most significant byte first, on an I-engine that reads them with an empty accumulator (30
R142, R143; 47 R511, R528; log entry 5). The DICTID goes to ADLER and to the check value, and the dictionary is waited for. The trailer
gives MSG 17 when it is checked and wrong; else the stream is over. -/
def Obligations.AdlerElements : Prop :=
  ∀ (s : State) (i : IState) (v : Word), (s.ctx s.cur).slot = .inflate i → i.hold = 0 → i.bits = 0 →
    let r := (s.ctx s.cur).regs
    let wire := v.extractLsb' 0 8 ++ v.extractLsb' 8 8 ++ v.extractLsb' 16 8 ++ v.extractLsb' 24 8
    (i.mode = .DICTID →
      exec (.zlibDictid v) s =
        .next (s.setCtx s.cur
          { regs := { r with adler := v }, slot := .inflate { i with mode := .DICT, check := v } })) ∧
    (i.mode = .CHECK → i.wrap ≠ 0 → r.TotalsOk s.params →
      (i.wrap.getLsbD 2 = true → v ≠ i.check →
        exec (.zlibTrailer v) s =
          .next (s.setCtx s.cur
            { regs := { r with msg := .dataCheck }
              slot := .inflate { i with mode := .BAD, hold := wire, bits := 32 } })) ∧
      ((i.wrap.getLsbD 2 = true → v = i.check) →
        exec (.zlibTrailer v) s =
          .next (s.setCtx s.cur { regs := r, slot := .inflate { i with mode := .LENGTH } })))

/-- LEN and NLEN (30 R148; 47 R513; log entry 5), on an I-engine that reads them with less than a byte held: the padding is dropped; a
stored block of LEN bytes, or MSG 7 when NLEN is not the complement. -/
def Obligations.StoredLengthsElement : Prop :=
  ∀ (s : State) (i : IState) (len nlen : BitVec 16), (s.ctx s.cur).slot = .inflate i → i.mode = .STORED → i.HoldOk →
    i.bits < 8 →
    (len = ~~~nlen →
      exec (.storedLen len nlen) s =
        .next (s.setCtx s.cur
          { regs := (s.ctx s.cur).regs
            slot := .inflate { i with mode := .COPY_, length := len.toNat, hold := 0, bits := 0 } })) ∧
    (len ≠ ~~~nlen →
      exec (.storedLen len nlen) s =
        .next (s.setCtx s.cur
          { regs := { (s.ctx s.cur).regs with msg := .storedLengths }
            slot := .inflate { i with mode := .BAD, hold := nlen ++ len, bits := 32 } }))

/-- The fixed lit/len codes (30 R149, R150; 47 R520; log entry 5), on an I-engine that decodes with the fixed table: a literal goes to
LIT, end-of-block to TYPE, a length with its base and extra bits to LENEXT, 286 and 287 to BAD with MSG 14. -/
def Obligations.FixedLitLenElements : Prop :=
  ∀ (s : State) (i : IState), (s.ctx s.cur).slot = .inflate i → i.HoldOk → i.bits + 9 ≤ 32 → (i.mode = .LEN ∨ i.mode = .LEN_) →
    i.lencode = { tbl := .fixedL, off := 0 } → i.lenbits = 9 →
    let r := (s.ctx s.cur).regs
    let literal (e : Instr) (n : Nat) : Prop :=
      exec e s = .next (s.setCtx s.cur { regs := r, slot := .inflate { i with mode := .LIT, length := n } })
    let length (e : Instr) (n : Nat) : Prop :=
      exec e s = .next (s.setCtx s.cur
        { regs := r
          slot := .inflate { i with mode := .LENEXT, length := if n = 285 then 258 else tableAt baseLength (n - 257) + 3
                                    extra := tableAt extraLbits (n - 257) } })
    (∀ x, literal (.fixLit0to15 x) x.toNat) ∧ (∀ x, literal (.fixLit16to79 x) (16 + x.toNat)) ∧
    (∀ x, literal (.fixLit80to143 x) (80 + x.toNat)) ∧ (∀ x, literal (.fixLit144to159 x) (144 + x.toNat)) ∧
    (∀ x, literal (.fixLit160to191 x) (160 + x.toNat)) ∧ (∀ x, literal (.fixLit192to255 x) (192 + x.toNat)) ∧
    (∀ x, x ≠ 0 → length (.fixLen257to263 x) (256 + x.toNat)) ∧ (∀ x, length (.fixLen264to271 x) (264 + x.toNat)) ∧
    (∀ x, length (.fixLen272to279 x) (272 + x.toNat)) ∧ (∀ x, x.toNat < 6 → length (.fixLen280to285 x) (280 + x.toNat)) ∧
    exec .fixEob s = .next (s.setCtx s.cur { regs := r, slot := .inflate { i with mode := .TYPE, length := 0 } }) ∧
    ∀ x, exec (.fixInvalid286to287 x) s =
      .next (s.setCtx s.cur
        { regs := { r with msg := .literalLengthCode }, slot := .inflate { i with mode := .BAD, length := 0 } })

/-- The fixed distance codes (30 R149, R151; 47 R522; log entry 5), on an I-engine that decodes with the fixed table. -/
def Obligations.FixedDistanceElements : Prop :=
  ∀ (s : State) (i : IState), (s.ctx s.cur).slot = .inflate i → i.HoldOk → i.bits + 5 ≤ 32 → i.mode = .DIST →
    i.distcode = { tbl := .fixedD, off := 0 } → i.distbits = 5 →
    let r := (s.ctx s.cur).regs
    let dist (e : Instr) (n : Nat) : Prop :=
      exec e s = .next (s.setCtx s.cur
        { regs := r
          slot := .inflate { i with mode := .DISTEXT, offset := tableAt baseDist n + 1, extra := tableAt extraDbits n } })
    (∀ x, dist (.fixDist0to15 x) x.toNat) ∧ (∀ x, x.toNat < 14 → dist (.fixDist16to29 x) (16 + x.toNat)) ∧
    ∀ x, exec (.fixDistInvalid x) s =
      .next (s.setCtx s.cur { regs := { r with msg := .distanceCode }, slot := .inflate { i with mode := .BAD } })

/-- A decoded symbol, whatever the tables (30 R150, R151; 47 R520, R522; log entry 5): of the lit/len alphabet while a lit/len symbol is
decoded, of the distance alphabet while a distance symbol is. -/
def Obligations.DecodedSymbols : Prop :=
  ∀ (s : State) (i : IState), (s.ctx s.cur).slot = .inflate i →
    let r := (s.ctx s.cur).regs
    let gives (e : Instr) (r' : Regs) (i' : IState) : Prop :=
      exec e s = .next (s.setCtx s.cur { regs := r', slot := .inflate i' })
    ((i.mode = .LEN ∨ i.mode = .LEN_) →
      (∀ byte, gives (.symLiteral byte) r { i with mode := .LIT, length := byte.toNat }) ∧
      gives .symEob r { i with mode := .TYPE, length := 0 } ∧
      (∀ x, 1 ≤ x.toNat → x.toNat ≤ 29 →
        gives (.symLength x) r
          { i with mode := .LENEXT
                   length := if x = 29 then 258 else tableAt baseLength (x.toNat - 1) + 3
                   extra := tableAt extraLbits (x.toNat - 1) }) ∧
      ∀ x, gives (.symLlInvalid x) { r with msg := .literalLengthCode } { i with mode := .BAD, length := 0 }) ∧
    (i.mode = .DIST →
      (∀ code, code.toNat < 30 →
        gives (.symDist code) r
          { i with mode := .DISTEXT, offset := tableAt baseDist code.toNat + 1
                   extra := tableAt extraDbits code.toNat }) ∧
      ∀ x, gives (.symDistInvalid x) { r with msg := .distanceCode } { i with mode := .BAD })

/-- A decoded code-length symbol (30 R152; 47 R516; log entry 5), on an I-engine that reads one with room for its extra bits: one
length, a repeat of the last, or a run of zeros; MSG 10 for a repeat with nothing before it or a run past the end. -/
def Obligations.CodeLengthSymbols : Prop :=
  ∀ (s : State) (i : IState), (s.ctx s.cur).slot = .inflate i → i.HoldOk → i.bits + 7 ≤ 32 → i.mode = .CODELENS →
    i.haveCnt < i.nlen + i.ndist →
    let r := (s.ctx s.cur).regs
    let run (e : Instr) (len n : Nat) : Prop :=
      (i.haveCnt + n ≤ i.nlen + i.ndist →
        exec e s = .next (s.setCtx s.cur
          { regs := r
            slot := .inflate { i with lens := i.lens.setList i.haveCnt (List.replicate n len)
                                      haveCnt := i.haveCnt + n } })) ∧
      (i.nlen + i.ndist < i.haveCnt + n →
        exec e s = .next (s.setCtx s.cur
          { regs := { r with msg := .bitLengthRepeat }, slot := .inflate { i with mode := .BAD } }))
    (∀ len, run (.clLength len) len.toNat 1) ∧
    (i.haveCnt ≠ 0 → ∀ x, run (.clRepeatPrev x) (i.lens.get (i.haveCnt - 1)) (3 + x.toNat)) ∧
    (i.haveCnt = 0 → ∀ x, exec (.clRepeatPrev x) s =
      .next (s.setCtx s.cur
        { regs := { r with msg := .bitLengthRepeat }
          slot := .inflate { i with mode := .BAD, hold := (i.hold <<< 2) ||| x.setWidth 32, bits := i.bits + 2 } })) ∧
    (∀ x, run (.clZerosShort x) 0 (3 + x.toNat)) ∧ ∀ x, run (.clZerosLong x) 0 (11 + x.toNat)

/-- A decode-table entry that a lookup has found (30 R170; 47 R516, R520, R522; log entry 5), its code bits being held: they are
dropped, and the class decides, in a lit/len table and, but for the link that op 0 to 15 is there (`TableLinks`), in a
distance table. In the code-length table `val` alone decides, whatever the class: below 16 a length; else a run whose extra
bits are held too, MSG 10 when there is nothing to repeat or the run goes past the end. -/
def Obligations.TableEntries : Prop :=
  ∀ (s : State) (i : IState) (bits : BitVec 8) (val : BitVec 16), (s.ctx s.cur).slot = .inflate i →
    bits.toNat ≤ i.bits →
    let r := (s.ctx s.cur).regs
    let drop (n : Nat) : IState := { i with hold := i.hold >>> n, bits := i.bits - n }
    let dropped := drop bits.toNat
    let gives (e : Instr) (r' : Regs) (i' : IState) : Prop :=
      exec e s = .next (s.setCtx s.cur { regs := r', slot := .inflate i' })
    ((i.mode = .LEN ∨ i.mode = .LEN_) →
      gives (.entLiteral bits val) r { dropped with mode := .LIT, length := val.toNat } ∧
      (∀ x, gives (.entBase x bits val) r { dropped with mode := .LENEXT, length := val.toNat, extra := x.toNat }) ∧
      gives (.entEob bits val) r { dropped with mode := .TYPE, length := val.toNat } ∧
      gives (.entInvalid bits val) { r with msg := .literalLengthCode } { dropped with mode := .BAD, length := val.toNat }) ∧
    (i.mode = .DIST →
      (∀ x, gives (.entBase x bits val) r { dropped with mode := .DISTEXT, offset := val.toNat, extra := x.toNat }) ∧
      ∀ e ∈ [Instr.entEob bits val, .entInvalid bits val],
        gives e { r with msg := .distanceCode } { dropped with mode := .BAD }) ∧
    (i.mode = .CODELENS → i.haveCnt < i.nlen + i.ndist → ∀ t x,
      ∀ e ∈ [Instr.entLiteral bits val, .entLink t bits val, .entBase x bits val, .entEob bits val, .entInvalid bits val],
        (val.toNat < 16 →
          gives e r { dropped with lens := i.lens.set i.haveCnt val.toNat, haveCnt := i.haveCnt + 1 }) ∧
        (val.toNat = 16 → i.haveCnt = 0 → bits.toNat + 2 ≤ i.bits →
          gives e { r with msg := .bitLengthRepeat } { dropped with mode := .BAD }) ∧
        ∀ extraLen len base,
          (val.toNat = 16 ∧ i.haveCnt ≠ 0 ∧ extraLen = 2 ∧ len = i.lens.get (i.haveCnt - 1) ∧ base = 3 ∨
            val.toNat = 17 ∧ extraLen = 3 ∧ len = 0 ∧ base = 3 ∨
            18 ≤ val.toNat ∧ extraLen = 7 ∧ len = 0 ∧ base = 11) →
          bits.toNat + extraLen ≤ i.bits →
          let n := base + i.hold.toNat / 2 ^ bits.toNat % 2 ^ extraLen
          (i.haveCnt + n ≤ i.nlen + i.ndist →
            gives e r
              { drop (bits.toNat + extraLen) with
                lens := i.lens.setList i.haveCnt (List.replicate n len), haveCnt := i.haveCnt + n }) ∧
          (i.nlen + i.ndist < i.haveCnt + n →
            gives e { r with msg := .bitLengthRepeat } { drop (bits.toNat + extraLen) with mode := .BAD }))

/-- A link that a lookup has found (30 R170; 47 R520, R522; log entry 5), the sub-table's entry being no link and its bits being held
too: both codes' bits are dropped, and the sub-table's entry decides. In a distance table an entry of op 0 is a link of no
index bits (R522). -/
def Obligations.TableLinks : Prop :=
  ∀ (s : State) (i : IState) (t : BitVec 4) (bits : BitVec 8) (val : BitVec 16), (s.ctx s.cur).slot = .inflate i →
    let r := (s.ctx s.cur).regs
    let link : Instr := if t = 0 then .entLiteral bits val else .entLink t bits val
    let sub (v : View) : Entry := i.codes.get (v.off + val.toNat + i.hold.toNat / 2 ^ bits.toNat % 2 ^ t.toNat)
    let dropped (e : Entry) : IState :=
      { i with hold := i.hold >>> (bits.toNat + e.bits.toNat), bits := i.bits - (bits.toNat + e.bits.toNat) }
    let gives (r' : Regs) (i' : IState) : Prop :=
      exec link s = .next (s.setCtx s.cur { regs := r', slot := .inflate i' })
    ((i.mode = .LEN ∨ i.mode = .LEN_) → t ≠ 0 → i.lencode.tbl = .codes →
      let e := sub i.lencode
      bits.toNat + e.bits.toNat ≤ i.bits →
      (e.op = 0 → gives r { dropped e with mode := .LIT, length := e.val.toNat }) ∧
      (16 ≤ e.op.toNat → e.op.toNat < 32 →
        gives r { dropped e with mode := .LENEXT, length := e.val.toNat, extra := e.op.toNat - 16 }) ∧
      (e.op = 96 → gives r { dropped e with mode := .TYPE, length := e.val.toNat }) ∧
      (e.op = 64 → gives { r with msg := .literalLengthCode } { dropped e with mode := .BAD, length := e.val.toNat })) ∧
    (i.mode = .DIST → i.distcode.tbl = .codes →
      let e := sub i.distcode
      bits.toNat + e.bits.toNat ≤ i.bits →
      (16 ≤ e.op.toNat → e.op.toNat < 32 →
        gives r { dropped e with mode := .DISTEXT, offset := e.val.toNat, extra := e.op.toNat - 16 }) ∧
      (e.op = 64 ∨ e.op = 96 → gives { r with msg := .distanceCode } { dropped e with mode := .BAD }))

/-- What the machine's door for wire elements (log entry 5) does with what is not the element the I-engine expects. RESULT is
Z_STREAM_ERROR and nothing else changes, as 60 R624, R630 (ISETDICT in another mode) and 30 R133 have it for commands: without
an I-engine; in a mode that reads no bits (47 R502), or with no room for them (10_state
R73), or with a part of a byte left in DICTID or CHECK, which read whole bytes; for a decoded symbol or a table entry where
none is looked up, and an entry whose bits are not held; for a symbol number outside its alphabet (30 R150, R152) and an
illegal command word. That this is so of elements is the model's own choice. Bits, whatever format they were offered in, are
the mode's: it takes those it reads, and the rest are held as if they had been there; when there are too few and no input,
they are held (45 R433, R438, R439). And an entry whose op byte is of no class of 30 R170 is of the one R170's order of tests
puts it in. -/
def Obligations.OutOfPlaceAndStrayValues : Prop :=
  let bitFormats : List Format :=
    [.zlibHdr, .dictid, .storedLen, .trailer, .blockHdr, .fixedLL7, .fixedLL8, .fixedLL9, .fixedDist]
  let room (i : IState) (n : Nat) : Prop := (if i.mode = .STORED then i.bits / 8 * 8 else i.bits) + n ≤ 32
  let reads (i : IState) (n : Nat) : Prop :=
    i.mode ∈ [Mode.HEAD, .DICTID, .TYPE, .TYPEDO, .STORED, .TABLE, .LENLENS, .CODELENS, .LEN_, .LEN, .LENEXT, .DIST, .DISTEXT,
      .CHECK] ∧ room i n ∧ (i.mode = .DICTID ∨ i.mode = .CHECK → (i.bits + n) % 8 = 0)
  let putFront (s : State) (i : IState) (n v : Nat) : State :=
    s.setCtx s.cur { s.ctx s.cur with
      slot := .inflate { i with hold := BitVec.ofNat 32 v ||| (i.hold <<< n), bits := i.bits + n } }
  ∀ (u s : State) (k : BitVec 8) (f : Format) (v : Word) (rest : List Input),
    u.inputs = .wire k f v :: rest → s = { u with inputs := rest, cur := k.toNat } →
    let turnedAway : Prop := step u = .next { s with result := 0xFFFFFFFE }
    ((f = .llSym ∧ 288 ≤ v.toNat % 2 ^ 9 ∨ f = .clSym ∧ 19 ≤ v.toNat % 2 ^ 5) → turnedAway) ∧
    (f = .cmd →
      (v.toNat / 2 ^ 24 ≠ 0 ∨
        v.toNat % 2 ^ 8 ∉ [0x01, 0x02, 0x03, 0x04, 0x05, 0x06, 0x11, 0x12, 0x13, 0x14, 0x15, 0x16, 0x17, 0x18]) →
      turnedAway) ∧
    (f ≠ .cmd → (∀ i, (s.ctx s.cur).slot ≠ .inflate i) → turnedAway) ∧
    ∀ i, (s.ctx s.cur).slot = .inflate i →
      let r := (s.ctx s.cur).regs
      let n := f.width
      let w := v.toNat % 2 ^ n
      let entryBits := v.toNat / 2 ^ 8 % 2 ^ 8
      ((f ∈ bitFormats ∧ ¬ reads i n ∨ f = .llSym ∧ i.mode ≠ .LEN ∧ i.mode ≠ .LEN_ ∨ f = .distSym ∧ i.mode ≠ .DIST ∨
          f = .clSym ∧ (i.mode ≠ .CODELENS ∨ i.nlen + i.ndist ≤ i.haveCnt) ∨
          f = .entry ∧ (i.bits < entryBits ∨
            i.mode ≠ .LEN ∧ i.mode ≠ .LEN_ ∧ i.mode ≠ .DIST ∧ (i.mode ≠ .CODELENS ∨ i.nlen + i.ndist ≤ i.haveCnt))) →
        turnedAway) ∧
      (f ∈ bitFormats → reads i n → i.mode ≠ .STORED → ∀ e, (encode e).1 ∈ bitFormats → (encode e).1.width ≤ n →
        wireBits f w % 2 ^ (encode e).1.width = wireBits (encode e).1 (encode e).2 →
        let m := (encode e).1.width
        step u = exec e (putFront s i (n - m) (wireBits f w / 2 ^ m))) ∧
      (f ∈ bitFormats → i.hold = 0 → i.bits = 0 → r.availIn = 0 →
        (i.mode = .HEAD ∧ i.wrap ≠ 0 ∧ n < 16 ∨ i.mode = .DICTID ∧ n < 32 ∧ n % 8 = 0 ∨ i.mode = .TABLE ∧ n < 14 ∨
          i.mode = .CHECK ∧ i.wrap ≠ 0 ∧ n < 32 ∧ n % 8 = 0 ∨
          i.mode = .LEN ∧ i.lencode = { tbl := .fixedL, off := 0 } ∧ i.lenbits = 9 ∧
            (f = .fixedLL7 ∧ 24 ≤ w ∨ f = .fixedLL8 ∧ 0xC8 ≤ w)) →
        step u = .next (putFront s i n (wireBits f w))) ∧
      (f = .entry → ∀ (op bits : BitVec 8) (val : BitVec 16), v = val ++ bits ++ op → 32 ≤ op.toNat →
        ((i.mode = .LEN ∨ i.mode = .LEN_) →
          step u = exec
            (if op.getLsbD 5 then .entEob bits val
            else if op.getLsbD 6 then .entInvalid bits val
            else .entBase (op.setWidth 4) bits val) s) ∧
        (i.mode = .DIST →
          step u = exec (if op.getLsbD 6 then .entInvalid bits val else .entBase (op.setWidth 4) bits val) s) ∧
        (i.mode = .CODELENS → step u = exec (.entInvalid bits val) s))
end

