-- ==== Sys2Proof/Laws/State.lean ====
section
/-! SUPPORT. What each record update of the model leaves in each field: one lemma a field, true by definition. -/

namespace Sys2Proof.Machine


/-! ### The machine -/

@[simp] theorem State.setResult_params (s : State) (st : Status) : (s.setResult st).params = s.params := rfl
@[simp] theorem State.setResult_arg0 (s : State) (st : Status) : (s.setResult st).arg0 = s.arg0 := rfl
@[simp] theorem State.setResult_arg1 (s : State) (st : Status) : (s.setResult st).arg1 = s.arg1 := rfl
@[simp] theorem State.setResult_arg2 (s : State) (st : Status) : (s.setResult st).arg2 = s.arg2 := rfl
@[simp] theorem State.setResult_arg3 (s : State) (st : Status) : (s.setResult st).arg3 = s.arg3 := rfl
@[simp] theorem State.setResult_result (s : State) (st : Status) : (s.setResult st).result = st.word := rfl
@[simp] theorem State.setResult_ctxs (s : State) (st : Status) : (s.setResult st).ctxs = s.ctxs := rfl
@[simp] theorem State.setResult_mem (s : State) (st : Status) : (s.setResult st).mem = s.mem := rfl
@[simp] theorem State.setResult_inputs (s : State) (st : Status) : (s.setResult st).inputs = s.inputs := rfl
@[simp] theorem State.setResult_readData (s : State) (st : Status) : (s.setResult st).readData = s.readData := rfl
@[simp] theorem State.setResult_cur (s : State) (st : Status) : (s.setResult st).cur = s.cur := rfl
@[simp] theorem State.setCtx_params (s : State) (k : Nat) (c : Ctx) : (s.setCtx k c).params = s.params := rfl
@[simp] theorem State.setCtx_arg0 (s : State) (k : Nat) (c : Ctx) : (s.setCtx k c).arg0 = s.arg0 := rfl
@[simp] theorem State.setCtx_arg1 (s : State) (k : Nat) (c : Ctx) : (s.setCtx k c).arg1 = s.arg1 := rfl
@[simp] theorem State.setCtx_arg2 (s : State) (k : Nat) (c : Ctx) : (s.setCtx k c).arg2 = s.arg2 := rfl
@[simp] theorem State.setCtx_arg3 (s : State) (k : Nat) (c : Ctx) : (s.setCtx k c).arg3 = s.arg3 := rfl
@[simp] theorem State.setCtx_result (s : State) (k : Nat) (c : Ctx) : (s.setCtx k c).result = s.result := rfl
@[simp] theorem State.setCtx_ctxs (s : State) (k : Nat) (c : Ctx) : (s.setCtx k c).ctxs = s.ctxs.set k c := rfl
@[simp] theorem State.setCtx_mem (s : State) (k : Nat) (c : Ctx) : (s.setCtx k c).mem = s.mem := rfl
@[simp] theorem State.setCtx_inputs (s : State) (k : Nat) (c : Ctx) : (s.setCtx k c).inputs = s.inputs := rfl
@[simp] theorem State.setCtx_readData (s : State) (k : Nat) (c : Ctx) : (s.setCtx k c).readData = s.readData := rfl
@[simp] theorem State.setCtx_cur (s : State) (k : Nat) (c : Ctx) : (s.setCtx k c).cur = s.cur := rfl
@[simp] theorem State.finish_params (s : State) (k : Nat) (r : Done) : (s.finish k r).params = s.params := rfl
@[simp] theorem State.finish_arg0 (s : State) (k : Nat) (r : Done) : (s.finish k r).arg0 = s.arg0 := rfl
@[simp] theorem State.finish_arg1 (s : State) (k : Nat) (r : Done) : (s.finish k r).arg1 = s.arg1 := rfl
@[simp] theorem State.finish_arg2 (s : State) (k : Nat) (r : Done) : (s.finish k r).arg2 = s.arg2 := rfl
@[simp] theorem State.finish_arg3 (s : State) (k : Nat) (r : Done) : (s.finish k r).arg3 = s.arg3 := rfl
@[simp] theorem State.finish_result (s : State) (k : Nat) (r : Done) : (s.finish k r).result = r.status.word := rfl
@[simp] theorem State.finish_ctxs (s : State) (k : Nat) (r : Done) :
    (s.finish k r).ctxs = s.ctxs.set k { regs := r.regs, slot := r.slot } := rfl
@[simp] theorem State.finish_mem (s : State) (k : Nat) (r : Done) : (s.finish k r).mem = r.mem := rfl
@[simp] theorem State.finish_inputs (s : State) (k : Nat) (r : Done) : (s.finish k r).inputs = s.inputs := rfl
@[simp] theorem State.finish_readData (s : State) (k : Nat) (r : Done) : (s.finish k r).readData = s.readData := rfl
@[simp] theorem State.finish_cur (s : State) (k : Nat) (r : Done) : (s.finish k r).cur = s.cur := rfl

/-! ### Stream registers -/

@[simp] theorem Regs.consume_nextIn (p : Params) (r : Regs) (n : Nat) :
    (r.consume p n).nextIn = r.nextIn + BitVec.ofNat 32 n := rfl
@[simp] theorem Regs.consume_availIn (p : Params) (r : Regs) (n : Nat) :
    (r.consume p n).availIn = r.availIn - BitVec.ofNat 32 n := rfl
@[simp] theorem Regs.consume_nextOut (p : Params) (r : Regs) (n : Nat) : (r.consume p n).nextOut = r.nextOut := rfl
@[simp] theorem Regs.consume_availOut (p : Params) (r : Regs) (n : Nat) : (r.consume p n).availOut = r.availOut := rfl
@[simp] theorem Regs.consume_totalIn (p : Params) (r : Regs) (n : Nat) :
    (r.consume p n).totalIn = addTotal p r.totalIn n := rfl
@[simp] theorem Regs.consume_totalOut (p : Params) (r : Regs) (n : Nat) : (r.consume p n).totalOut = r.totalOut := rfl
@[simp] theorem Regs.consume_adler (p : Params) (r : Regs) (n : Nat) : (r.consume p n).adler = r.adler := rfl
@[simp] theorem Regs.consume_dataType (p : Params) (r : Regs) (n : Nat) : (r.consume p n).dataType = r.dataType := rfl
@[simp] theorem Regs.consume_msg (p : Params) (r : Regs) (n : Nat) : (r.consume p n).msg = r.msg := rfl
@[simp] theorem Regs.produce_nextIn (p : Params) (r : Regs) (n : Nat) : (r.produce p n).nextIn = r.nextIn := rfl
@[simp] theorem Regs.produce_availIn (p : Params) (r : Regs) (n : Nat) : (r.produce p n).availIn = r.availIn := rfl
@[simp] theorem Regs.produce_nextOut (p : Params) (r : Regs) (n : Nat) :
    (r.produce p n).nextOut = r.nextOut + BitVec.ofNat 32 n := rfl
@[simp] theorem Regs.produce_availOut (p : Params) (r : Regs) (n : Nat) :
    (r.produce p n).availOut = r.availOut - BitVec.ofNat 32 n := rfl
@[simp] theorem Regs.produce_totalIn (p : Params) (r : Regs) (n : Nat) : (r.produce p n).totalIn = r.totalIn := rfl
@[simp] theorem Regs.produce_totalOut (p : Params) (r : Regs) (n : Nat) :
    (r.produce p n).totalOut = addTotal p r.totalOut n := rfl
@[simp] theorem Regs.produce_adler (p : Params) (r : Regs) (n : Nat) : (r.produce p n).adler = r.adler := rfl
@[simp] theorem Regs.produce_dataType (p : Params) (r : Regs) (n : Nat) : (r.produce p n).dataType = r.dataType := rfl
@[simp] theorem Regs.produce_msg (p : Params) (r : Regs) (n : Nat) : (r.produce p n).msg = r.msg := rfl
@[simp] theorem resetDeflateRegs_nextIn (r : Regs) : (resetDeflateRegs r).nextIn = r.nextIn := rfl
@[simp] theorem resetDeflateRegs_availIn (r : Regs) : (resetDeflateRegs r).availIn = r.availIn := rfl
@[simp] theorem resetDeflateRegs_nextOut (r : Regs) : (resetDeflateRegs r).nextOut = r.nextOut := rfl
@[simp] theorem resetDeflateRegs_availOut (r : Regs) : (resetDeflateRegs r).availOut = r.availOut := rfl
@[simp] theorem resetDeflateRegs_totalIn (r : Regs) : (resetDeflateRegs r).totalIn = 0 := rfl
@[simp] theorem resetDeflateRegs_totalOut (r : Regs) : (resetDeflateRegs r).totalOut = 0 := rfl
@[simp] theorem resetDeflateRegs_adler (r : Regs) : (resetDeflateRegs r).adler = 1 := rfl
@[simp] theorem resetDeflateRegs_dataType (r : Regs) : (resetDeflateRegs r).dataType = zUnknown := rfl
@[simp] theorem resetDeflateRegs_msg (r : Regs) : (resetDeflateRegs r).msg = .none := rfl
@[simp] theorem resetInflateRegs_nextIn (v : BitVec 3) (r : Regs) : (resetInflateRegs v r).nextIn = r.nextIn := rfl
@[simp] theorem resetInflateRegs_availIn (v : BitVec 3) (r : Regs) : (resetInflateRegs v r).availIn = r.availIn := rfl
@[simp] theorem resetInflateRegs_nextOut (v : BitVec 3) (r : Regs) : (resetInflateRegs v r).nextOut = r.nextOut := rfl
@[simp] theorem resetInflateRegs_availOut (v : BitVec 3) (r : Regs) :
    (resetInflateRegs v r).availOut = r.availOut := rfl
@[simp] theorem resetInflateRegs_totalIn (v : BitVec 3) (r : Regs) : (resetInflateRegs v r).totalIn = 0 := rfl
@[simp] theorem resetInflateRegs_totalOut (v : BitVec 3) (r : Regs) : (resetInflateRegs v r).totalOut = 0 := rfl
@[simp] theorem resetInflateRegs_adler (v : BitVec 3) (r : Regs) :
    (resetInflateRegs v r).adler = (if v ≠ 0 then (v &&& 1).setWidth 32 else r.adler) := rfl
@[simp] theorem resetInflateRegs_dataType (v : BitVec 3) (r : Regs) :
    (resetInflateRegs v r).dataType = r.dataType := rfl
@[simp] theorem resetInflateRegs_msg (v : BitVec 3) (r : Regs) : (resetInflateRegs v r).msg = .none := rfl

/-! ### A D-engine's run -/

@[simp] theorem DRun.say_params (m : Msg) (x : DRun) : (x.say m).params = x.params := rfl
@[simp] theorem DRun.say_regs (m : Msg) (x : DRun) : (x.say m).regs = { x.regs with msg := m } := rfl
@[simp] theorem DRun.say_d (m : Msg) (x : DRun) : (x.say m).d = x.d := rfl
@[simp] theorem DRun.say_mem (m : Msg) (x : DRun) : (x.say m).mem = x.mem := rfl
@[simp] theorem DRun.setLastFlush_params (f : Int) (x : DRun) : (x.setLastFlush f).params = x.params := rfl
@[simp] theorem DRun.setLastFlush_regs (f : Int) (x : DRun) : (x.setLastFlush f).regs = x.regs := rfl
@[simp] theorem DRun.setLastFlush_d (f : Int) (x : DRun) : (x.setLastFlush f).d = { x.d with lastFlush := f } := rfl
@[simp] theorem DRun.setLastFlush_mem (f : Int) (x : DRun) : (x.setLastFlush f).mem = x.mem := rfl
@[simp] theorem DRun.setStatus_params (st : DStatus) (x : DRun) : (x.setStatus st).params = x.params := rfl
@[simp] theorem DRun.setStatus_regs (st : DStatus) (x : DRun) : (x.setStatus st).regs = x.regs := rfl
@[simp] theorem DRun.setStatus_d (st : DStatus) (x : DRun) : (x.setStatus st).d = { x.d with status := st } := rfl
@[simp] theorem DRun.setStatus_mem (st : DStatus) (x : DRun) : (x.setStatus st).mem = x.mem := rfl
@[simp] theorem DRun.start_params (s : State) (r : Regs) (d : DState) : (DRun.start s r d).params = s.params := rfl
@[simp] theorem DRun.start_regs (s : State) (r : Regs) (d : DState) : (DRun.start s r d).regs = r := rfl
@[simp] theorem DRun.start_d (s : State) (r : Regs) (d : DState) : (DRun.start s r d).d = d := rfl
@[simp] theorem DRun.start_mem (s : State) (r : Regs) (d : DState) : (DRun.start s r d).mem = s.mem := rfl

/-! ### An I-engine's run -/

@[simp] theorem IRun.setMode_params (m : Mode) (x : IRun) : (x.setMode m).params = x.params := rfl
@[simp] theorem IRun.setMode_regs (m : Mode) (x : IRun) : (x.setMode m).regs = x.regs := rfl
@[simp] theorem IRun.setMode_i (m : Mode) (x : IRun) : (x.setMode m).i = { x.i with mode := m } := rfl
@[simp] theorem IRun.setMode_mem (m : Mode) (x : IRun) : (x.setMode m).mem = x.mem := rfl
@[simp] theorem IRun.setMode_flush (m : Mode) (x : IRun) : (x.setMode m).flush = x.flush := rfl
@[simp] theorem IRun.setMode_next (m : Mode) (x : IRun) : (x.setMode m).next = x.next := rfl
@[simp] theorem IRun.setMode_avail (m : Mode) (x : IRun) : (x.setMode m).avail = x.avail := rfl
@[simp] theorem IRun.setMode_put (m : Mode) (x : IRun) : (x.setMode m).put = x.put := rfl
@[simp] theorem IRun.setMode_left (m : Mode) (x : IRun) : (x.setMode m).left = x.left := rfl
@[simp] theorem IRun.setMode_inn (m : Mode) (x : IRun) : (x.setMode m).inn = x.inn := rfl
@[simp] theorem IRun.setMode_out (m : Mode) (x : IRun) : (x.setMode m).out = x.out := rfl
@[simp] theorem IRun.bad_params (m : Msg) (x : IRun) : (x.bad m).params = x.params := rfl
@[simp] theorem IRun.bad_regs (m : Msg) (x : IRun) : (x.bad m).regs = { x.regs with msg := m } := rfl
@[simp] theorem IRun.bad_i (m : Msg) (x : IRun) : (x.bad m).i = { x.i with mode := .BAD } := rfl
@[simp] theorem IRun.bad_mem (m : Msg) (x : IRun) : (x.bad m).mem = x.mem := rfl
@[simp] theorem IRun.bad_flush (m : Msg) (x : IRun) : (x.bad m).flush = x.flush := rfl
@[simp] theorem IRun.bad_next (m : Msg) (x : IRun) : (x.bad m).next = x.next := rfl
@[simp] theorem IRun.bad_avail (m : Msg) (x : IRun) : (x.bad m).avail = x.avail := rfl
@[simp] theorem IRun.bad_put (m : Msg) (x : IRun) : (x.bad m).put = x.put := rfl
@[simp] theorem IRun.bad_left (m : Msg) (x : IRun) : (x.bad m).left = x.left := rfl
@[simp] theorem IRun.bad_inn (m : Msg) (x : IRun) : (x.bad m).inn = x.inn := rfl
@[simp] theorem IRun.bad_out (m : Msg) (x : IRun) : (x.bad m).out = x.out := rfl
@[simp] theorem IRun.dropBits_params (n : Nat) (x : IRun) : (x.dropBits n).params = x.params := rfl
@[simp] theorem IRun.dropBits_regs (n : Nat) (x : IRun) : (x.dropBits n).regs = x.regs := rfl
@[simp] theorem IRun.dropBits_i (n : Nat) (x : IRun) :
    (x.dropBits n).i = { x.i with hold := x.i.hold >>> n, bits := x.i.bits - n } := rfl
@[simp] theorem IRun.dropBits_mem (n : Nat) (x : IRun) : (x.dropBits n).mem = x.mem := rfl
@[simp] theorem IRun.dropBits_flush (n : Nat) (x : IRun) : (x.dropBits n).flush = x.flush := rfl
@[simp] theorem IRun.dropBits_next (n : Nat) (x : IRun) : (x.dropBits n).next = x.next := rfl
@[simp] theorem IRun.dropBits_avail (n : Nat) (x : IRun) : (x.dropBits n).avail = x.avail := rfl
@[simp] theorem IRun.dropBits_put (n : Nat) (x : IRun) : (x.dropBits n).put = x.put := rfl
@[simp] theorem IRun.dropBits_left (n : Nat) (x : IRun) : (x.dropBits n).left = x.left := rfl
@[simp] theorem IRun.dropBits_inn (n : Nat) (x : IRun) : (x.dropBits n).inn = x.inn := rfl
@[simp] theorem IRun.dropBits_out (n : Nat) (x : IRun) : (x.dropBits n).out = x.out := rfl
@[simp] theorem IRun.initBits_params (x : IRun) : (x.initBits).params = x.params := rfl
@[simp] theorem IRun.initBits_regs (x : IRun) : (x.initBits).regs = x.regs := rfl
@[simp] theorem IRun.initBits_i (x : IRun) : (x.initBits).i = { x.i with hold := 0, bits := 0 } := rfl
@[simp] theorem IRun.initBits_mem (x : IRun) : (x.initBits).mem = x.mem := rfl
@[simp] theorem IRun.initBits_flush (x : IRun) : (x.initBits).flush = x.flush := rfl
@[simp] theorem IRun.initBits_next (x : IRun) : (x.initBits).next = x.next := rfl
@[simp] theorem IRun.initBits_avail (x : IRun) : (x.initBits).avail = x.avail := rfl
@[simp] theorem IRun.initBits_put (x : IRun) : (x.initBits).put = x.put := rfl
@[simp] theorem IRun.initBits_left (x : IRun) : (x.initBits).left = x.left := rfl
@[simp] theorem IRun.initBits_inn (x : IRun) : (x.initBits).inn = x.inn := rfl
@[simp] theorem IRun.initBits_out (x : IRun) : (x.initBits).out = x.out := rfl
@[simp] theorem IRun.pullByte_params (x : IRun) : (x.pullByte).params = x.params := rfl
@[simp] theorem IRun.pullByte_regs (x : IRun) : (x.pullByte).regs = x.regs := rfl
@[simp] theorem IRun.pullByte_i (x : IRun) :
    (x.pullByte).i =
      { x.i with hold := x.i.hold + ((x.mem.read x.next).setWidth 32 <<< x.i.bits), bits := x.i.bits + 8 } := rfl
@[simp] theorem IRun.pullByte_mem (x : IRun) : (x.pullByte).mem = x.mem := rfl
@[simp] theorem IRun.pullByte_flush (x : IRun) : (x.pullByte).flush = x.flush := rfl
@[simp] theorem IRun.pullByte_next (x : IRun) : (x.pullByte).next = x.next + 1 := rfl
@[simp] theorem IRun.pullByte_avail (x : IRun) : (x.pullByte).avail = x.avail - 1 := rfl
@[simp] theorem IRun.pullByte_put (x : IRun) : (x.pullByte).put = x.put := rfl
@[simp] theorem IRun.pullByte_left (x : IRun) : (x.pullByte).left = x.left := rfl
@[simp] theorem IRun.pullByte_inn (x : IRun) : (x.pullByte).inn = x.inn := rfl
@[simp] theorem IRun.pullByte_out (x : IRun) : (x.pullByte).out = x.out := rfl
@[simp] theorem IRun.offerBits_params (n v : Nat) (x : IRun) : (x.offerBits n v).params = x.params := rfl
@[simp] theorem IRun.offerBits_regs (n v : Nat) (x : IRun) : (x.offerBits n v).regs = x.regs := rfl
@[simp] theorem IRun.offerBits_i (n v : Nat) (x : IRun) :
    (x.offerBits n v).i = { x.i with hold := BitVec.ofNat 32 v ||| (x.i.hold <<< n), bits := x.i.bits + n } := rfl
@[simp] theorem IRun.offerBits_mem (n v : Nat) (x : IRun) : (x.offerBits n v).mem = x.mem := rfl
@[simp] theorem IRun.offerBits_flush (n v : Nat) (x : IRun) : (x.offerBits n v).flush = x.flush := rfl
@[simp] theorem IRun.offerBits_next (n v : Nat) (x : IRun) : (x.offerBits n v).next = x.next := rfl
@[simp] theorem IRun.offerBits_avail (n v : Nat) (x : IRun) : (x.offerBits n v).avail = x.avail := rfl
@[simp] theorem IRun.offerBits_put (n v : Nat) (x : IRun) : (x.offerBits n v).put = x.put := rfl
@[simp] theorem IRun.offerBits_left (n v : Nat) (x : IRun) : (x.offerBits n v).left = x.left := rfl
@[simp] theorem IRun.offerBits_inn (n v : Nat) (x : IRun) : (x.offerBits n v).inn = x.inn := rfl
@[simp] theorem IRun.offerBits_out (n v : Nat) (x : IRun) : (x.offerBits n v).out = x.out := rfl
@[simp] theorem IRun.restore_params (x : IRun) : (x.restore).params = x.params := rfl
@[simp] theorem IRun.restore_regs (x : IRun) :
    (x.restore).regs =
      { x.regs with nextIn := x.next, availIn := BitVec.ofNat 32 x.avail, nextOut := x.put, availOut := BitVec.ofNat 32 x.left } := rfl
@[simp] theorem IRun.restore_i (x : IRun) : (x.restore).i = x.i := rfl
@[simp] theorem IRun.restore_mem (x : IRun) : (x.restore).mem = x.mem := rfl
@[simp] theorem IRun.restore_flush (x : IRun) : (x.restore).flush = x.flush := rfl
@[simp] theorem IRun.restore_next (x : IRun) : (x.restore).next = x.next := rfl
@[simp] theorem IRun.restore_avail (x : IRun) : (x.restore).avail = x.avail := rfl
@[simp] theorem IRun.restore_put (x : IRun) : (x.restore).put = x.put := rfl
@[simp] theorem IRun.restore_left (x : IRun) : (x.restore).left = x.left := rfl
@[simp] theorem IRun.restore_inn (x : IRun) : (x.restore).inn = x.inn := rfl
@[simp] theorem IRun.restore_out (x : IRun) : (x.restore).out = x.out := rfl
@[simp] theorem IRun.advanceMatch_params (n : Nat) (x : IRun) : (x.advanceMatch n).params = x.params := rfl
@[simp] theorem IRun.advanceMatch_regs (n : Nat) (x : IRun) : (x.advanceMatch n).regs = x.regs := rfl
@[simp] theorem IRun.advanceMatch_i (n : Nat) (x : IRun) :
    (x.advanceMatch n).i = { x.i with length := x.i.length - n } := rfl
@[simp] theorem IRun.advanceMatch_mem (n : Nat) (x : IRun) : (x.advanceMatch n).mem = x.mem := rfl
@[simp] theorem IRun.advanceMatch_flush (n : Nat) (x : IRun) : (x.advanceMatch n).flush = x.flush := rfl
@[simp] theorem IRun.advanceMatch_next (n : Nat) (x : IRun) : (x.advanceMatch n).next = x.next := rfl
@[simp] theorem IRun.advanceMatch_avail (n : Nat) (x : IRun) : (x.advanceMatch n).avail = x.avail := rfl
@[simp] theorem IRun.advanceMatch_put (n : Nat) (x : IRun) : (x.advanceMatch n).put = x.put + BitVec.ofNat 32 n := rfl
@[simp] theorem IRun.advanceMatch_left (n : Nat) (x : IRun) : (x.advanceMatch n).left = x.left - n := rfl
@[simp] theorem IRun.advanceMatch_inn (n : Nat) (x : IRun) : (x.advanceMatch n).inn = x.inn := rfl
@[simp] theorem IRun.advanceMatch_out (n : Nat) (x : IRun) : (x.advanceMatch n).out = x.out := rfl

end Sys2Proof.Machine
end

