-- ==== Sys2Proof/Laws/BitReader.lean ====
section
/-! SUPPORT. The bit reader's shared operations: what pulling a byte, filling the accumulator and
looking a code up can change. -/

namespace Sys2Proof.Machine.IRun

/-- `y` is `x` after input bytes have been pulled into the accumulator: nothing but the input cursor, `hold` and `bits`
has changed, and the cursor has moved by as many bytes as `bits` has grown by. -/
structure Pulled (x y : IRun) : Prop where
  params : y.params = x.params
  regs : y.regs = x.regs
  mem : y.mem = x.mem
  flush : y.flush = x.flush
  put : y.put = x.put
  left : y.left = x.left
  inn : y.inn = x.inn
  out : y.out = x.out
  priv : y.i = { x.i with hold := y.i.hold, bits := y.i.bits }
  count : ∃ n, y.avail + n = x.avail ∧ y.next = x.next + BitVec.ofNat 32 n ∧ y.i.bits = x.i.bits + 8 * n

theorem Pulled.refl (x : IRun) : Pulled x x :=
  ⟨rfl, rfl, rfl, rfl, rfl, rfl, rfl, rfl, rfl, 0, by simp⟩

theorem Pulled.trans {x y z : IRun} (h : Pulled x y) (g : Pulled y z) : Pulled x z := by
  obtain ⟨n, hn1, hn2, hn3⟩ := h.count
  obtain ⟨m, hm1, hm2, hm3⟩ := g.count
  refine ⟨g.params.trans h.params, g.regs.trans h.regs, g.mem.trans h.mem, g.flush.trans h.flush, g.put.trans h.put,
    g.left.trans h.left, g.inn.trans h.inn, g.out.trans h.out, ?_, n + m, by omega, ?_, by omega⟩
  · have := g.priv
    rw [h.priv] at this
    exact this
  · rw [hm2, hn2, BitVec.ofNat_add, BitVec.add_assoc]

theorem canPull {x : IRun} (h : ¬ x.cannotPull = true) : x.avail ≠ 0 ∧ x.i.bits ≤ 24 := by
  simp only [cannotPull, decide_eq_true_eq] at h
  omega

theorem pulled_pullByte {x : IRun} (h : ¬ x.cannotPull = true) : Pulled x x.pullByte :=
  ⟨rfl, rfl, rfl, rfl, rfl, rfl, rfl, rfl, rfl, 1, by have := canPull h; simp; omega⟩

/-- PULLBYTE loses no bit: the bits held stay below the byte, and the byte is whole (45 R432). -/
theorem pullByte_hold {x : IRun} (h : ¬ x.cannotPull = true) (hx : x.i.HoldOk) :
    x.pullByte.i.hold.toNat = x.i.hold.toNat + (x.mem.read x.next).toNat * 2 ^ x.i.bits ∧ x.pullByte.i.HoldOk := by
  have hb := (canPull h).2
  have hv := (x.mem.read x.next).isLt
  have le : (x.mem.read x.next).toNat * 2 ^ x.i.bits + 2 ^ x.i.bits ≤ 2 ^ (x.i.bits + 8) := by
    rw [Nat.pow_add, ← Nat.succ_mul, Nat.mul_comm]
    exact Nat.mul_le_mul_left _ (by omega)
  have fits : 2 ^ (x.i.bits + 8) ≤ 2 ^ 32 := Nat.pow_le_pow_right (by decide) (by omega)
  unfold IState.HoldOk at hx
  have shift : ((x.mem.read x.next).setWidth 32 <<< x.i.bits).toNat = (x.mem.read x.next).toNat * 2 ^ x.i.bits := by
    rw [BitVec.toNat_shiftLeft, BitVec.toNat_setWidth, Nat.mod_eq_of_lt (Nat.lt_trans hv (by decide)), Nat.shiftLeft_eq,
      Nat.mod_eq_of_lt (by omega)]
  have sum : x.pullByte.i.hold.toNat = x.i.hold.toNat + (x.mem.read x.next).toNat * 2 ^ x.i.bits := by
    simp only [pullByte_i, BitVec.toNat_add, shift]
    exact Nat.mod_eq_of_lt (by omega)
  refine ⟨sum, ?_⟩
  unfold IState.HoldOk
  rw [sum]
  exact Nat.lt_of_lt_of_le (Nat.add_lt_add_right hx _) (Nat.add_comm _ _ ▸ le)

/-- NEEDBITS only pulls bytes. -/
theorem pulled_fillBits (n fuel : Nat) (x : IRun) : Pulled x (fillBits n fuel x).2 := by
  induction fuel generalizing x with
  | zero => exact Pulled.refl x
  | succ fuel ih =>
    unfold fillBits
    split
    · exact Pulled.refl x
    · split
      · exact Pulled.refl x
      · exact (pulled_pullByte ‹_›).trans (ih _)

/-- NEEDBITS keeps `bits` within 32 (10_state R73). -/
theorem fillBits_bits_le (n fuel : Nat) {x : IRun} (h : x.i.bits ≤ 32) : (fillBits n fuel x).2.i.bits ≤ 32 := by
  induction fuel generalizing x with
  | zero => exact h
  | succ fuel ih =>
    unfold fillBits
    split
    · exact h
    · split
      · exact h
      · have := canPull ‹_›
        exact ih (by simp; omega)

/-- NEEDBITS answers true exactly with enough bits. -/
theorem fillBits_fst {n fuel : Nat} {x y : IRun} (h : fillBits n fuel x = (true, y)) : n ≤ y.i.bits := by
  induction fuel generalizing x with
  | zero =>
    simp only [fillBits, Prod.mk.injEq, decide_eq_true_eq] at h
    exact h.2 ▸ h.1
  | succ fuel ih =>
    unfold fillBits at h
    split at h
    · simp only [Prod.mk.injEq, true_and] at h
      exact h ▸ ‹_›
    · split at h
      · simp at h
      · exact ih h

/-- NEEDBITS pulls nothing when the bits are there. -/
theorem fillBits_enough {n fuel : Nat} {x : IRun} (h : n ≤ x.i.bits) : fillBits n fuel x = (true, x) := by
  cases fuel <;> simp [fillBits, h]

/-- NEEDBITS with the bits there goes on at once. -/
theorem needBits_enough {n : Nat} {x : IRun} {k : IRun → Ctl × IRun} (h : n ≤ x.i.bits) : x.needBits n k = k x := by
  simp [needBits, fillBits_enough h]

/-- A lookup only pulls bytes. -/
theorem pulled_lookupLoop (see : IRun → Entry) (extra fuel : Nat) (x : IRun) :
    Pulled x (lookupLoop see extra fuel x).2 := by
  induction fuel generalizing x with
  | zero => exact Pulled.refl x
  | succ fuel ih =>
    simp only [lookupLoop]
    split
    · exact Pulled.refl x
    · split
      · exact Pulled.refl x
      · exact (pulled_pullByte ‹_›).trans (ih _)

/-- A lookup keeps `bits` within 32 (10_state R73). -/
theorem lookupLoop_bits_le (see : IRun → Entry) (extra fuel : Nat) {x : IRun} (h : x.i.bits ≤ 32) :
    (lookupLoop see extra fuel x).2.i.bits ≤ 32 := by
  induction fuel generalizing x with
  | zero => exact h
  | succ fuel ih =>
    simp only [lookupLoop]
    split
    · exact h
    · split
      · exact h
      · have := canPull ‹_›
        exact ih (by simp; omega)

/-- A lookup hands on an entry only when its bits are held. -/
theorem lookupLoop_some {see : IRun → Entry} {extra fuel : Nat} {x y : IRun} {here : Entry}
    (h : lookupLoop see extra fuel x = (some here, y)) : here = see y ∧ extra + here.bits.toNat ≤ y.i.bits := by
  induction fuel generalizing x with
  | zero => simp [lookupLoop] at h
  | succ fuel ih =>
    simp only [lookupLoop] at h
    split at h
    · simp only [Prod.mk.injEq, Option.some.injEq] at h
      obtain ⟨rfl, rfl⟩ := h
      exact ⟨rfl, ‹_›⟩
    · split at h
      · simp at h
      · exact ih h

/-- A lookup whose entry fits the bits held pulls nothing. -/
theorem findEntry_enough {see : IRun → Entry} {extra : Nat} {x : IRun} {k : Entry → IRun → Ctl × IRun}
    (h : extra + (see x).bits.toNat ≤ x.i.bits) : x.findEntry see extra k = k (see x) x := by
  simp [findEntry, lookupLoop, h]

end Sys2Proof.Machine.IRun
end

