-- ==== Sys2Proof/Laws/Command.lean ====
section
/-! SUPPORT. The shared operations that end a command or a wire element, said once: which case applies, and what it
leaves in every context. -/

namespace Sys2Proof.Machine

theorem State.ctx_setCtx_same {s : State} {k : Nat} (c : Ctx) (h : k < s.ctxs.length) : (s.setCtx k c).ctx k = c := by
  simp [State.ctx, h]

theorem State.ctx_setCtx_ne {s : State} {k j : Nat} (c : Ctx) (h : j ≠ k) : (s.setCtx k c).ctx j = s.ctx j := by
  simp [State.ctx, List.getD_eq_getElem?_getD, Ne.symm h]

@[simp] theorem State.ctx_setResult (s : State) (st : Status) (j : Nat) : (s.setResult st).ctx j = s.ctx j := rfl

theorem State.ctx_finish_same {s : State} {k : Nat} (r : Done) (h : k < s.ctxs.length) :
    (s.finish k r).ctx k = { regs := r.regs, slot := r.slot } := by
  simp [State.ctx, h]

theorem State.ctx_finish_ne {s : State} {k j : Nat} (r : Done) (h : j ≠ k) : (s.finish k r).ctx j = s.ctx j := by
  simp [State.ctx, List.getD_eq_getElem?_getD, Ne.symm h]

/-- Writing back what a context holds changes nothing. -/
theorem State.setCtx_self {s : State} {k : Nat} (h : k < s.ctxs.length) : s.setCtx k (s.ctx k) = s := by
  simp [State.setCtx, State.ctx, h]

/-- A context that is not FREE is one of the machine's. -/
theorem State.lt_of_ctx_slot {s : State} {k : Nat} (h : (s.ctx k).slot ≠ .free) : k < s.ctxs.length := by
  refine Decidable.byContradiction fun hk => h ?_
  simp [State.ctx, List.getD_eq_getElem?_getD, List.getElem?_eq_none (Nat.le_of_not_lt hk), Ctx.reset]

theorem onContext_lt {k : BitVec 8} {s : State} {f : State → State} (h : k.toNat < s.params.nctx) :
    onContext k s f = .next (f s) := if_pos h

theorem onContext_ge {k : BitVec 8} {s : State} {f : State → State} (h : s.params.nctx ≤ k.toNat) :
    onContext k s f = .next (s.setResult .streamError) := if_neg (Nat.not_lt.mpr h)

/-- A command answers a next state: no command stops. -/
theorem onContext_next (k : BitVec 8) (s : State) (f : State → State) : ∃ t, onContext k s f = .next t := by
  unfold onContext
  split <;> exact ⟨_, rfl⟩

theorem onDeflate_deflate {k : BitVec 8} {s : State} {f : Regs → DState → Done} {d : DState}
    (hk : k.toNat < s.params.nctx) (hd : (s.ctx k.toNat).slot = .deflate d) :
    onDeflate k s f = .next (s.finish k.toNat (f (s.ctx k.toNat).regs d)) := by
  simp [onDeflate, onContext_lt hk, hd]

theorem onDeflate_other {k : BitVec 8} {s : State} {f : Regs → DState → Done}
    (hd : ∀ d, (s.ctx k.toNat).slot ≠ .deflate d) : onDeflate k s f = .next (s.setResult .streamError) := by
  by_cases hk : k.toNat < s.params.nctx
  · rw [onDeflate, onContext_lt hk]
    cases h : (s.ctx k.toNat).slot with
    | deflate d => exact absurd h (hd d)
    | free => rfl
    | inflate i => rfl
  · exact onContext_ge (Nat.le_of_not_lt hk)

theorem onInflate_inflate {k : BitVec 8} {s : State} {f : Regs → IState → Done} {i : IState}
    (hk : k.toNat < s.params.nctx) (hi : (s.ctx k.toNat).slot = .inflate i) :
    onInflate k s f = .next (s.finish k.toNat (f (s.ctx k.toNat).regs i)) := by
  simp [onInflate, onContext_lt hk, hi]

theorem onInflate_other {k : BitVec 8} {s : State} {f : Regs → IState → Done}
    (hi : ∀ i, (s.ctx k.toNat).slot ≠ .inflate i) : onInflate k s f = .next (s.setResult .streamError) := by
  by_cases hk : k.toNat < s.params.nctx
  · rw [onInflate, onContext_lt hk]
    cases h : (s.ctx k.toNat).slot with
    | inflate i => exact absurd h (hi i)
    | free => rfl
    | deflate d => rfl
  · exact onContext_ge (Nat.le_of_not_lt hk)

/-- Everything a D-engine command can do: turn the command away, or run its rule on a D-engine context. -/
theorem onDeflate_cases {k : BitVec 8} {s t : State} {f : Regs → DState → Done} (h : onDeflate k s f = .next t) :
    t = s.setResult .streamError ∨
    ∃ d, k.toNat < s.params.nctx ∧ (s.ctx k.toNat).slot = .deflate d ∧
      t = s.finish k.toNat (f (s.ctx k.toNat).regs d) := by
  by_cases hk : k.toNat < s.params.nctx
  · by_cases hd : ∃ d, (s.ctx k.toNat).slot = .deflate d
    · obtain ⟨d, hd⟩ := hd
      rw [onDeflate_deflate hk hd] at h
      exact .inr ⟨d, hk, hd, by injection h with h; exact h.symm⟩
    · rw [onDeflate_other fun d hd' => hd ⟨d, hd'⟩] at h
      exact .inl (by injection h with h; exact h.symm)
  · rw [onDeflate, onContext_ge (Nat.le_of_not_lt hk)] at h
    exact .inl (by injection h with h; exact h.symm)

/-- Everything an I-engine command can do. -/
theorem onInflate_cases {k : BitVec 8} {s t : State} {f : Regs → IState → Done} (h : onInflate k s f = .next t) :
    t = s.setResult .streamError ∨
    ∃ i, k.toNat < s.params.nctx ∧ (s.ctx k.toNat).slot = .inflate i ∧
      t = s.finish k.toNat (f (s.ctx k.toNat).regs i) := by
  by_cases hk : k.toNat < s.params.nctx
  · by_cases hi : ∃ i, (s.ctx k.toNat).slot = .inflate i
    · obtain ⟨i, hi⟩ := hi
      rw [onInflate_inflate hk hi] at h
      exact .inr ⟨i, hk, hi, by injection h with h; exact h.symm⟩
    · rw [onInflate_other fun i hi' => hi ⟨i, hi'⟩] at h
      exact .inl (by injection h with h; exact h.symm)
  · rw [onInflate, onContext_ge (Nat.le_of_not_lt hk)] at h
    exact .inl (by injection h with h; exact h.symm)

/-- What a wire element leaves, given what its effect on the I-engine's run is. -/
theorem onPlace_reads {reads : IState → Bool} {f : IRun → Ctl × IRun} {s : State} {i : IState}
    (hi : (s.ctx s.cur).slot = .inflate i) (hp : reads i = true) :
    onPlace reads f s =
      .next ({ s with mem := (f (IRun.load s.params zNoFlush (s.ctx s.cur).regs i s.mem)).2.mem }.setCtx s.cur
        { regs := (f (IRun.load s.params zNoFlush (s.ctx s.cur).regs i s.mem)).2.restore.regs
          slot := .inflate (f (IRun.load s.params zNoFlush (s.ctx s.cur).regs i s.mem)).2.i }) := by
  simp [onPlace, hi, hp]

theorem onPlace_other {reads : IState → Bool} {f : IRun → Ctl × IRun} {s : State}
    (h : ∀ i, (s.ctx s.cur).slot = .inflate i → reads i = false) :
    onPlace reads f s = .next (s.setResult .streamError) := by
  cases hi : (s.ctx s.cur).slot with
  | free => simp [onPlace, hi]
  | deflate d => simp [onPlace, hi]
  | inflate i => simp [onPlace, hi, h i hi]

/-- Everything an offer can do: it acts on the I-engine of context `cur`, or it ends with Z_STREAM_ERROR alone. -/
theorem onPlace_cases (reads : IState → Bool) (f : IRun → Ctl × IRun) (s : State) :
    onPlace reads f s = .next (s.setResult .streamError) ∨
    ∃ i, (s.ctx s.cur).slot = .inflate i ∧ reads i = true := by
  by_cases h : ∃ i, (s.ctx s.cur).slot = .inflate i ∧ reads i = true
  · exact .inr h
  · exact .inl (onPlace_other fun i hi => Bool.eq_false_iff.mpr fun hr => h ⟨i, hi, hr⟩)

/-- An offer answers a next state. -/
theorem onPlace_next (reads : IState → Bool) (f : IRun → Ctl × IRun) (s : State) : ∃ t, onPlace reads f s = .next t := by
  obtain h | ⟨i, hi, hr⟩ := onPlace_cases reads f s
  · exact ⟨_, h⟩
  · exact ⟨_, onPlace_reads hi hr⟩

theorem offerStray_next (f : Format) (w : Nat) (why : Reject) (s : State) : ∃ t, offerStray f w why s = .next t := by
  cases why <;> first | exact ⟨_, rfl⟩ | exact onPlace_next _ _ _

/-- A code-length symbol that is one has no extra bits but those it takes. -/
theorem ownBits_clSym {v : Nat} {i : Instr} (h : decodeClSym v = .ok i) (hv : v < 2 ^ 12) : ownBits .clSym v = v := by
  have own : v / 32 < 2 ^ tableAt extraBlbits (v % 32) := by
    have low : ∀ n < 16, tableAt extraBlbits n = 0 := by decide
    simp only [decodeClSym] at h
    split at h
    · next hs =>
      split at h
      · next he => simp [low _ hs, he]
      · cases h
    · split at h
      · next hs =>
        split at h
        · next he => rw [hs]; exact he
        · cases h
      · split at h
        · next hs =>
          split at h
          · next he => rw [hs]; exact he
          · cases h
        · split at h
          · next hs => rw [hs]; exact Nat.div_lt_of_lt_mul hv
          · cases h
  have hlt : v < 2 ^ (5 + tableAt extraBlbits (v % 2 ^ 5)) := by
    rw [Nat.pow_add]
    exact Nat.mul_comm _ _ ▸ (Nat.div_lt_iff_lt_mul (by decide)).mp own
  exact Nat.mod_eq_of_lt hlt

/-- A value that is an element has no bits but its own. -/
theorem ownBits_of_decode {f : Format} {v : Nat} {i : Instr} (h : decode f v = .ok i) : ownBits f v = v := by
  unfold decode at h
  split at h
  · cases h
  · next hv =>
    have hv : v < 2 ^ f.width := Nat.lt_of_not_le hv
    by_cases hf : f = .clSym
    · subst hf
      exact ownBits_clSym h hv
    · simp only [ownBits, hf, if_false]
      exact Nat.mod_eq_of_lt hv

theorem ownBits_lt (f : Format) (v : Nat) : ownBits f v < 2 ^ f.width := by
  unfold ownBits
  split
  · next hf =>
    subst hf
    have small : ∀ n < 2 ^ 5, 5 + tableAt extraBlbits n ≤ 12 := by decide
    exact Nat.lt_of_lt_of_le (Nat.mod_lt _ (Nat.two_pow_pos _))
      (Nat.pow_le_pow_right (by decide) (small _ (Nat.mod_lt _ (by decide))))
  · exact Nat.mod_lt _ (Nat.two_pow_pos _)

/-- Cut to its own bits, a code-length value has no stray extra bits. -/
theorem ownBits_clSym_error {v : Nat} {why : Reject} (h : decodeClSym (ownBits .clSym v) = .error why) :
    why = .noSuchSymbol := by
  have sym : ownBits .clSym v % 32 = v % 32 := by
    show v % 2 ^ (5 + tableAt extraBlbits (v % 2 ^ 5)) % 2 ^ 5 = v % 2 ^ 5
    rw [Nat.pow_add, Nat.mod_mul_right_mod]
  have own : ownBits .clSym v / 32 < 2 ^ tableAt extraBlbits (v % 32) := by
    refine Nat.div_lt_of_lt_mul ?_
    show v % 2 ^ (5 + tableAt extraBlbits (v % 2 ^ 5)) < 2 ^ 5 * 2 ^ tableAt extraBlbits (v % 2 ^ 5)
    rw [← Nat.pow_add]
    exact Nat.mod_lt _ (Nat.two_pow_pos _)
  simp only [decodeClSym, sym] at h
  have low : ∀ n < 16, tableAt extraBlbits n = 0 := by decide
  split at h
  · next hs =>
    rw [low _ hs] at own
    rw [if_pos (Nat.lt_one_iff.mp own)] at h
    cases h
  · split at h
    · next hs =>
      rw [hs] at own
      rw [if_pos (show _ < 4 from own)] at h
      cases h
    · split at h
      · next hs =>
        rw [hs] at own
        rw [if_pos (show _ < 8 from own)] at h
        cases h
      · split at h
        · cases h
        · cases h; rfl

/-- Cut to its own bits, a value is not too wide and has no stray extra bits. -/
theorem ownBits_error {f : Format} {v : Nat} {why : Reject} (h : decode f (ownBits f v) = .error why) :
    why ≠ .tooWide ∧ why ≠ .strayExtra := by
  unfold decode at h
  rw [if_neg (Nat.not_le.mpr (ownBits_lt f v))] at h
  cases f with
  | clSym => rw [ownBits_clSym_error h]; exact ⟨nofun, nofun⟩
  | cmd | blockHdr | zlibHdr | fixedLL7 | fixedLL8 | fixedLL9 | fixedDist | llSym | distSym | entry =>
    simp only [decodeCmd, decodeBlockHdr, decodeZlibHdr, decodeFixedLL7, decodeFixedLL8, decodeFixedLL9, decodeFixedDist,
      decodeLlSym, decodeDistSym, decodeEntry] at h
    repeat' split at h
    all_goals first | (cases h; done) | (cases h; exact ⟨nofun, nofun⟩)
  | dictid | storedLen | trailer => cases h
/-- An offered value that is an element runs as that element. -/
theorem offerElement_ok {k : BitVec 8} {f : Format} {v : Word} {s : State} {i : Instr} (h : decode f v.toNat = .ok i) :
    offerElement k f v s = exec i { s with cur := k.toNat } := by
  simp [offerElement, ownBits_of_decode h, h]

/-- An offered value that is no element acts as `offerStray` says. -/
theorem offerElement_error {k : BitVec 8} {f : Format} {v : Word} {s : State} {why : Reject}
    (h : decode f (ownBits f v.toNat) = .error why) :
    offerElement k f v s = offerStray f (ownBits f v.toNat) why { s with cur := k.toNat } := by
  simp [offerElement, h]

end Sys2Proof.Machine
end

