-- ==== Sys2Proof/Laws/Memory.lean ====
section
/-! SUPPORT. The laws of host memory: the canonical form is kept, a read sees the last write, a write touches its own
byte and no other. -/

namespace Sys2Proof.Machine

theorem Memory.wfFrom_mono {m : Memory} {a b : Nat} (h : Memory.wfFrom b m = true) (hab : a ≤ b) :
    Memory.wfFrom a m = true := by
  cases m with
  | nil => rfl
  | cons c m =>
    simp only [Memory.wfFrom, Bool.and_eq_true, decide_eq_true_eq] at h ⊢
    exact ⟨⟨⟨by omega, h.1.1.2⟩, h.1.2⟩, h.2⟩

theorem Memory.find_below {m : Memory} {lo a : Nat} (h : Memory.wfFrom lo m = true) (ha : a < lo) :
    Memory.find m a = Memory.blank := by
  cases m with
  | nil => rfl
  | cons c m =>
    simp only [Memory.wfFrom, Bool.and_eq_true, decide_eq_true_eq] at h
    simp only [Memory.find]
    rw [if_pos (by omega)]

theorem Memory.wfFrom_cons {m : Memory} {lo x : Nat} {b : Byte} :
    Memory.wfFrom lo ((x, b) :: m) = true ↔
      lo ≤ x ∧ x < 2 ^ 32 ∧ b ≠ Memory.blank ∧ Memory.wfFrom (x + 1) m = true := by
  simp only [Memory.wfFrom, Bool.and_eq_true, decide_eq_true_eq, and_assoc]

theorem Memory.put_wfFrom {m : Memory} {lo a : Nat} {v : Byte} (h : Memory.wfFrom lo m = true) (hlo : lo ≤ a)
    (ha : a < 2 ^ 32) : Memory.wfFrom lo (Memory.put m a v) = true := by
  induction m generalizing lo with
  | nil =>
    simp only [Memory.put]
    split
    · rfl
    · exact Memory.wfFrom_cons.2 ⟨hlo, ha, ‹_›, rfl⟩
  | cons c m ih =>
    obtain ⟨x, b⟩ := c
    obtain ⟨h1, h2, h3, h4⟩ := Memory.wfFrom_cons.1 h
    simp only [Memory.put]
    split
    · split
      · exact h
      · exact Memory.wfFrom_cons.2 ⟨hlo, ha, ‹_›, Memory.wfFrom_cons.2 ⟨by omega, h2, h3, h4⟩⟩
    · split
      · split
        · exact Memory.wfFrom_mono h4 (by omega)
        · rename_i hax hv
          subst hax
          exact Memory.wfFrom_cons.2 ⟨hlo, ha, hv, h4⟩
      · exact Memory.wfFrom_cons.2 ⟨h1, h2, h3, ih h4 (by omega)⟩

theorem Memory.find_put_same {m : Memory} {lo a : Nat} {v : Byte} (h : Memory.wfFrom lo m = true) :
    Memory.find (Memory.put m a v) a = v := by
  induction m generalizing lo with
  | nil => by_cases hv : v = Memory.blank <;> simp [Memory.put, Memory.find, hv]
  | cons c m ih =>
    obtain ⟨x, b⟩ := c
    simp only [Memory.wfFrom, Bool.and_eq_true, decide_eq_true_eq] at h
    simp only [Memory.put]
    split
    · split <;> simp_all [Memory.find]
    · split
      · split
        · rename_i hax hv
          subst hax hv
          exact Memory.find_below h.2 (by omega)
        · simp [Memory.find]
      · simp only [Memory.find]
        rw [if_neg (by omega), if_neg (by omega)]
        exact ih h.2

theorem Memory.find_put_ne {m : Memory} {lo a a' : Nat} {v : Byte} (h : Memory.wfFrom lo m = true) (hne : a' ≠ a) :
    Memory.find (Memory.put m a v) a' = Memory.find m a' := by
  induction m generalizing lo with
  | nil =>
    by_cases hv : v = Memory.blank <;> simp [Memory.put, Memory.find, hv, hne]
  | cons c m ih =>
    obtain ⟨x, b⟩ := c
    simp only [Memory.wfFrom, Bool.and_eq_true, decide_eq_true_eq] at h
    simp only [Memory.put]
    split
    · split
      · rfl
      · simp only [Memory.find]
        split
        · rw [if_pos (by omega)]
        · rfl
    · split
      · rename_i hax
        subst hax
        split
        · simp only [Memory.find, hne, if_false]
          split
          · exact Memory.find_below h.2 (by omega)
          · rfl
        · simp [Memory.find, hne]
      · simp only [Memory.find, ih h.2]

/-- A byte write keeps the canonical form. -/
theorem Memory.write_wf {m : Memory} {a : Word} {v : Byte} (h : m.wf = true) : (m.write a v).wf = true :=
  Memory.put_wfFrom h (Nat.zero_le _) a.isLt

/-- A read of the byte just written. -/
theorem Memory.read_write_same {m : Memory} {a : Word} {v : Byte} (h : m.wf = true) : (m.write a v).read a = v :=
  Memory.find_put_same h

/-- A read of any other byte. -/
theorem Memory.read_write_ne {m : Memory} {a a' : Word} {v : Byte} (h : m.wf = true) (hne : a' ≠ a) :
    (m.write a v).read a' = m.read a' :=
  Memory.find_put_ne h fun he => hne (BitVec.eq_of_toNat_eq he)

/-- MemWrite keeps the canonical form. -/
theorem Memory.writeN_wf {vs : List Byte} {m : Memory} {a : Word} (h : m.wf = true) : (m.writeN a vs).wf = true := by
  induction vs generalizing m a with
  | nil => exact h
  | cons v vs ih => exact ih (Memory.write_wf h)

/-- MemWrite changes only the bytes it writes. -/
theorem Memory.read_writeN_outside {vs : List Byte} {m : Memory} {a a' : Word} (h : m.wf = true)
    (hout : ∀ i < vs.length, a' ≠ a + BitVec.ofNat 32 i) : (m.writeN a vs).read a' = m.read a' := by
  induction vs generalizing m a with
  | nil => rfl
  | cons v vs ih =>
    have h0 : a' ≠ a := by simpa using hout 0 (by simp)
    rw [Memory.writeN, ih (Memory.write_wf h), Memory.read_write_ne h h0]
    intro i hi
    have := hout (i + 1) (by simpa using hi)
    rwa [BitVec.ofNat_add, BitVec.add_comm (BitVec.ofNat 32 i), ← BitVec.add_assoc] at this

@[simp] theorem Memory.readN_length (m : Memory) (a : Word) (n : Nat) : (m.readN a n).length = n := by
  induction n generalizing a with
  | zero => rfl
  | succ n ih => simp [Memory.readN, ih]

/-- The copy loop keeps the canonical form. -/
theorem copyBytes_wf {n : Nat} {m : Memory} {dst src : Word} (h : m.wf = true) : (copyBytes m dst src n).wf = true := by
  induction n generalizing m dst src with
  | zero => exact h
  | succ n ih => exact ih (Memory.write_wf h)

/-- The copy loop changes only the bytes it writes. -/
theorem read_copyBytes_outside {n : Nat} {m : Memory} {dst src a' : Word} (h : m.wf = true)
    (hout : ∀ i < n, a' ≠ dst + BitVec.ofNat 32 i) : (copyBytes m dst src n).read a' = m.read a' := by
  induction n generalizing m dst src with
  | zero => rfl
  | succ n ih =>
    have h0 : a' ≠ dst := by simpa using hout 0 (by simp)
    rw [copyBytes, ih (Memory.write_wf h), Memory.read_write_ne h h0]
    intro i hi
    have := hout (i + 1) (by omega)
    rwa [BitVec.ofNat_add, BitVec.add_comm (BitVec.ofNat 32 i), ← BitVec.add_assoc] at this

/-- Reset memory has the canonical form. -/
theorem reset_mem_wf : State.reset.mem.wf = true := rfl

end Sys2Proof.Machine
end

