-- ==== Sys2Proof/Laws/Streams.lean ====
section
/-! SUPPORT. The two operations through which a D-engine touches host memory: READ_BUF and FLUSH_PENDING. -/

namespace Sys2Proof.Machine

/-- READ_BUF takes the smaller of the input there is and the size asked for. -/
@[simp] theorem readIn_length (size : Nat) (x : DRun) : (readIn size x).1.length = min x.regs.availIn.toNat size := by
  simp [readIn]

@[simp] theorem readIn_params (size : Nat) (x : DRun) : (readIn size x).2.params = x.params := rfl
@[simp] theorem readIn_d (size : Nat) (x : DRun) : (readIn size x).2.d = x.d := rfl
@[simp] theorem readIn_mem (size : Nat) (x : DRun) : (readIn size x).2.mem = x.mem := rfl

/-- The bytes READ_BUF takes are those at NEXT_IN. -/
theorem readIn_data (size : Nat) (x : DRun) :
    (readIn size x).1 = x.mem.readN x.regs.nextIn (min x.regs.availIn.toNat size) := rfl

/-- The registers READ_BUF leaves: the input consumed, and on a zlib stream the checksum of it. -/
theorem readIn_regs (size : Nat) (x : DRun) :
    (readIn size x).2.regs =
      if x.d.wrap = 1 then
        { x.regs.consume x.params (min x.regs.availIn.toNat size) with
          adler := adler32 x.regs.adler (readIn size x).1 }
      else x.regs.consume x.params (min x.regs.availIn.toNat size) := rfl

/-- The part of READ_BUF's input that is left. -/
theorem readIn_availIn (size : Nat) (x : DRun) :
    (readIn size x).2.regs.availIn.toNat = x.regs.availIn.toNat - min x.regs.availIn.toNat size := by
  have h := x.regs.availIn.isLt
  have : (readIn size x).2.regs.availIn = x.regs.availIn - BitVec.ofNat 32 (min x.regs.availIn.toNat size) := by
    rw [readIn_regs]
    split <;> rfl
  rw [this, BitVec.toNat_sub_of_le]
  · simp only [BitVec.toNat_ofNat]
    rw [Nat.mod_eq_of_lt (by omega)]
  · rw [BitVec.le_def, BitVec.toNat_ofNat, Nat.mod_eq_of_lt (by omega)]
    omega

@[simp] theorem flushPending_params (x : DRun) : (flushPending x).params = x.params := rfl

/-- FLUSH_PENDING changes the writer and nothing else of the private state. -/
theorem flushPending_d (x : DRun) : (flushPending x).d = { x.d with bw := (flushPending x).d.bw } := rfl

/-- FLUSH_PENDING keeps the canonical form of memory. -/
theorem flushPending_wf {x : DRun} (h : x.mem.wf = true) : (flushPending x).mem.wf = true := Memory.writeN_wf h

end Sys2Proof.Machine
end

