-- ==== Sys2Proof/Laws/Cursors.lean ====
section
/-! SUPPORT. The window cursors (10 R45) through the D-engine: what each operation leaves of `DState.CursorsOk`. -/

namespace Sys2Proof.Machine

/-! ### Operations that leave the cursors alone -/

/-- `d'` has the cursors, the configuration and the tuning of `d`. -/
structure SameCursors (d d' : DState) : Prop where
  strstart : d'.strstart = d.strstart
  lookahead : d'.lookahead = d.lookahead
  blockStart : d'.blockStart = d.blockStart
  matchLength : d'.matchLength = d.matchLength
  conf : d'.conf = d.conf
  tune : d'.tune = d.tune
  lastFlush : d'.lastFlush = d.lastFlush

theorem SameCursors.refl (d : DState) : SameCursors d d := ⟨rfl, rfl, rfl, rfl, rfl, rfl, rfl⟩

theorem SameCursors.trans {a b c : DState} (h : SameCursors a b) (g : SameCursors b c) : SameCursors a c :=
  ⟨g.1.trans h.1, g.2.trans h.2, g.3.trans h.3, g.4.trans h.4, g.5.trans h.5, g.6.trans h.6, g.7.trans h.7⟩

theorem insertString_same (p : Nat) (d : DState) : SameCursors d (insertString p d).2 := ⟨rfl, rfl, rfl, rfl, rfl, rfl, rfl⟩

theorem insertStrings_same (n p : Nat) (d : DState) : SameCursors d (insertStrings n p d) := by
  induction n generalizing p d with
  | zero => exact .refl d
  | succ n ih => exact (insertString_same p d).trans (ih _ _)

theorem insertUpTo_same (most n p : Nat) (d : DState) : SameCursors d (insertUpTo most n p d) := by
  induction n generalizing p d with
  | zero => exact .refl d
  | succ n ih =>
    refine .trans ?_ (ih _ _)
    split
    · exact insertString_same p d
    · exact .refl d

theorem insertHeld_same (n st : Nat) (d : DState) : SameCursors d (insertHeld n st d) := by
  induction n generalizing st d with
  | zero => exact .refl d
  | succ n ih =>
    have step : SameCursors d { (insertString st d).2 with insert := n } := ⟨rfl, rfl, rfl, rfl, rfl, rfl, rfl⟩
    rw [insertHeld]
    split
    · exact step
    · exact step.trans (ih _ _)

theorem primeHash_same (d : DState) : SameCursors d (primeHash d) := by
  rw [primeHash]
  split
  · have s := insertHeld_same d.insert (d.strstart - d.insert)
      { d with insH := updateHash d (d.window.get (d.strstart - d.insert)).toNat (d.window.get (d.strstart - d.insert + 1)) }
    exact ⟨s.1, s.2, s.3, s.4, s.5, s.6, s.7⟩
  · exact .refl d

theorem longestMatch_same (cur : Nat) (d : DState) : SameCursors d (longestMatch cur d).2 :=
  ⟨rfl, rfl, rfl, rfl, rfl, rfl, rfl⟩

theorem longestMatch_le (cur : Nat) (d : DState) : (longestMatch cur d).1 ≤ d.lookahead := Nat.min_le_right ..

theorem tallyLit_same (c : Byte) (d : DState) : SameCursors d (tallyLit c d).2 := ⟨rfl, rfl, rfl, rfl, rfl, rfl, rfl⟩

theorem tallyDist_same (dist lc : Nat) (d : DState) : SameCursors d (tallyDist dist lc d).2 :=
  ⟨rfl, rfl, rfl, rfl, rfl, rfl, rfl⟩

theorem initBlock_same (d : DState) : SameCursors d (initBlock d) := ⟨rfl, rfl, rfl, rfl, rfl, rfl, rfl⟩

theorem clearHash_same (d : DState) : SameCursors d (clearHash d) := ⟨rfl, rfl, rfl, rfl, rfl, rfl, rfl⟩

theorem planBlock_same (d : DState) (dt : Word) (n : Nat) : SameCursors d (planBlock d dt n).d := by
  rw [planBlock]
  split
  · exact .refl d
  · exact ⟨rfl, rfl, rfl, rfl, rfl, rfl, rfl⟩

theorem flushBlockCore_same (d : DState) (dt : Word) (buf : Option Nat) (n : Nat) (last : Bool) :
    SameCursors d (flushBlockCore d dt buf n last).1 :=
  .trans (planBlock_same d dt n) ⟨rfl, rfl, rfl, rfl, rfl, rfl, rfl⟩

theorem flushPending_same (x : DRun) : SameCursors x.d (flushPending x).d := ⟨rfl, rfl, rfl, rfl, rfl, rfl, rfl⟩

/-! ### A D-engine inside a command -/

/-- What holds of the private state while a command runs at tuning `t`: the cursors are in range, the window is two
windows long (10 R40), and the stream is no longer fresh. -/
structure Running (t : DTune) (d : DState) : Prop where
  cursors : d.CursorsOk
  window : d.conf.windowSize = 2 * d.conf.wSize
  started : d.lastFlush ≠ -2
  tune : d.tune = t

theorem Running.same {t : DTune} {d d' : DState} (h : Running t d) (s : SameCursors d d') : Running t d' where
  cursors :=
    { room := by rw [s.1, s.2, s.5]; exact h.cursors.room
      block := by rw [s.1, s.3]; exact h.cursors.block
      held := by rw [s.2, s.4]; exact h.cursors.held
      notHeld := by rw [s.4, s.6]; exact h.cursors.notHeld
      nothingAhead := by rw [s.2, s.6, s.7]; exact h.cursors.nothingAhead }
  window := by rw [s.5]; exact h.window
  started := by rw [s.7]; exact h.started
  tune := by rw [s.6]; exact h.tune

/-- The tuning asks for a function that holds no match back: not the slow one. -/
def DTune.eager (t : DTune) : Prop := t.level ≤ 3 ∨ t.strategy = zHuffmanOnly ∨ t.strategy = zRle

/-- The cursors after a change that keeps configuration, tuning and last_flush. -/
theorem Running.move {t : DTune} {d d' : DState} (h : Running t d) (conf : d'.conf = d.conf) (tune : d'.tune = d.tune)
    (flush : d'.lastFlush = d.lastFlush) (room : d'.strstart + d'.lookahead ≤ d.conf.windowSize)
    (block : d'.blockStart ≤ d'.strstart) (held : d'.matchLength ≤ max 2 (d'.lookahead + 1))
    (notHeld : t.eager → d'.matchLength ≤ 2) (ahead : t.level = 0 → d'.lookahead = 0) : Running t d' where
  cursors :=
    { room := by rw [conf]; exact room
      block := block
      held := held
      notHeld := by rw [tune, h.tune]; exact notHeld
      nothingAhead := fun e => by
        rw [tune, flush, h.tune] at e
        exact e.elim ahead fun e => absurd e h.started }
  window := by rw [conf]; exact h.window
  started := by rw [flush]; exact h.started
  tune := tune.trans h.tune

theorem Running.flushPending {t : DTune} {x : DRun} (h : Running t x.d) : Running t (flushPending x).d :=
  h.same (flushPending_same x)

/-! ### FILL_WINDOW (41 R207) -/

/-- The bytes held fit the window, and the block does not begin past strstart. -/
structure Fits (d : DState) : Prop where
  room : d.strstart + d.lookahead ≤ d.conf.windowSize
  block : d.blockStart ≤ d.strstart
  window : d.conf.windowSize = 2 * d.conf.wSize

/-- What FILL_WINDOW leaves alone, and that it takes nothing from what is ahead. -/
structure Filled (d d' : DState) : Prop where
  conf : d'.conf = d.conf
  tune : d'.tune = d.tune
  lastFlush : d'.lastFlush = d.lastFlush
  matchLength : d'.matchLength = d.matchLength
  ahead : d.lookahead ≤ d'.lookahead

theorem Filled.trans {a b c : DState} (h : Filled a b) (g : Filled b c) : Filled a c :=
  ⟨g.1.trans h.1, g.2.trans h.2, g.3.trans h.3, g.4.trans h.4, Nat.le_trans h.5 g.5⟩

theorem Fits.same {d d' : DState} (h : Fits d) (s : SameCursors d d') : Fits d' where
  room := by rw [s.1, s.2, s.5]; exact h.room
  block := by rw [s.1, s.3]; exact h.block
  window := by rw [s.5]; exact h.window

theorem slideIfNeeded_spec {d : DState} (h : Fits d) :
    Fits (slideIfNeeded d).1 ∧ Filled d (slideIfNeeded d).1 ∧
      (slideIfNeeded d).1.strstart + (slideIfNeeded d).1.lookahead + (slideIfNeeded d).2 ≤ d.conf.windowSize := by
  have hr := h.room
  have hb := h.block
  have hw := h.window
  rw [slideIfNeeded]
  split
  · refine ⟨⟨?_, ?_, hw⟩, ⟨rfl, rfl, rfl, rfl, Nat.le_refl _⟩, ?_⟩
    · show d.strstart - d.conf.wSize + d.lookahead ≤ d.conf.windowSize
      omega
    · show d.blockStart - d.conf.wSize ≤ ((d.strstart - d.conf.wSize : Nat) : Int)
      omega
    · show d.strstart - d.conf.wSize + d.lookahead + (d.conf.windowSize - d.lookahead - d.strstart + d.conf.wSize) ≤ _
      omega
  · refine ⟨h, ⟨rfl, rfl, rfl, rfl, Nat.le_refl _⟩, ?_⟩
    show d.strstart + d.lookahead + (d.conf.windowSize - d.lookahead - d.strstart) ≤ _
    omega

theorem fillLoop_spec (n : Nat) (x : DRun) (h : Fits x.d) : Fits (fillLoop n x).d ∧ Filled x.d (fillLoop n x).d := by
  induction n generalizing x with
  | zero => exact ⟨h, ⟨rfl, rfl, rfl, rfl, Nat.le_refl _⟩⟩
  | succ n ih =>
    obtain ⟨h1, f1, hroom⟩ := slideIfNeeded_spec h
    rw [fillLoop]
    generalize slideIfNeeded x.d = p at h1 f1 hroom
    obtain ⟨d, more⟩ := p
    dsimp only at h1 f1 hroom ⊢
    split
    · exact ⟨h1, f1⟩
    · have hlen : (readIn more { x with d := d }).1.length ≤ more := by rw [readIn_length]; exact Nat.min_le_right ..
      have h2 : Fits { d with
          window := d.window.setList (d.strstart + d.lookahead) (readIn more { x with d := d }).1
          lookahead := d.lookahead + (readIn more { x with d := d }).1.length } :=
        { room := by rw [f1.conf]; dsimp only; omega, block := h1.block, window := h1.window }
      have s := primeHash_same { d with
        window := d.window.setList (d.strstart + d.lookahead) (readIn more { x with d := d }).1
        lookahead := d.lookahead + (readIn more { x with d := d }).1.length }
      have h3 := h2.same s
      have f3 := f1.trans ⟨s.5, s.6, s.7, s.4, Nat.le_trans (Nat.le_add_right ..) (Nat.le_of_eq s.2.symm)⟩
      have more (y : DRun) (a : Fits y.d) (b : Filled x.d y.d) : Fits (fillLoop n y).d ∧ Filled x.d (fillLoop n y).d :=
        ⟨(ih y a).1, b.trans (ih y a).2⟩
      split
      · exact more _ h3 f3
      · exact ⟨h3, f3⟩

/-- FILL_WINDOW keeps the bytes held within the window, and only adds to what is ahead. -/
theorem fillWindow_spec (x : DRun) (h : Fits x.d) : Fits (fillWindow x).d ∧ Filled x.d (fillWindow x).d :=
  fillLoop_spec _ x h

/-- FILL_WINDOW keeps the cursors in range, where the stored function does not run. -/
theorem fillWindow_running {t : DTune} (ht : t.level ≠ 0) {x : DRun} (h : Running t x.d) : Running t (fillWindow x).d := by
  obtain ⟨g, f⟩ := fillWindow_spec x ⟨h.cursors.room, h.cursors.block, h.window⟩
  have held := h.cursors.held
  have ahead := f.ahead
  refine h.move f.conf f.tune f.lastFlush ?_ g.block ?_ (fun e => ?_) (fun e => absurd e ht)
  · rw [← f.conf]; exact g.room
  · rw [f.matchLength]; omega
  · rw [f.matchLength]; exact h.cursors.notHeld (by rw [h.tune]; exact e)

/-! ### Closing a block (44 R360, R361) -/

/-- FLUSH_BLOCK_ONLY moves block_start to strstart, and no other cursor. -/
theorem flushBlockOnly_same (last : Bool) (x : DRun) :
    SameCursors { x.d with blockStart := x.d.strstart } (flushBlockOnly last x).d := by
  rw [flushBlockOnly]
  dsimp only
  generalize hp : flushBlockCore x.d _ _ _ last = p
  have s : SameCursors x.d p.1 := hp ▸ flushBlockCore_same ..
  obtain ⟨d, dt⟩ := p
  exact .trans (b := { d with blockStart := d.strstart })
    ⟨s.1, s.2, congrArg Int.ofNat s.1, s.4, s.5, s.6, s.7⟩ (flushPending_same { x with d := { d with blockStart := d.strstart }, regs := _ })

theorem flushBlockOnly_running {t : DTune} (last : Bool) {x : DRun} (h : Running t x.d) :
    Running t (flushBlockOnly last x).d :=
  Running.same (h.move (d' := { x.d with blockStart := x.d.strstart }) rfl rfl rfl h.cursors.room (Int.le_refl _)
    h.cursors.held (fun e => h.cursors.notHeld (by rw [h.tune]; exact e))
    fun e => h.cursors.nothingAhead (.inl (by rw [h.tune]; exact e))) (flushBlockOnly_same last x)

theorem flushBlock_running {t : DTune} (last : Bool) {x : DRun} (h : Running t x.d) : Running t (flushBlock last x).2.d := by
  rw [flushBlock]
  split <;> exact flushBlockOnly_running last h

theorem finishStrategy_running {t : DTune} (flush ins : Nat) {x : DRun} (h : Running t x.d) :
    Running t (finishStrategy flush ins x).2.d := by
  have g : Running t { x.d with insert := ins } := h.same ⟨rfl, rfl, rfl, rfl, rfl, rfl, rfl⟩
  rw [finishStrategy]
  split
  · exact flushBlock_running true (x := { x with d := { x.d with insert := ins } }) g
  · split
    · exact flushBlock_running false (x := { x with d := { x.d with insert := ins } }) g
    · exact g

theorem closeIfFull_running {t : DTune} (bflush : Bool) {x : DRun} (h : Running t x.d) :
    Running t (closeIfFull bflush x).2.d := by
  have g := flushBlock_running false h
  rw [closeIfFull]
  split
  · generalize flushBlock false x = p at g
    obtain ⟨b, y⟩ := p
    cases b <;> exact g
  · exact h

/-- What every pass keeps, the loop keeps. -/
theorem strategyLoop_keeps {P : DRun → Prop} {step : DRun → Pass × DRun} (keeps : ∀ x, P x → P (step x).2) (n : Nat)
    (x : DRun) (h : P x) : P (strategyLoop step n x).2 := by
  induction n generalizing x with
  | zero => exact h
  | succ n ih =>
    have g := keeps x h
    rw [strategyLoop]
    generalize step x = p at g
    obtain ⟨b, y⟩ := p
    cases b
    · exact g
    · exact ih y g

/-! ### The strategy functions -/

/-- The next byte becomes a literal. -/
theorem emitLiteral_running {t : DTune} (ht : t.level ≠ 0) {d : DState} (h : Running t d) (ahead : d.lookahead ≠ 0)
    (ml : d.matchLength ≤ 2) : Running t (emitLiteral d).2 := by
  have hr := h.cursors.room
  have hb := h.cursors.block
  refine h.move rfl rfl rfl ?_ ?_ ?_ (fun _ => ml) (fun e => absurd e ht)
  · show d.strstart + 1 + (d.lookahead - 1) ≤ _
    omega
  · show d.blockStart ≤ ((d.strstart + 1 : Nat) : Int)
    omega
  · show d.matchLength ≤ max 2 _
    omega

/-- A match of `len` bytes that are ahead is moved past. -/
theorem Running.skip {t : DTune} (ht : t.level ≠ 0) {d d' : DState} (h : Running t d) (len : Nat) (le : len ≤ d.lookahead)
    (conf : d'.conf = d.conf) (tune : d'.tune = d.tune) (flush : d'.lastFlush = d.lastFlush)
    (block : d'.blockStart = d.blockStart) (strstart : d'.strstart = d.strstart + len)
    (lookahead : d'.lookahead = d.lookahead - len) (ml : d'.matchLength ≤ 2) : Running t d' := by
  have hr := h.cursors.room
  have hb := h.cursors.block
  refine h.move conf tune flush ?_ ?_ ?_ (fun _ => ml) (fun e => absurd e ht) <;> omega

theorem refill_running {t : DTune} (ht : t.level ≠ 0) {x : DRun} (h : Running t x.d) : Running t (refill x).d := by
  rw [refill]
  split
  · exact fillWindow_running ht h
  · exact h

theorem insertHere_same (d : DState) : SameCursors d (insertHere d).2 := by
  rw [insertHere]
  split
  · exact insertString_same ..
  · exact .refl d

/-- The search of R220 changes match_length alone, to at most what is ahead if to anything. -/
theorem fastSearch_spec (d : DState) :
    ∃ ml, SameCursors { d with matchLength := ml } (fastSearch d) ∧ (ml = d.matchLength ∨ ml ≤ d.lookahead) := by
  have s := insertHere_same d
  rw [fastSearch]
  generalize insertHere d = p at s
  obtain ⟨hd, e⟩ := p
  dsimp only at s ⊢
  split
  · exact ⟨(longestMatch hd e).1, ⟨s.1, s.2, s.3, rfl, s.5, s.6, s.7⟩, .inr (s.2 ▸ longestMatch_le hd e)⟩
  · exact ⟨e.matchLength, ⟨s.1, s.2, s.3, rfl, s.5, s.6, s.7⟩, .inl s.4⟩

theorem fastMatch_spec (d : DState) :
    (fastMatch d).2.strstart = d.strstart + d.matchLength ∧ (fastMatch d).2.lookahead = d.lookahead - d.matchLength ∧
      (fastMatch d).2.blockStart = d.blockStart ∧ (fastMatch d).2.matchLength = 0 ∧ (fastMatch d).2.conf = d.conf ∧
      (fastMatch d).2.tune = d.tune ∧ (fastMatch d).2.lastFlush = d.lastFlush := by
  rw [fastMatch]
  generalize hp : tallyDist _ _ d = p
  have s : SameCursors d p.2 := hp ▸ tallyDist_same ..
  obtain ⟨b, e⟩ := p
  dsimp only at s ⊢
  split
  · have g := insertStrings_same (d.matchLength - 1) (e.strstart + 1) { e with lookahead := e.lookahead - d.matchLength }
    exact ⟨by rw [← s.1]; exact congrArg (· + d.matchLength) g.1, by rw [← s.2]; exact g.2, by rw [← s.3]; exact g.3, rfl,
      by rw [← s.5]; exact g.5, by rw [← s.6]; exact g.6, by rw [← s.7]; exact g.7⟩
  · exact ⟨by rw [← s.1], by rw [← s.2], s.3, rfl, s.5, s.6, s.7⟩

theorem fastCode_running {t : DTune} (ht : t.level ≠ 0) (eager : t.eager) {d : DState} (h : Running t d)
    (ahead : d.lookahead ≠ 0) : Running t (fastCode d).2 := by
  obtain ⟨ml, s, hml⟩ := fastSearch_spec d
  have small : d.matchLength ≤ 2 := h.cursors.notHeld (by rw [h.tune]; exact eager)
  rw [fastCode]
  split
  · rename_i long
    obtain ⟨f1, f2, f3, f4, f5, f6, f7⟩ := fastMatch_spec (fastSearch d)
    have e4 : (fastSearch d).matchLength = ml := s.4
    refine h.skip ht ml ?_ (f5.trans s.5) (f6.trans s.6) (f7.trans s.7) (f3.trans s.3)
      (by rw [f1, s.1, e4]) (by rw [f2, s.2, e4]) (by rw [f4]; omega)
    simp only [minMatch] at long
    omega
  · rename_i short
    simp only [minMatch] at short
    have e4 : (fastSearch d).matchLength = ml := s.4
    have g : Running t (fastSearch d) := by
      refine h.move s.5 s.6 s.7 ?_ ?_ ?_ (fun _ => by omega) (fun e => absurd e ht)
      · rw [s.1, s.2]; exact h.cursors.room
      · rw [s.1, s.3]; exact h.cursors.block
      · omega
    exact emitLiteral_running ht g (by rw [s.2]; exact ahead) (by omega)

theorem fastStep_running {t : DTune} (ht : t.level ≠ 0) (eager : t.eager) (flush : Nat) (x : DRun) (h : Running t x.d) :
    Running t (fastStep flush x).2.d := by
  have g := refill_running ht h
  rw [fastStep]
  generalize refill x = y at g
  split
  · exact g
  · split
    · exact finishStrategy_running flush _ g
    · rename_i ahead
      exact closeIfFull_running _ (x := { y with d := _ }) (fastCode_running ht eager g ahead)

theorem deflateFast_running {t : DTune} (ht : t.level ≠ 0) (eager : t.eager) (flush : Nat) {x : DRun} (h : Running t x.d) :
    Running t (deflateFast flush x).2.d :=
  strategyLoop_keeps (P := fun x => Running t x.d) (fastStep_running ht eager flush) _ x h

theorem either_le {p : Prop} [Decidable p] {a b n : Nat} (ha : a ≤ n) (hb : b ≤ n) : (if p then a else b) ≤ n := by
  split <;> assumption

/-- The search of R221 moves match_length to prev_length, and leaves a match_length that fits what is ahead. -/
theorem slowSearch_spec (d : DState) :
    SameCursors { d with matchLength := (slowSearch d).matchLength } (slowSearch d) ∧
      (slowSearch d).matchLength ≤ max 2 d.lookahead ∧ (slowSearch d).prevLength = d.matchLength := by
  have s := insertHere_same d
  rw [slowSearch]
  generalize insertHere d = p at s
  obtain ⟨hd, e⟩ := p
  dsimp only [minMatch] at s ⊢
  split
  · refine ⟨⟨s.1, s.2, s.3, rfl, s.5, s.6, s.7⟩, ?_, s.4⟩
    have le := longestMatch_le hd { e with prevLength := e.matchLength, prevMatch := e.matchStart, matchLength := 3 - 1 }
    rw [← s.2]
    exact either_le (Nat.le_max_left ..) (Nat.le_trans le (Nat.le_max_right ..))
  · exact ⟨⟨s.1, s.2, s.3, rfl, s.5, s.6, s.7⟩, Nat.le_max_left .., s.4⟩

theorem slowMatch_spec (d : DState) :
    (slowMatch d).2.strstart = d.strstart + (d.prevLength - 1) ∧ (slowMatch d).2.lookahead = d.lookahead - (d.prevLength - 1) ∧
      (slowMatch d).2.blockStart = d.blockStart ∧ (slowMatch d).2.matchLength = 2 ∧ (slowMatch d).2.conf = d.conf ∧
      (slowMatch d).2.tune = d.tune ∧ (slowMatch d).2.lastFlush = d.lastFlush := by
  rw [slowMatch]
  generalize hp : tallyDist _ _ d = p
  have s : SameCursors d p.2 := hp ▸ tallyDist_same ..
  obtain ⟨b, e⟩ := p
  have g := s.trans (insertUpTo_same (d.strstart + d.lookahead - minMatch) (d.prevLength - 2) (e.strstart + 1) e)
  dsimp only at g ⊢
  exact ⟨by rw [g.1], by rw [g.2], g.3, rfl, g.5, g.6, g.7⟩

/-- The slow function's literal: a byte of those ahead is moved past, and the match held back shrinks with them. -/
theorem Running.next {t : DTune} (ht : t.level ≠ 0) (lazy : ¬ t.eager) {d d' : DState} (h : Running t d)
    (ahead : d.lookahead ≠ 0) (conf : d'.conf = d.conf) (tune : d'.tune = d.tune) (flush : d'.lastFlush = d.lastFlush)
    (strstart : d'.strstart = d.strstart + 1) (lookahead : d'.lookahead = d.lookahead - 1)
    (block : d'.blockStart ≤ d.strstart) (ml : d'.matchLength ≤ max 2 d.lookahead) : Running t d' := by
  have hr := h.cursors.room
  refine h.move conf tune flush ?_ ?_ ?_ (fun e => absurd e lazy) (fun e => absurd e ht) <;> omega

/-- Closing the block only when it is full leaves block_start, or moves it to strstart. -/
theorem flushIfFull_same (full : Bool) (x : DRun) :
    ∃ bs, (bs = x.d.blockStart ∨ bs = x.d.strstart) ∧
      SameCursors { x.d with blockStart := bs } (if full = true then flushBlockOnly false x else x).d := by
  split
  · exact ⟨_, .inr rfl, flushBlockOnly_same false x⟩
  · exact ⟨_, .inl rfl, .refl x.d⟩

theorem slowCode_running {t : DTune} (ht : t.level ≠ 0) (lazy : ¬ t.eager) {x : DRun} (h : Running t x.d)
    (ahead : x.d.lookahead ≠ 0) : Running t (slowCode x).2.d := by
  obtain ⟨s, hml, hprev⟩ := slowSearch_spec x.d
  have held := h.cursors.held
  have e2 : (slowSearch x.d).lookahead = x.d.lookahead := s.2
  have g : Running t (slowSearch x.d) := by
    refine h.move s.5 s.6 s.7 ?_ ?_ ?_ (fun e => absurd e lazy) (fun e => absurd e ht)
    · rw [s.1, s.2]; exact h.cursors.room
    · rw [s.1, s.3]; exact h.cursors.block
    · omega
  clear s
  rw [slowCode]
  generalize slowSearch x.d = d at *
  dsimp only
  split
  · rename_i long
    simp only [minMatch] at long
    obtain ⟨f1, f2, f3, f4, f5, f6, f7⟩ := slowMatch_spec d
    exact closeIfFull_running _ (x := { x with d := (slowMatch d).2 })
      (g.skip ht (d.prevLength - 1) (by omega) f5 f6 f7 f3 f1 f2 (Nat.le_of_eq f4))
  · split
    · have s := tallyLit_same (d.window.get (d.strstart - 1)) d
      generalize tallyLit (d.window.get (d.strstart - 1)) d = p at s
      obtain ⟨full, e⟩ := p
      obtain ⟨bs, hbs, f⟩ := flushIfFull_same full { x with d := e }
      dsimp only at s f hbs ⊢
      generalize (if full = true then flushBlockOnly false { x with d := e } else { x with d := e }) = y at f ⊢
      have next : Running t { y.d with strstart := y.d.strstart + 1, lookahead := y.d.lookahead - 1 } := by
        refine g.next ht lazy (by omega) (f.5.trans s.5) (f.6.trans s.6) (f.7.trans s.7)
          (congrArg (· + 1) (f.1.trans s.1)) (congrArg (· - 1) (f.2.trans s.2)) ?_ ?_
        · have hb := g.cursors.block
          have e3 : y.d.blockStart = bs := f.3
          have := s.1
          have := s.3
          dsimp only
          omega
        · have e4 : y.d.matchLength = d.matchLength := f.4.trans s.4
          dsimp only
          omega
      split <;> exact next
    · exact g.next ht lazy (by omega) rfl rfl rfl rfl rfl g.cursors.block (by dsimp only; omega)

theorem slowStep_running {t : DTune} (ht : t.level ≠ 0) (lazy : ¬ t.eager) (flush : Nat) (x : DRun) (h : Running t x.d) :
    Running t (slowStep flush x).2.d := by
  have g := refill_running ht h
  rw [slowStep]
  generalize refill x = y at g
  split
  · exact g
  · split
    · refine finishStrategy_running flush _ (x := { y with d := slowLast y.d }) ?_
      dsimp only
      rw [slowLast]
      split
      · exact g.same ⟨rfl, rfl, rfl, rfl, rfl, rfl, rfl⟩
      · exact g
    · exact slowCode_running ht lazy g (by assumption)

theorem deflateSlow_running {t : DTune} (ht : t.level ≠ 0) (lazy : ¬ t.eager) (flush : Nat) {x : DRun}
    (h : Running t x.d) : Running t (deflateSlow flush x).2.d :=
  strategyLoop_keeps (P := fun x => Running t x.d) (slowStep_running ht lazy flush) _ x h

/-- RLE_MATCH finds no more than is ahead. -/
theorem rleMatch_le (d : DState) : rleMatch d ≤ d.lookahead := by
  rw [rleMatch]
  split
  · exact Nat.min_le_right ..
  · exact Nat.zero_le _

theorem rleCode_running {t : DTune} (ht : t.level ≠ 0) {d : DState} (h : Running t d) (ahead : d.lookahead ≠ 0) :
    Running t (rleCode d).2 := by
  have le : (if minMatch ≤ d.lookahead ∧ 0 < d.strstart then rleMatch d else 0) ≤ d.lookahead :=
    either_le (rleMatch_le d) (Nat.zero_le _)
  rw [rleCode]
  generalize (if minMatch ≤ d.lookahead ∧ 0 < d.strstart then rleMatch d else 0) = len at le
  dsimp only
  split
  · exact h.skip ht len le rfl rfl rfl rfl rfl rfl (Nat.zero_le _)
  · rename_i short
    simp only [minMatch] at short
    refine emitLiteral_running ht (d := { d with matchLength := len }) ?_ ahead (by dsimp only; omega)
    exact h.move rfl rfl rfl h.cursors.room h.cursors.block (by dsimp only; omega) (fun _ => by dsimp only; omega)
      (fun e => absurd e ht)

theorem rleStep_running {t : DTune} (ht : t.level ≠ 0) (flush : Nat) (x : DRun) (h : Running t x.d) :
    Running t (rleStep flush x).2.d := by
  rw [rleStep]
  generalize hy : (if x.d.lookahead ≤ maxMatch then fillWindow x else x) = y
  have g : Running t y.d := by
    subst hy
    split
    · exact fillWindow_running ht h
    · exact h
  dsimp only
  split
  · exact g
  · split
    · exact finishStrategy_running flush _ g
    · exact closeIfFull_running _ (x := { y with d := _ }) (rleCode_running ht g (by assumption))

theorem deflateRle_running {t : DTune} (ht : t.level ≠ 0) (flush : Nat) {x : DRun} (h : Running t x.d) :
    Running t (deflateRle flush x).2.d :=
  strategyLoop_keeps (P := fun x => Running t x.d) (rleStep_running ht flush) _ x h

theorem huffStep_running {t : DTune} (ht : t.level ≠ 0) (flush : Nat) (x : DRun) (h : Running t x.d) :
    Running t (huffStep flush x).2.d := by
  rw [huffStep]
  generalize hy : (if x.d.lookahead = 0 then fillWindow x else x) = y
  have g : Running t y.d := by
    subst hy
    split
    · exact fillWindow_running ht h
    · exact h
  dsimp only
  split
  · split
    · exact g
    · exact finishStrategy_running flush _ g
  · refine closeIfFull_running _ (x := { y with d := _ })
      (emitLiteral_running ht (d := { y.d with matchLength := 0 }) ?_ (by assumption) (Nat.zero_le _))
    exact g.move rfl rfl rfl g.cursors.room g.cursors.block (Nat.zero_le _) (fun _ => Nat.zero_le _) (fun e => absurd e ht)

theorem deflateHuff_running {t : DTune} (ht : t.level ≠ 0) (flush : Nat) {x : DRun} (h : Running t x.d) :
    Running t (deflateHuff flush x).2.d :=
  strategyLoop_keeps (P := fun x => Running t x.d) (huffStep_running ht flush) _ x h

/-! ### The stored function (44 R370) -/

/-- strstart and block_start moved, and nothing else among the cursors. -/
theorem Running.place {t : DTune} {d d' : DState} (h : Running t d) (conf : d'.conf = d.conf) (tune : d'.tune = d.tune)
    (flush : d'.lastFlush = d.lastFlush) (lookahead : d'.lookahead = d.lookahead) (ml : d'.matchLength = d.matchLength)
    (room : d'.strstart + d.lookahead ≤ d.conf.windowSize) (block : d'.blockStart ≤ d'.strstart) : Running t d' :=
  h.move conf tune flush (by rw [lookahead]; exact room) block (by rw [ml, lookahead]; exact h.cursors.held)
    (fun e => by rw [ml]; exact h.cursors.notHeld (by rw [h.tune]; exact e))
    fun e => by rw [lookahead]; exact h.cursors.nothingAhead (.inl (by rw [h.tune]; exact e))

theorem storedCopy_running {t : DTune} (left len : Nat) {x : DRun} (h : Running t x.d) (hl : left ≤ blockLeft x.d) :
    Running t (storedCopy left len x).d := by
  have hb := h.cursors.block
  rw [blockLeft] at hl
  rw [storedCopy]
  generalize hy : (if left = 0 then x else _) = y
  have g : Running t y.d := by
    subst hy
    split
    · exact h
    · exact h.place rfl rfl rfl rfl rfl h.cursors.room (by dsimp only; omega)
  dsimp only
  split
  · exact g
  · exact g

theorem storedDirect_running {t : DTune} (flush n : Nat) (x : DRun) (h : Running t x.d) :
    Running t (storedDirect flush n x).2.d := by
  induction n generalizing x with
  | zero => exact h
  | succ n ih =>
    rw [storedDirect]
    split
    · exact h
    · rename_i len _
      dsimp only
      have headed (w : BitWriter) : Running t (flushPending { x with d := { x.d with bw := w } }).d :=
        h.place rfl rfl rfl rfl rfl h.cursors.room h.cursors.block
      have g (w : BitWriter) :=
        storedCopy_running (min (blockLeft x.d) len) (len - min (blockLeft x.d) len) (headed w) (Nat.min_le_left ..)
      split
      · exact g _
      · exact ih _ (g _)

theorem storedKeep_running {t : DTune} (used : Nat) {x : DRun} (h : Running t x.d) (ahead : x.d.lookahead = 0) :
    Running t (storedKeep used x).d := by
  have hr := h.cursors.room
  have hw := h.window
  rw [storedKeep]
  split
  · exact h
  · dsimp only
    split
    · exact h.place rfl rfl rfl rfl rfl (by dsimp only; omega) (Int.le_refl _)
    · split
      · refine h.place rfl rfl rfl rfl rfl ?_ (Int.le_refl _)
        show x.d.strstart - x.d.conf.wSize + _ + _ ≤ _
        rw [Memory.readN_length]
        omega
      · refine h.place rfl rfl rfl rfl rfl ?_ (Int.le_refl _)
        show x.d.strstart + _ + _ ≤ _
        rw [Memory.readN_length]
        omega

theorem storedFill_running {t : DTune} {x : DRun} (h : Running t x.d) (ahead : x.d.lookahead = 0) :
    Running t (storedFill x).d := by
  have hr := h.cursors.room
  have hb := h.cursors.block
  have hw := h.window
  rw [storedFill]
  dsimp only
  split
  · refine h.place rfl rfl rfl rfl rfl ?_ ?_
    · show x.d.strstart - x.d.conf.wSize + (readIn _ _).1.length + _ ≤ _
      rw [readIn_length]
      omega
    · show x.d.blockStart - x.d.conf.wSize ≤ ((x.d.strstart - x.d.conf.wSize + _ : Nat) : Int)
      omega
  · refine h.place rfl rfl rfl rfl rfl ?_ ?_
    · show x.d.strstart + (readIn _ _).1.length + _ ≤ _
      rw [readIn_length]
      omega
    · show x.d.blockStart ≤ ((x.d.strstart + _ : Nat) : Int)
      omega

theorem storedFromWindow_running {t : DTune} (flush : Nat) {x : DRun} (h : Running t x.d) :
    Running t (storedFromWindow flush x).2.d := by
  have hb := h.cursors.block
  rw [storedFromWindow]
  dsimp only
  split
  · refine Running.flushPending (x := { x with d := _ }) (h.place rfl rfl rfl rfl rfl h.cursors.room ?_)
    dsimp only [blockLeft]
    omega
  · exact h

theorem deflateStored_running {t : DTune} (ht : t.level = 0) (flush : Nat) {x : DRun} (h : Running t x.d) :
    Running t (deflateStored flush x).2.d := by
  have zero : ∀ {d : DState}, Running t d → d.lookahead = 0 :=
    fun g => g.cursors.nothingAhead (.inl (by rw [g.tune]; exact ht))
  have g := storedDirect_running flush (blockLeft x.d + x.regs.availIn.toNat + 1) x h
  rw [deflateStored]
  generalize storedDirect flush _ x = p at g
  obtain ⟨last, y⟩ := p
  have k := storedKeep_running (x.regs.availIn.toNat - y.regs.availIn.toNat) g (zero g)
  dsimp only
  split
  · exact k
  · split
    · exact k
    · exact storedFromWindow_running flush (storedFill_running k (zero k))

/-- The strategy function keeps the cursors in range (44 R371). -/
theorem runStrategy_running {t : DTune} (flush : Nat) {x : DRun} (h : Running t x.d) :
    Running t (runStrategy flush x).2.d := by
  have ht := h.tune
  rw [runStrategy]
  split
  · exact deflateStored_running (by rw [← ht]; assumption) flush h
  · have hl : t.level ≠ 0 := by rw [← ht]; assumption
    split
    · exact deflateHuff_running hl flush h
    · split
      · exact deflateRle_running hl flush h
      · split
        · exact deflateFast_running hl (.inl (by rw [← ht]; assumption)) flush h
        · refine deflateSlow_running hl ?_ flush h
          rw [DTune.eager, ← ht]
          omega

/-! ### DEFLATE_CALL (44 R381) -/

theorem flushActions_running {t : DTune} (flush : Nat) {d : DState} (h : Running t d) : Running t (flushActions flush d) := by
  rw [flushActions]
  split
  · exact h.same ⟨rfl, rfl, rfl, rfl, rfl, rfl, rfl⟩
  · split
    · exact h
    · dsimp only
      split
      · split
        · rename_i ahead
          have ahead : d.lookahead = 0 := ahead
          exact h.place rfl rfl rfl rfl rfl (by rw [ahead]; exact Nat.zero_le _) (Int.le_refl _)
        · exact h.same ⟨rfl, rfl, rfl, rfl, rfl, rfl, rfl⟩
      · exact h.same ⟨rfl, rfl, rfl, rfl, rfl, rfl, rfl⟩

/-- What every phase keeps, a phase that runs unless a status has been reached keeps. -/
theorem unlessEnded_keeps {P : DRun → Prop} {r : Option Status × DRun} {f : DRun → Option Status × DRun} (h : P r.2)
    (keeps : ∀ x, P x → P (f x).2) : P (unlessEnded r f).2 := by
  obtain ⟨st, x⟩ := r
  cases st
  · exact keeps x h
  · exact h

theorem callChecks_d (flush : Nat) (x : DRun) : (callChecks flush x).2.d = x.d := by
  rw [callChecks]
  split
  · rfl
  · split
    · rfl
    · split <;> rfl

theorem Running.setLastFlush {t : DTune} {x : DRun} (h : Running t x.d) (f : Int) (hf : f ≠ -2) :
    Running t (x.setLastFlush f).d where
  cursors :=
    { room := h.cursors.room
      block := h.cursors.block
      held := h.cursors.held
      notHeld := h.cursors.notHeld
      nothingAhead := fun e => h.cursors.nothingAhead (.inl (e.elim id fun e => absurd e hf)) }
  window := h.window
  started := hf
  tune := h.tune

theorem Running.setStatus {t : DTune} {x : DRun} (h : Running t x.d) (s : DStatus) : Running t (x.setStatus s).d :=
  h.same ⟨rfl, rfl, rfl, rfl, rfl, rfl, rfl⟩

theorem natCast_ne_neg_two (n : Nat) : (n : Int) ≠ -2 := by omega

/-- Step 1 of DEFLATE_CALL: a stream is no longer fresh after it. -/
theorem drainPending_running (flush : Nat) {x : DRun} (h : x.d.CursorsOk) (window : x.d.conf.windowSize = 2 * x.d.conf.wSize) :
    Running x.d.tune (drainPending flush x).2.d := by
  have g : Running x.d.tune (x.setLastFlush flush).d :=
    { cursors :=
        { room := h.room, block := h.block, held := h.held, notHeld := h.notHeld
          nothingAhead := fun e => h.nothingAhead
            (.inl (e.elim id fun e => absurd e (natCast_ne_neg_two flush))) }
      window := window, started := natCast_ne_neg_two flush, tune := rfl }
  rw [drainPending]
  dsimp only
  split
  · split
    · exact g.flushPending.setLastFlush (-1) (by decide)
    · exact g.flushPending
  · split <;> exact g

theorem startStream_running {t : DTune} (x : DRun) (h : Running t x.d) : Running t (startStream x).2.d := by
  have headed : Running t (flushPending ((writeHeader x).setStatus .busy)).d :=
    Running.flushPending (h.same ⟨rfl, rfl, rfl, rfl, rfl, rfl, rfl⟩)
  rw [startStream]
  split
  · split
    · exact h.setStatus _
    · dsimp only
      split
      · exact headed.setLastFlush (-1) (by decide)
      · exact headed
  · exact h

theorem afterStrategy_running {t : DTune} (flush : Nat) (b : BState) {x : DRun} (h : Running t x.d) :
    Running t (afterStrategy flush b x).2.d := by
  have neg {y : DRun} (g : Running t y.d) : Running t (if y.regs.availOut = 0 then y.setLastFlush (-1) else y).d := by
    split
    · exact g.setLastFlush (-1) (by decide)
    · exact g
  have acted : Running t (flushPending { x with d := flushActions flush x.d }).d :=
    Running.flushPending (flushActions_running flush h)
  cases b
  · exact neg h
  · rw [afterStrategy]
    split
    · exact acted.setLastFlush (-1) (by decide)
    · exact acted
  · exact neg (h.setStatus .finish)
  · exact h.setStatus .finish

theorem compressInput_running {t : DTune} (flush : Nat) (x : DRun) (h : Running t x.d) :
    Running t (compressInput flush x).2.d := by
  rw [compressInput]
  split
  · exact afterStrategy_running flush _ (runStrategy_running flush h)
  · exact h

theorem endStream_running {t : DTune} (flush : Nat) {x : DRun} (h : Running t x.d) : Running t (endStream flush x).2.d := by
  rw [endStream]
  split
  · exact h
  · split
    · exact h
    · exact h.same ⟨rfl, rfl, rfl, rfl, rfl, rfl, rfl⟩

/-- DEFLATE_CALL leaves the private state as it was, or with its cursors in range, its tuning kept and last_flush set. -/
theorem deflateCall_running (flush : Nat) (x : DRun) (h : x.d.CursorsOk) (window : x.d.conf.windowSize = 2 * x.d.conf.wSize) :
    (deflateCall flush x).2.d = x.d ∨ Running x.d.tune (deflateCall flush x).2.d := by
  have hd := callChecks_d flush x
  rw [deflateCall]
  generalize callChecks flush x = r at hd
  obtain ⟨st, y⟩ := r
  cases st with
  | some st => exact .inl hd
  | none =>
    right
    have hd : y.d = x.d := hd
    have g : Running x.d.tune (drainPending flush y).2.d := hd ▸ drainPending_running flush (hd ▸ h) (hd ▸ window)
    have late (z : DRun) (k : Running x.d.tune z.d) : Running x.d.tune (refuseLateInput z).2.d := by
      rw [refuseLateInput]
      split <;> exact k
    have all := unlessEnded_keeps (P := fun x' => Running x.d.tune x'.d)
      (unlessEnded_keeps (P := fun x' => Running x.d.tune x'.d)
        (unlessEnded_keeps (P := fun x' => Running x.d.tune x'.d) g late) startStream_running)
      (compressInput_running flush)
    rw [show unlessEnded (none, y) (drainPending flush) = drainPending flush y from rfl]
    generalize unlessEnded (unlessEnded (unlessEnded (drainPending flush y) refuseLateInput) startStream)
      (compressInput flush) = q at all
    obtain ⟨st, z⟩ := q
    cases st
    · exact endStream_running flush all
    · exact all

/-! ### The commands -/

theorem deflateCall_cursors (flush : Nat) (x : DRun) (h : x.d.CursorsOk) (window : x.d.conf.windowSize = 2 * x.d.conf.wSize) :
    (deflateCall flush x).2.d.CursorsOk := by
  obtain e | r := deflateCall_running flush x h window
  · rw [e]; exact h
  · exact r.cursors

/-- DRESET starts with the cursors in range (44 R383). -/
theorem resetDeflate_cursors (d : DState) : (resetDeflate d).CursorsOk where
  room := Nat.zero_le _
  block := Int.le_refl _
  held := Nat.le_max_left ..
  notHeld := fun _ => Nat.le_refl _
  nothingAhead := fun _ => rfl

theorem leaveStored_same (d : DState) : SameCursors d { leaveStored d with tune := d.tune } := by
  rw [leaveStored]
  split
  · split <;> exact ⟨rfl, rfl, rfl, rfl, rfl, rfl, rfl⟩
  · exact .refl d

/-- The function column of R200 tells level 0 from the fast levels and these from the slow ones. -/
theorem levelFunc_eq {a b : Nat} (h : levelFunc a = levelFunc b) : (a = 0 ↔ b = 0) ∧ (a ≤ 3 ↔ b ≤ 3) := by
  simp only [levelFunc] at h
  repeat' split at h
  all_goals first | omega | cases h

/-- Another tuning keeps the cursors in range if it asks for no more than the old one, or if nothing is ahead. -/
theorem DState.CursorsOk.retune {d d' : DState} (h : d.CursorsOk) (s : SameCursors d { d' with tune := d.tune })
    (ok : d.lookahead = 0 ∨ (d'.tune.eager → d.tune.eager) ∧ (d'.tune.level = 0 → d.tune.level = 0)) : d'.CursorsOk := by
  have e1 : d'.strstart = d.strstart := s.1
  have e2 : d'.lookahead = d.lookahead := s.2
  have e4 : d'.matchLength = d.matchLength := s.4
  have held := h.held
  refine ⟨?_, ?_, ?_, fun e => ?_, fun e => ?_⟩
  · rw [e1, e2, show d'.conf = d.conf from s.5]; exact h.room
  · rw [e1, show d'.blockStart = d.blockStart from s.3]; exact h.block
  · rw [e2, e4]; exact held
  · rw [e4]
    obtain z | ⟨f, -⟩ := ok
    · omega
    · exact h.notHeld (f e)
  · rw [e2]
    obtain z | ⟨-, f⟩ := ok
    · exact z
    · exact h.nothingAhead (e.imp f fun e => (show d'.lastFlush = d.lastFlush from s.7).symm.trans e)

theorem configRow_level : ∀ level ≤ 9, ∀ strategy, (configRow level strategy).level = level
  | 0, _, _ | 1, _, _ | 2, _, _ | 3, _, _ | 4, _, _ | 5, _, _ | 6, _, _ | 7, _, _ | 8, _, _ | 9, _, _ => rfl

theorem configRow_strategy : ∀ level ≤ 9, ∀ strategy, (configRow level strategy).strategy = strategy
  | 0, _, _ | 1, _, _ | 2, _, _ | 3, _, _ | 4, _, _ | 5, _, _ | 6, _, _ | 7, _, _ | 8, _, _ | 9, _, _ => rfl

/-- A new level and strategy, with nothing ahead, or of the same strategy function (44 R384). -/
theorem setTune_cursors (level strategy : Nat) (hl : level ≤ 9) (d : DState) (h : d.CursorsOk)
    (ok : d.lookahead = 0 ∨ strategy = d.tune.strategy ∧ levelFunc d.tune.level = levelFunc level) :
    (setTune level strategy d).CursorsOk := by
  rw [setTune]
  split
  · refine h.retune (leaveStored_same d) (ok.imp_right fun ⟨e, f⟩ => ?_)
    obtain ⟨z, le⟩ := levelFunc_eq f
    rw [DTune.eager, DTune.eager, configRow_level level hl, configRow_strategy level hl, e, z, le]
    exact ⟨id, id⟩
  · refine h.retune (.refl d) (ok.imp_right fun ⟨e, _⟩ => ?_)
    rw [DTune.eager, DTune.eager, e]
    exact ⟨id, id⟩

/-- DPARAMS keeps the cursors in range (44 R384): it changes the strategy function only once nothing is ahead. -/
theorem changeParams_cursors (level strategy : Nat) (hl : level ≤ 9) (x : DRun) (h : x.d.CursorsOk)
    (window : x.d.conf.windowSize = 2 * x.d.conf.wSize) : (changeParams level strategy x).2.d.CursorsOk := by
  have g := deflateCall_cursors zBlock x h window
  rw [changeParams]
  split
  · generalize deflateCall zBlock x = p at g
    obtain ⟨st, y⟩ := p
    dsimp only at g ⊢
    split
    · exact g
    · split
      · exact g
      · rename_i done
        have hb := g.block
        exact setTune_cursors level strategy hl y.d g (.inl (by omega))
  · rename_i keep
    refine setTune_cursors level strategy hl x.d h ?_
    by_cases e : x.d.lastFlush = -2
    · exact .inl (h.nothingAhead (.inr e))
    · refine .inr ?_
      simp only [ne_eq, not_and, Decidable.not_not] at keep
      by_cases f : strategy = x.d.tune.strategy
      · by_cases l : levelFunc x.d.tune.level = levelFunc level
        · exact ⟨f, l⟩
        · exact absurd (keep (.inr l)) e
      · exact absurd (keep (.inl f)) e

/-- The loop of DSETDICT (44 R385) keeps the bytes held within the window. -/
theorem dictLoop_fits (n : Nat) (x : DRun) (h : Fits x.d) :
    Fits (dictLoop n x).d := by
  induction n generalizing x with
  | zero => exact h
  | succ n ih =>
    rw [dictLoop]
    split
    · rename_i long
      simp only [minMatch] at long
      have s := insertStrings_same (x.d.lookahead - 2) x.d.strstart x.d
      have hr := h.room
      have hb := h.block
      refine ih _ (fillWindow_spec _ ⟨?_, ?_, ?_⟩).1
      · dsimp only; rw [s.5]; omega
      · dsimp only; rw [s.3]; omega
      · dsimp only; rw [s.5]; exact h.window
    · exact h

/-- DSETDICT ends with the cursors in range and nothing ahead (44 R385). -/
theorem loadDictionary_cursors (addr n : Word) (x : DRun) (h : x.d.CursorsOk)
    (window : x.d.conf.windowSize = 2 * x.d.conf.wSize) : (loadDictionary addr n x).d.CursorsOk := by
  have hr := h.room
  have start : Fits (if x.d.conf.wSize ≤ n.toNat ∧ x.d.wrap = 0 then forgetWindow x.d else x.d) := by
    split
    · exact ⟨by show 0 + x.d.lookahead ≤ x.d.conf.windowSize; omega, Int.le_refl _, window⟩
    · exact ⟨h.room, h.block, window⟩
  rw [loadDictionary]
  generalize (if x.d.conf.wSize ≤ n.toNat ∧ x.d.wrap = 0 then forgetWindow x.d else x.d) = d at start
  dsimp only
  generalize hy : fillWindow _ = y
  have filled : Fits y.d := by
    subst hy
    exact (fillWindow_spec _ ⟨start.room, start.block, start.window⟩).1
  generalize hz : dictLoop _ y = z
  have done : Fits z.d := by
    subst hz
    exact dictLoop_fits _ y filled
  refine ⟨?_, Int.le_refl _, Nat.le_max_left .., fun _ => Nat.le_refl _, fun _ => rfl⟩
  show z.d.strstart + z.d.lookahead + 0 ≤ z.d.conf.windowSize
  exact done.room

end Sys2Proof.Machine
end

