-- ==== Sys2Proof/Laws/PerInstr.lean ====
section
/-! SUPPORT. Statements about every instruction, one lemma a constructor: an instruction's encoding fits its format. -/

namespace Sys2Proof.Laws.EncodeFits

/-- The value `encode` gives a well-formed instruction fits the width of its format. -/
def Statement (i : Instr) : Prop := i.wf = true → (encode i).2 < 2 ^ (encode i).1.width

/-- A command word's fields fit 32 bits. -/
theorem cmd_lt {op : Nat} (h : op < 2 ^ 8) (k b : BitVec 8) : encodeCmd op k b < 2 ^ 32 := by
  simp only [encodeCmd]; omega

/-- An entry's fields fit 32 bits. -/
theorem entry_lt {op : Nat} (h : op < 2 ^ 8) (bits : BitVec 8) (val : BitVec 16) : encodeEntry op bits val < 2 ^ 32 := by
  simp only [encodeEntry]; omega

/-- A Bool is at most 1. -/
theorem bool_le (b : Bool) : b.toNat ≤ 1 := Bool.toNat_le b

theorem dinit (k b : BitVec 8) : Statement (.dinit k b) := fun _ => cmd_lt (by decide) k b

theorem dproc (k b : BitVec 8) : Statement (.dproc k b) := fun _ => cmd_lt (by decide) k b

theorem dsetdict (k b : BitVec 8) : Statement (.dsetdict k b) := fun _ => cmd_lt (by decide) k b

theorem dreset (k b : BitVec 8) : Statement (.dreset k b) := fun _ => cmd_lt (by decide) k b

theorem dparams (k b : BitVec 8) : Statement (.dparams k b) := fun _ => cmd_lt (by decide) k b

theorem dend (k b : BitVec 8) : Statement (.dend k b) := fun _ => cmd_lt (by decide) k b

theorem iinit (k b : BitVec 8) : Statement (.iinit k b) := fun _ => cmd_lt (by decide) k b

theorem iproc (k b : BitVec 8) : Statement (.iproc k b) := fun _ => cmd_lt (by decide) k b

theorem isetdict (k b : BitVec 8) : Statement (.isetdict k b) := fun _ => cmd_lt (by decide) k b

theorem ireset (k b : BitVec 8) : Statement (.ireset k b) := fun _ => cmd_lt (by decide) k b

theorem isync (k b : BitVec 8) : Statement (.isync k b) := fun _ => cmd_lt (by decide) k b

theorem icopy (k b : BitVec 8) : Statement (.icopy k b) := fun _ => cmd_lt (by decide) k b

theorem iundermine (k b : BitVec 8) : Statement (.iundermine k b) := fun _ => cmd_lt (by decide) k b

theorem iend (k b : BitVec 8) : Statement (.iend k b) := fun _ => cmd_lt (by decide) k b

theorem blkStored (bfinal : Bool) : Statement (.blkStored bfinal) := by
  intro _
  have := bool_le bfinal
  simp only [encode, Format.width]
  omega

theorem blkFixed (bfinal : Bool) : Statement (.blkFixed bfinal) := by
  intro _
  have := bool_le bfinal
  simp only [encode, Format.width]
  omega

theorem blkDynamic (bfinal : Bool) : Statement (.blkDynamic bfinal) := by
  intro _
  have := bool_le bfinal
  simp only [encode, Format.width]
  omega

theorem blkReserved (bfinal : Bool) : Statement (.blkReserved bfinal) := by
  intro _
  have := bool_le bfinal
  simp only [encode, Format.width]
  omega

theorem zlibHdr (cinfo : BitVec 4) (flevel : BitVec 2) (fdict : Bool) (fcheck : BitVec 5) :
    Statement (.zlibHdr cinfo flevel fdict fcheck) := by
  intro _
  have := bool_le fdict
  simp only [encode, Format.width]
  omega

theorem zlibDictid (id : Word) : Statement (.zlibDictid id) := by
  intro _
  simp only [encode, Format.width]
  omega

theorem storedLen (len nlen : BitVec 16) : Statement (.storedLen len nlen) := by
  intro _
  simp only [encode, Format.width]
  omega

theorem zlibTrailer (adler : Word) : Statement (.zlibTrailer adler) := by
  intro _
  simp only [encode, Format.width]
  omega

theorem fixEob : Statement (.fixEob) := fun _ => by decide

theorem fixLen257to263 (x : BitVec 3) : Statement (.fixLen257to263 x) := by
  intro _
  simp only [encode, Format.width]
  omega

theorem fixLen264to271 (x : BitVec 3) : Statement (.fixLen264to271 x) := by
  intro _
  simp only [encode, Format.width]
  omega

theorem fixLen272to279 (x : BitVec 3) : Statement (.fixLen272to279 x) := by
  intro _
  simp only [encode, Format.width]
  omega

theorem fixLit0to15 (x : BitVec 4) : Statement (.fixLit0to15 x) := by
  intro _
  simp only [encode, Format.width]
  omega

theorem fixLit16to79 (x : BitVec 6) : Statement (.fixLit16to79 x) := by
  intro _
  simp only [encode, Format.width]
  omega

theorem fixLit80to143 (x : BitVec 6) : Statement (.fixLit80to143 x) := by
  intro _
  simp only [encode, Format.width]
  omega

theorem fixLen280to285 (x : BitVec 3) : Statement (.fixLen280to285 x) := by
  intro h
  simp only [Instr.wf, decide_eq_true_eq] at h
  simp only [encode, Format.width]
  omega

theorem fixInvalid286to287 (x : BitVec 1) : Statement (.fixInvalid286to287 x) := by
  intro _
  simp only [encode, Format.width]
  omega

theorem fixLit144to159 (x : BitVec 4) : Statement (.fixLit144to159 x) := by
  intro _
  simp only [encode, Format.width]
  omega

theorem fixLit160to191 (x : BitVec 5) : Statement (.fixLit160to191 x) := by
  intro _
  simp only [encode, Format.width]
  omega

theorem fixLit192to255 (x : BitVec 6) : Statement (.fixLit192to255 x) := by
  intro _
  simp only [encode, Format.width]
  omega

theorem fixDist0to15 (x : BitVec 4) : Statement (.fixDist0to15 x) := by
  intro _
  simp only [encode, Format.width]
  omega

theorem fixDist16to29 (x : BitVec 4) : Statement (.fixDist16to29 x) := by
  intro h
  simp only [Instr.wf, decide_eq_true_eq] at h
  simp only [encode, Format.width]
  omega

theorem fixDistInvalid (x : BitVec 1) : Statement (.fixDistInvalid x) := by
  intro _
  simp only [encode, Format.width]
  omega

theorem symLiteral (byte : BitVec 8) : Statement (.symLiteral byte) := by
  intro _
  simp only [encode, Format.width]
  omega

theorem symEob : Statement (.symEob) := fun _ => by decide

theorem symLength (x : BitVec 8) : Statement (.symLength x) := by
  intro h
  simp only [Instr.wf, Bool.and_eq_true, decide_eq_true_eq] at h
  simp only [encode, Format.width]
  omega

theorem symLlInvalid (x : BitVec 1) : Statement (.symLlInvalid x) := by
  intro _
  simp only [encode, Format.width]
  omega

theorem symDist (code : BitVec 5) : Statement (.symDist code) := by
  intro _
  simp only [encode, Format.width]
  omega

theorem symDistInvalid (x : BitVec 1) : Statement (.symDistInvalid x) := by
  intro _
  simp only [encode, Format.width]
  omega

theorem clLength (len : BitVec 4) : Statement (.clLength len) := by
  intro _
  simp only [encode, Format.width]
  omega

theorem clRepeatPrev (extra : BitVec 2) : Statement (.clRepeatPrev extra) := by
  intro _
  simp only [encode, Format.width]
  omega

theorem clZerosShort (extra : BitVec 3) : Statement (.clZerosShort extra) := by
  intro _
  simp only [encode, Format.width]
  omega

theorem clZerosLong (extra : BitVec 7) : Statement (.clZerosLong extra) := by
  intro _
  simp only [encode, Format.width]
  omega

theorem entLiteral (bits : BitVec 8) (val : BitVec 16) :
    Statement (.entLiteral bits val) := fun _ => entry_lt (by decide) bits val

theorem entLink (t : BitVec 4) (bits : BitVec 8) (val : BitVec 16) : Statement (.entLink t bits val) := by
  intro _
  exact entry_lt (by have := t.isLt; omega) bits val

theorem entBase (extra : BitVec 4) (bits : BitVec 8) (val : BitVec 16) : Statement (.entBase extra bits val) := by
  intro _
  exact entry_lt (by have := extra.isLt; omega) bits val

theorem entEob (bits : BitVec 8) (val : BitVec 16) :
    Statement (.entEob bits val) := fun _ => entry_lt (by decide) bits val

theorem entInvalid (bits : BitVec 8) (val : BitVec 16) :
    Statement (.entInvalid bits val) := fun _ => entry_lt (by decide) bits val

end Sys2Proof.Laws.EncodeFits
end

