-- ==== Sys2Proof/Laws/Ram.lean ====
section
/-! SUPPORT. The laws of the private arrays: a read sees the last write of its entry, and no other write. -/

namespace Sys2Proof.Machine

variable {α : Type} [Inhabited α]

@[simp] theorem Tree.get_empty (d i : Nat) : Tree.get d (Tree.empty : Tree α) i = default := by
  cases d <;> rfl

theorem Tree.get_lower {d i : Nat} (t : Tree α) (h : i < 2 ^ d) : Tree.get d t.lower i = Tree.get (d + 1) t i := by
  cases t <;> simp [Tree.lower, Tree.get, h]

theorem Tree.get_upper {d i : Nat} (t : Tree α) (h : ¬ i < 2 ^ d) :
    Tree.get d t.upper (i - 2 ^ d) = Tree.get (d + 1) t i := by
  cases t <;> simp [Tree.upper, Tree.get, h]

theorem Tree.get_set_same {d i : Nat} (t : Tree α) (v : α) (h : i < 2 ^ d) : Tree.get d (Tree.set d t i v) i = v := by
  induction d generalizing t i with
  | zero =>
    have : i = 0 := by simpa using h
    simp [Tree.set, Tree.get, this]
  | succ d ih =>
    simp only [Tree.set]
    split
    · rename_i hi
      simp [Tree.get, hi, ih t.lower hi]
    · rename_i hi
      simp [Tree.get, hi, ih t.upper (i := i - 2 ^ d) (by rw [Nat.pow_succ] at h; omega)]

theorem Tree.get_set_ne {d i j : Nat} (t : Tree α) (v : α) (hne : j ≠ i) :
    Tree.get d (Tree.set d t i v) j = Tree.get d t j := by
  induction d generalizing t i j with
  | zero =>
    simp only [Tree.set]
    split
    · have hj : j ≠ 0 := by omega
      cases t <;> simp [Tree.get, hj]
    · rfl
  | succ d ih =>
    simp only [Tree.set]
    split
    · by_cases hj : j < 2 ^ d
      · rw [← Tree.get_lower t hj, ← ih t.lower hne]
        simp [Tree.get, hj]
      · rw [← Tree.get_upper t hj]
        simp [Tree.get, hj]
    · by_cases hj : j < 2 ^ d
      · rw [← Tree.get_lower t hj]
        simp [Tree.get, hj]
      · rw [← Tree.get_upper t hj, ← ih t.upper (i := i - 2 ^ d) (j := j - 2 ^ d) (by omega)]
        simp [Tree.get, hj]

namespace Ram

variable {d : Nat}

@[simp] theorem get_zero (i : Nat) : (Ram.zero : Ram d α).get i = default := Tree.get_empty d i

@[simp] theorem get_set_same {i : Nat} (a : Ram d α) (v : α) (h : i < 2 ^ d) : (a.set i v).get i = v :=
  Tree.get_set_same a.tree v h

@[simp] theorem get_set_ne {i j : Nat} (a : Ram d α) (v : α) (h : j ≠ i) : (a.set i v).get j = a.get j :=
  Tree.get_set_ne a.tree v h

/-- Every entry of a mapped array, for a function that keeps the default. -/
theorem get_map (f : α → α) (hf : f default = default) (a : Ram d α) (i : Nat) : (a.map f).get i = f (a.get i) := by
  have key : ∀ (d : Nat) (t : Tree α) (i : Nat), Tree.get d (Tree.map f t) i = f (Tree.get d t i) := by
    intro d
    induction d with
    | zero => intro t i; cases t <;> simp [Tree.map, Tree.get, hf]; split <;> simp [hf]
    | succ d ih => intro t i; cases t <;> simp [Tree.map, Tree.get, hf]; split <;> simp [ih]
  exact key d a.tree i

/-- `x[i..) <- vs` writes the entries it names. -/
theorem get_setList_inside {vs : List α} {a : Ram d α} {i j : Nat} (hj : j < vs.length) (hd : i + vs.length ≤ 2 ^ d) :
    (a.setList i vs).get (i + j) = vs[j] := by
  induction vs generalizing a i j with
  | nil => simp at hj
  | cons v vs ih =>
    have keep : ∀ (ws : List α) (b : Ram d α) (n : Nat), i < n → (b.setList n ws).get i = b.get i := by
      intro ws
      induction ws with
      | nil => intros; rfl
      | cons w ws ihw => intro b n hn; rw [setList, ihw _ _ (by omega), get_set_ne _ _ (by omega)]
    simp only [List.length_cons] at hd
    cases j with
    | zero =>
      have hi : i < 2 ^ d := by omega
      simp [setList, keep _ _ _ (Nat.lt_succ_self i), get_set_same a v hi]
    | succ j =>
      have := ih (a := a.set i v) (i := i + 1) (j := j) (by simpa using hj) (by omega)
      simpa [setList, Nat.add_assoc, Nat.add_comm 1 j] using this

/-- `x[i..) <- vs` writes no other entry. -/
theorem get_setList_outside {vs : List α} {a : Ram d α} {i j : Nat} (h : j < i ∨ i + vs.length ≤ j) :
    (a.setList i vs).get j = a.get j := by
  induction vs generalizing a i with
  | nil => rfl
  | cons v vs ih =>
    simp only [List.length_cons] at h
    rw [setList, ih (by omega), get_set_ne _ _ (by omega)]

@[simp] theorem slice_length (a : Ram d α) (i n : Nat) : (a.slice i n).length = n := by
  induction n generalizing i with
  | zero => rfl
  | succ n ih => simp [slice, ih]

end Ram

end Sys2Proof.Machine
end

