-- ==== Sys2Proof/Laws/Sync.lean ====
section
/-! SUPPORT. ISYNC and the invariant of mode SYNC (47 R543, R544). -/

namespace Sys2Proof.Machine

/-- SYNCSEARCH counts at most four marker bytes (47 R544). -/
theorem syncSearch_le (bs : List Byte) (got n : Nat) (h : got ≤ 4) : (syncSearch bs got n).1 ≤ 4 := by
  induction bs generalizing got n with
  | nil => exact h
  | cons b bs ih =>
    rw [syncSearch]
    dsimp only
    repeat' split
    all_goals first | exact h | (apply ih; omega)

/-- Entering SYNC leaves no bits held and at most four marker bytes counted. -/
theorem enterSync_spec {i : IState} (h : i.SyncOk) :
    (enterSync i).mode = .SYNC ∧ (enterSync i).bits = 0 ∧ (enterSync i).haveCnt ≤ 4 := by
  rw [enterSync]
  split
  · rename_i m
    exact ⟨m, (h m).2, Nat.le_of_lt (h m).1⟩
  · exact ⟨rfl, rfl, syncSearch_le _ _ _ (Nat.zero_le _)⟩

/-- ISYNC keeps the invariant of mode SYNC. -/
theorem syncCall_syncOk (p : Params) (r : Regs) (i : IState) (m : Memory) (h : i.SyncOk) :
    (syncCall p r i m).2.2.SyncOk := by
  obtain ⟨-, hbits, hgot⟩ := enterSync_spec h
  have le := syncSearch_le (m.readN r.nextIn r.availIn.toNat) (enterSync i).haveCnt 0 hgot
  rw [syncCall]
  split
  · exact h
  · dsimp only
    split
    · rename_i short
      exact fun _ => ⟨Nat.lt_of_le_of_ne le short, hbits⟩
    · exact fun e => (nomatch e)

end Sys2Proof.Machine
end

