-- ==== Sys2Proof/Laws/Tables.lean ====
section
/-! SUPPORT. The fixed tables' closed form is what the builder gives (46 R480; log entry 18). -/

namespace Sys2Proof.Machine

/-- INFLATE_TABLE on the fixed lit/len lengths. -/
def builtL : TableResult := inflateTable .lens fixedLens Ram.zero 0 9

/-- INFLATE_TABLE on the fixed distance lengths. -/
def builtD : TableResult := inflateTable .dists fixedDlens Ram.zero 0 5

/-- FIXED_L is the 512-entry table of root width 9 that the builder gives. -/
theorem fixedEntryL_built :
    builtL.status = 0 ∧ builtL.root = 9 ∧ builtL.used = 512 ∧ ∀ i < 512, fixedEntryL i = builtL.dst.get i := by
  decide +kernel

/-- FIXED_D is the 32-entry table of root width 5 that the builder gives. -/
theorem fixedEntryD_built :
    builtD.status = 0 ∧ builtD.root = 5 ∧ builtD.used = 32 ∧ ∀ i < 32, fixedEntryD i = builtD.dst.get i := by
  decide +kernel

end Sys2Proof.Machine
end

