-- ==== Sys2Proof/Tests/Slice0.lean ====
section
/-! SUPPORT. Tests with expected values from spec/ (the vectors of 95, or a rule's own words), and a witness for the
hypotheses of every statement. -/

namespace Sys2Proof.Tests

open Sys2Proof Sys2Proof.Machine

/-! ### Well-formedness: an ill-formed term for each check -/

theorem test_smoke_fixLen257to263 : (Instr.fixLen257to263 0).wf = false := by decide
theorem test_smoke_fixLen280to285 : (Instr.fixLen280to285 6).wf = false ∧ (Instr.fixLen280to285 7).wf = false := by decide
theorem test_smoke_fixDist16to29 : (Instr.fixDist16to29 14).wf = false ∧ (Instr.fixDist16to29 15).wf = false := by decide
theorem test_smoke_symLength : (Instr.symLength 0).wf = false ∧ (Instr.symLength 30).wf = false := by decide
theorem test_smoke_symDist : (Instr.symDist 30).wf = false ∧ (Instr.symDist 31).wf = false := by decide
theorem test_smoke_entLink : (Instr.entLink 0 9 0).wf = false := by decide
theorem test_smoke_legal : (Instr.fixLen257to263 7).wf = true ∧ (Instr.symLength 29).wf = true ∧
    (Instr.fixDist16to29 13).wf = true ∧ (Instr.entLink 15 9 0).wf = true ∧ (Instr.dproc 0xFF 0xFF).wf = true := by decide

/-! ### Decoding: words written out from the encodings of 30 -/

/-- The value `v` of format `f` is the instruction `i`. -/
def reads (f : Format) (v : Nat) (i : Instr) : Bool := decide ((decode f v).toOption = some i)

/-- R130, R131: OP in bits 7:0, CTX in bits 15:8, B in bits 23:16. -/
theorem test_decode_commands :
    reads .cmd 0x0000_0201 (.dinit 2 0) && reads .cmd 0x0004_0302 (.dproc 3 4) && reads .cmd 0x0000_0103 (.dsetdict 1 0)
      && reads .cmd 0x0000_0004 (.dreset 0 0) && reads .cmd 0x0000_0005 (.dparams 0 0) && reads .cmd 0x0000_0006 (.dend 0 0)
      && reads .cmd 0x0000_0111 (.iinit 1 0) && reads .cmd 0x0002_0112 (.iproc 1 2) && reads .cmd 0x0000_0013 (.isetdict 0 0)
      && reads .cmd 0x0000_0014 (.ireset 0 0) && reads .cmd 0x0000_0015 (.isync 0 0) && reads .cmd 0x0003_0216 (.icopy 2 3)
      && reads .cmd 0x0001_0017 (.iundermine 0 1) && reads .cmd 0x0000_0018 (.iend 0 0) := by decide

/-- R133: a reserved bit or an opcode outside the map. -/
theorem test_decode_illegal_commands :
    (decode .cmd 0x0100_0001).toOption = none ∧ (decode .cmd 0).toOption = none ∧ (decode .cmd 0x07).toOption = none ∧
      (decode .cmd 0x10).toOption = none ∧ (decode .cmd 0x19).toOption = none := by decide

/-- R145: BFINAL is the low bit, BTYPE the two above it. -/
theorem test_decode_block_headers :
    reads .blockHdr 0b001 (.blkStored true) && reads .blockHdr 0b010 (.blkFixed false)
      && reads .blockHdr 0b101 (.blkDynamic true) && reads .blockHdr 0b110 (.blkReserved false) := by decide

/-- R141 (95 V1.1: CMF 78, FLG 9C), R142, R143, R148. -/
theorem test_decode_headers :
    reads .zlibHdr 0x789C (.zlibHdr 7 2 false 28) && reads .zlibHdr 0x78BB (.zlibHdr 7 2 true 27)
      && reads .dictid 0x024D0127 (.zlibDictid 0x024D0127) && reads .trailer 0x26060496 (.zlibTrailer 0x26060496)
      && reads .storedLen 0xFFFC0003 (.storedLen 3 0xFFFC) := by decide

/-- R149: the fixed codes, first bit sent highest. -/
theorem test_decode_fixed_codes :
    reads .fixedLL7 0b0000000 .fixEob && reads .fixedLL7 0b0000001 (.fixLen257to263 1)
      && reads .fixedLL7 0b0001000 (.fixLen264to271 0) && reads .fixedLL7 0b0010111 (.fixLen272to279 7)
      && reads .fixedLL8 0b00110000 (.fixLit0to15 0) && reads .fixedLL8 0b01111111 (.fixLit16to79 63)
      && reads .fixedLL8 0b10011000 (.fixLit80to143 0x18) && reads .fixedLL8 0b11000101 (.fixLen280to285 5)
      && reads .fixedLL8 0b11000111 (.fixInvalid286to287 1) && reads .fixedLL9 0b110010000 (.fixLit144to159 0)
      && reads .fixedLL9 0b110111111 (.fixLit160to191 31) && reads .fixedLL9 0b111111111 (.fixLit192to255 63)
      && reads .fixedDist 0b00101 (.fixDist0to15 5) && reads .fixedDist 0b11101 (.fixDist16to29 13)
      && reads .fixedDist 0b11110 (.fixDistInvalid 0) := by decide

/-- R150 to R152: the decoded symbols; a code-length symbol's extra bits stand from bit 5 up. -/
theorem test_decode_symbols :
    reads .llSym 255 (.symLiteral 255) && reads .llSym 256 .symEob && reads .llSym 257 (.symLength 1)
      && reads .llSym 285 (.symLength 29) && reads .llSym 287 (.symLlInvalid 1) && reads .distSym 29 (.symDist 29)
      && reads .distSym 30 (.symDistInvalid 0) && reads .clSym 15 (.clLength 15) && reads .clSym 0b0000011_10000 (.clRepeatPrev 3)
      && reads .clSym 0b0000111_10001 (.clZerosShort 7) && reads .clSym 0b1010110_10010 (.clZerosLong 86) := by decide

/-- R170: an entry's class is its op byte. -/
theorem test_decode_entries :
    reads .entry 0x0061_0800 (.entLiteral 8 97) && reads .entry 0x0020_0903 (.entLink 3 9 32)
      && reads .entry 0x0003_0710 (.entBase 0 7 3) && reads .entry 0x0000_0760 (.entEob 7 0)
      && reads .entry 0x0000_0840 (.entInvalid 8 0) := by decide

/-! ### Small machines -/

/-- A 32-bit build whose context 0 is `c`, with `mem` as host memory. -/
def machine (c : Ctx) (mem : Memory) : State :=
  { State.reset with params := { nctx := 4, total64 := false, allowTooFar := false }
                     ctxs := [c, Ctx.reset, Ctx.reset, Ctx.reset], mem := mem }

/-- Cursors: `n` bytes of input at 0x1000, `m` bytes of room at 0x2000, as 95's conventions have it. -/
def cursors (n m : Nat) : Regs :=
  { Regs.zero with nextIn := 0x1000, availIn := BitVec.ofNat 32 n, nextOut := 0x2000, availOut := BitVec.ofNat 32 m
                   adler := 1, dataType := 2 }

/-- `bs` in host memory at 0x1000; no byte of it is 0. -/
def at1000 (bs : List Byte) : Memory := bs.zipIdx.map fun p => (0x1000 + p.2, p.1)

/-- A fresh D-engine over the input `bs`. -/
def deflating (wrap : Int) (wBits level memLevel strategy : Nat) (bs : List Byte) : State :=
  machine { regs := cursors bs.length 100, slot := .deflate (initDeflate wrap wBits level memLevel strategy) } (at1000 bs)

/-- An I-engine `i` over the input `bs`. -/
def inflating (i : IState) (bs : List Byte) : State :=
  machine { regs := { cursors bs.length 100 with dataType := 0 }, slot := .inflate i } (at1000 bs)

/-- A fresh I-engine of windowBits 15. -/
def freshI : IState := initInflate 5 15

/-- What `i` leaves at `s`, seen through `f`; none if it does not complete. -/
def seen {α : Type} (i : Instr) (s : State) (f : State → α) : Option α :=
  match exec i s with
  | .next t => some (f t)
  | _ => none

/-- `i` answers a next state. -/
def completes (i : Instr) (s : State) : Bool := (seen i s fun _ => ()).isSome

/-- `n` bytes of output and RESULT. -/
def written (n : Nat) (t : State) : List Byte × Int := (t.mem.readN 0x2000 n, t.result.toInt)

/-- The mode of context 0's I-engine. -/
def mode (t : State) : Option Mode :=
  match (t.ctx 0).slot with
  | .inflate i => some i.mode
  | _ => none

/-! ### The commands, against 95's vectors -/

/-- 95 DE1: level -1 is 6; ADLER 1, DATA_TYPE 2, KIND 1. -/
theorem test_dinit :
    seen (.dinit 0 0) { State.reset with arg0 := 0xFFFFFFFF, arg1 := 15, arg2 := 8 }
      (fun t => (t.result, (t.ctx 0).regs.adler, (t.ctx 0).regs.dataType, (t.ctx 0).slot.kind)) =
      some (0, 1, 2, 1) := by decide

/-- 95 DE1: a raw stream cannot use windowBits 8, and the slot stays FREE. -/
theorem test_dinit_refused :
    seen (.dinit 0 0) { State.reset with arg0 := 6, arg1 := 0xFFFFFFF8, arg2 := 8 }
      (fun t => (t.result.toInt, (t.ctx 0).slot.kind)) = some (-2, 0) := by decide

/-- 95 HE2 S3: "a" as a raw stream. -/
theorem test_dproc_fixed :
    seen (.dproc 0 4) (deflating 0 15 6 8 0 [0x61]) (written 3) = some ([0x4B, 0x04, 0x00], 1) := by decide +kernel

/-- 95 HE2 S2: "abc" at level 0 as a zlib stream. -/
theorem test_dproc_stored :
    seen (.dproc 0 4) (deflating 1 15 0 8 0 [0x61, 0x62, 0x63]) (written 14) =
      some ([0x78, 0x01, 0x01, 0x03, 0x00, 0xFC, 0xFF, 0x61, 0x62, 0x63, 0x02, 0x4D, 0x01, 0x27], 1) := by decide +kernel

/-- 95 DE5: "abc" as a dictionary: ADLER 0x024D0127, TOTAL_IN 3. -/
theorem test_dsetdict :
    seen (.dsetdict 0 0) { deflating 1 15 6 8 0 [0x61, 0x62, 0x63] with arg0 := 0x1000, arg1 := 3 }
      (fun t => (t.result, (t.ctx 0).regs.adler, (t.ctx 0).regs.totalIn)) = some (0, 0x024D0127, 3) := by decide +kernel

/-- 95 DE7: DRESET restarts the stream registers; the cursors stay (44 R383). -/
theorem test_dreset :
    seen (.dreset 0 0)
      (machine { regs := { cursors 2 9 with totalIn := 14, totalOut := 19, adler := 5, dataType := 0, msg := .bufferError }
                 slot := .deflate (initDeflate 1 15 6 8 0) } [])
      (fun t => (t.result, (t.ctx 0).regs)) = some (0, cursors 2 9) := by decide

/-- 95 DE6: DPARAMS 9, 0 on a fresh level-1 stream gives level 9 and writes nothing. -/
theorem test_dparams :
    seen (.dparams 0 0) { deflating 1 15 1 8 0 [] with arg0 := 9, arg1 := 0 }
      (fun t => (t.result, (t.ctx 0).regs.totalOut, match (t.ctx 0).slot with | .deflate d => d.tune.level | _ => 99)) =
      some (0, 0, 9) := by decide

/-- 95 DE6: a level out of range. -/
theorem test_dparams_refused :
    seen (.dparams 0 0) { deflating 1 15 1 8 0 [] with arg0 := 10, arg1 := 0 } (fun t => t.result.toInt) = some (-2) := by
  decide

/-- 95 DE7: DEND on a busy stream is -3, and frees the slot all the same. -/
theorem test_dend_busy :
    seen (.dend 0 0)
      (machine { regs := Regs.zero, slot := .deflate { initDeflate 1 15 6 8 0 with status := .busy } } [])
      (fun t => (t.result.toInt, (t.ctx 0).slot.kind)) = some (-3, 0) := by decide

/-- 47 R540, R541: raw: ADLER 0, DATA_TYPE 0. -/
theorem test_iinit_raw :
    seen (.iinit 0 0) { State.reset with arg0 := 0xFFFFFFF1 }
      (fun t => (t.result, (t.ctx 0).regs.adler, (t.ctx 0).regs.dataType, (t.ctx 0).slot.kind)) = some (0, 0, 0, 2) := by
  decide

/-- 95 BR2: the raw stream 4B 04 00 is "a"; DATA_TYPE 64. -/
theorem test_iproc_fixed :
    seen (.iproc 0 0)
      (machine { regs := { cursors 3 100 with adler := 0 }, slot := .inflate (initInflate 0 15) } (at1000 [0x4B, 0x04]))
      (fun t => (written 1 t, (t.ctx 0).regs.totalIn, (t.ctx 0).regs.dataType, (t.ctx 0).regs.adler)) =
      some (([0x61], 1), 3, 64, 0) := by decide +kernel

/-- 95 BR1 call 1: one byte of a zlib header: RESULT 0, TOTAL_IN 1, DATA_TYPE 8. -/
theorem test_iproc_one_byte :
    seen (.iproc 0 0) (inflating freshI [0x78])
      (fun t => (t.result, (t.ctx 0).regs.totalIn, (t.ctx 0).regs.dataType)) = some (0, 1, 8) := by decide +kernel

/-- 47 R542 with DE8's ADLER32("abc"): the dictionary a stream asks for. -/
theorem test_isetdict :
    seen (.isetdict 0 0)
      { inflating { freshI with mode := .DICT, check := 0x024D0127 } [0x61, 0x62, 0x63] with arg0 := 0x1000, arg1 := 3 }
      (fun t => (t.result, match (t.ctx 0).slot with | .inflate i => (i.history, i.havedict) | _ => ([], false))) =
      some (0, [0x61, 0x62, 0x63], true) := by decide +kernel

/-- 47 R541: IRESET. -/
theorem test_ireset :
    seen (.ireset 0 0) (inflating { freshI with mode := .BAD, bits := 3, hold := 5, whave := 2, wsize := 8 } [])
      (fun t => (t.result, mode t, match (t.ctx 0).slot with | .inflate i => i.bits + i.whave + i.wsize | _ => 9)) =
      some (0, some .HEAD, 0) := by decide

/-- 47 R543: the marker is found, and nothing after it is consumed. -/
theorem test_isync :
    seen (.isync 0 0)
      (machine { regs := cursors 6 0, slot := .inflate freshI }
        [(0x1000, 5), (0x1003, 0xFF), (0x1004, 0xFF), (0x1005, 7)])
      (fun t => (t.result, mode t, (t.ctx 0).regs.totalIn)) = some (0, some .TYPE, 5) := by decide +kernel

/-- 47 R545: ICOPY to context 3 duplicates registers and state; to context 4 of 4 it is refused. -/
theorem test_icopy :
    seen (.icopy 0 3) (inflating freshI [7]) (fun t => (t.result, t.ctx 3)) =
      some (0, (inflating freshI [7]).ctx 0) ∧
    seen (.icopy 0 4) (inflating freshI [7]) (fun t => (t.result.toInt, t.ctx 3)) = some (-2, Ctx.reset) := by decide

/-- 47 R546: a build without ALLOW_TOOFAR answers -3. -/
theorem test_iundermine :
    seen (.iundermine 0 1) (inflating freshI []) (fun t => t.result.toInt) = some (-3) := by decide

/-- 47 R547. -/
theorem test_iend :
    seen (.iend 0 0) (inflating freshI []) (fun t => (t.result, (t.ctx 0).slot.kind)) = some (0, 0) := by decide

/-! ### The elements of the wire format -/

/-- An I-engine in `m` with the fixed tables. -/
def fixedI (m : Mode) : IState :=
  { freshI with mode := m, lencode := { tbl := .fixedL, off := 0 }, lenbits := 9
                distcode := { tbl := .fixedD, off := 0 }, distbits := 5 }

/-- Context 0's I-engine seen through `f`, and MSG. -/
def iSeen {α : Type} (f : IState → α) (t : State) : Option α × Msg :=
  (match (t.ctx 0).slot with
    | .inflate i => some (f i)
    | _ => none, (t.ctx 0).regs.msg)

/-- 30 R145: BTYPE 1 with BFINAL 1; BTYPE 3 is MSG 6. -/
theorem test_block_headers :
    seen (.blkFixed true) (inflating { freshI with mode := .TYPE } []) (iSeen fun i => (i.mode, i.last)) =
      some (some (.LEN_, true), .none) ∧
    seen (.blkReserved false) (inflating { freshI with mode := .TYPE } []) (iSeen fun i => i.mode) =
      some (some .BAD, .blockType) := by decide

/-- 95 V1.1's header 78 9C: no dictionary, a window of 2^15. -/
theorem test_zlibHdr :
    seen (.zlibHdr 7 2 false 28) (inflating freshI []) (iSeen fun i => (i.mode, i.dmax)) =
      some (some (.TYPE, 32768), .none) := by decide

/-- 30 R148: NLEN is not the complement of LEN. -/
theorem test_storedLen_mismatch :
    seen (.storedLen 3 0) (inflating { freshI with mode := .STORED } []) (iSeen fun i => i.mode) =
      some (some .BAD, .storedLengths) := by decide

/-- 95 V1.1: `h`'s fixed code 1001 1000; length 4 is 000 0010; distance 7 is code 00101 with one extra bit, base 7. -/
theorem test_fixed_codes :
    seen (.fixLit80to143 0x18) (inflating (fixedI .LEN) []) (iSeen fun i => (i.mode, i.length)) =
      some (some (.LIT, 0x68), .none) ∧
    seen (.fixLen257to263 2) (inflating (fixedI .LEN) []) (iSeen fun i => (i.mode, i.length, i.extra)) =
      some (some (.LENEXT, 4, 0), .none) ∧
    seen (.fixDist0to15 5) (inflating (fixedI .DIST) []) (iSeen fun i => (i.mode, i.offset, i.extra)) =
      some (some (.DISTEXT, 7, 1), .none) := by decide

/-- 30 R150, R151 (R155 to R157): symbol 285 is length 258 with no extra bits, distance symbol 29 is 24577 with 13; 286
and 30 are invalid. -/
theorem test_symbols :
    seen (.symLength 29) (inflating (fixedI .LEN) []) (iSeen fun i => (i.length, i.extra)) = some (some (258, 0), .none) ∧
    seen (.symDist 29) (inflating (fixedI .DIST) []) (iSeen fun i => (i.offset, i.extra)) =
      some (some (24577, 13), .none) ∧
    seen (.symLlInvalid 0) (inflating (fixedI .LEN) []) (iSeen fun i => i.mode) =
      some (some .BAD, .literalLengthCode) ∧
    seen (.symDistInvalid 0) (inflating (fixedI .DIST) []) (iSeen fun i => i.mode) =
      some (some .BAD, .distanceCode) := by decide

/-- 30 R152: 16 repeats the last length 3 to 6 times, and has nothing to repeat at the start. -/
theorem test_code_lengths :
    seen (.clRepeatPrev 1) (inflating { freshI with mode := .CODELENS, nlen := 257, ndist := 1, haveCnt := 1
                                                    lens := Ram.zero.set 0 8 } [])
      (iSeen fun i => (i.haveCnt, i.lens.slice 0 6)) = some (some (5, [8, 8, 8, 8, 8, 0]), .none) ∧
    seen (.clRepeatPrev 1) (inflating { freshI with mode := .CODELENS, nlen := 257, ndist := 1 } [])
      (iSeen fun i => i.mode) = some (some .BAD, .bitLengthRepeat) := by decide

/-- 30 R170: op 96 ends the block, op 64 is invalid. -/
theorem test_entries :
    seen (.entEob 7 0) (inflating { fixedI .LEN with bits := 9 } []) (iSeen fun i => (i.mode, i.bits)) =
      some (some (.TYPE, 2), .none) ∧
    seen (.entInvalid 5 0) (inflating { fixedI .DIST with bits := 5 } []) (iSeen fun i => i.mode) =
      some (some .BAD, .distanceCode) := by decide

/-! ### Witnesses: states and operands that meet the hypotheses of the statements -/

/-- A fresh raw D-engine of the smallest configuration. -/
def smallD : DState := initDeflate 0 9 6 1 0

theorem test_smallD_ok : smallD.Ok :=
  { wrap := .inr (.inl rfl), conf := ⟨9, 1, by decide, by decide, by decide, by decide, rfl⟩, level := by decide
    strategy := by decide, row := rfl, lastFlush := by decide, slides := by decide, cursors := resetDeflate_cursors _ }

/-- A raw D-engine in mid-stream, its window full to the last byte and all of it coded. -/
def midD : DState := { smallD with status := .busy, lastFlush := 2, strstart := 1024, blockStart := 1024 }

theorem test_midD_ok : midD.Ok :=
  { wrap := .inr (.inl rfl), conf := ⟨9, 1, by decide, by decide, by decide, by decide, rfl⟩, level := by decide
    strategy := by decide, row := rfl, lastFlush := by decide, slides := by decide
    cursors := ⟨by decide, by decide, by decide, by decide, by decide⟩ }

/-- An I-engine with a full window of 256 bytes that wraps at 100. -/
def windowI : IState := { freshI with wbits := 8, wsize := 256, whave := 256, wnext := 100, bits := 3, hold := 5 }

theorem test_windowI_ok : windowI.WindowOk := ⟨by decide, by decide, by decide, by decide, by decide⟩

theorem test_windowI_isOk : windowI.Ok { nctx := 4, total64 := false, allowTooFar := false } where
  window := test_windowI_ok
  hold := show (5 : BitVec 32).toNat < 2 ^ 3 by decide
  bits := ⟨by decide, by decide⟩
  mode := show Mode.HEAD ∉ _ by decide
  sane := fun _ => rfl
  sync := fun h => (nomatch h)

/-- Registers at the edge of a 32-bit total, the output ending at the top of memory. -/
def edgeRegs : Regs :=
  { cursors 4 4 with nextIn := 0xFFFFFFFE, nextOut := 0xFFFFFFFC, totalIn := 0xFFFFFFFF, totalOut := 0xFFFFFFFF }

theorem test_edgeRegs_ok : edgeRegs.TotalsOk { nctx := 4, total64 := false, allowTooFar := false } :=
  fun _ => ⟨by decide, by decide⟩

/-- A machine with a D-engine in context 0, an I-engine in context 1 and the access `a` to come. -/
def both (a : Input) : State :=
  { machine { regs := edgeRegs, slot := .deflate smallD } [(0x1000, 9), (0xFFFFFFFF, 1)] with
    ctxs := [{ regs := edgeRegs, slot := .deflate smallD }, { regs := edgeRegs, slot := .inflate windowI }, Ctx.reset,
      Ctx.reset]
    inputs := [a] }

/-- The command word `w` to come at `both`. -/
def bothCmd (w : Word) : State := both (.csrWrite 0 w)

/-- Context 0 holds `d` with the registers `r`, memory `m`. -/
def withD (r : Regs) (d : DState) (m : Memory) : State := machine { regs := r, slot := .deflate d } m

/-- Context 0 holds `i` with the registers `r`, memory `m`. -/
def withI (r : Regs) (i : IState) (m : Memory) : State := machine { regs := r, slot := .inflate i } m

/-! Encoding and decoding. -/

theorem test_witness_DecodeOfEncode :
    (Instr.iend 255 255).wf = true ∧ (Instr.zlibHdr 15 3 true 31).wf = true ∧ (Instr.fixLen280to285 5).wf = true ∧
      (Instr.symLength 1).wf = true ∧ (Instr.entLink 1 255 65535).wf = true := by decide

theorem test_witness_EncodeOfDecode :
    decode .cmd 0x00FFFF18 = .ok (.iend 255 255) ∧ decode .clSym 4082 = .ok (.clZerosLong 127) ∧
      decode .fixedLL8 0xC5 = .ok (.fixLen280to285 5) := ⟨rfl, rfl, rfl⟩

/-! The step, the host interface and reset. -/

theorem test_witness_StepRunsTheDecodedInstruction :
    State.reset.inputs = [] ∧
    ((bothCmd 0x00000106).inputs = .csrWrite 0 0x00000106 :: [] ∧ decode .cmd 0x00000106 = .ok (.dend 1 0)) ∧
    ((both (.wire 1 .blockHdr 7)).inputs = .wire 1 .blockHdr 7 :: [] ∧ decode .blockHdr 7 = .ok (.blkReserved true)) :=
  ⟨rfl, ⟨rfl, rfl⟩, ⟨rfl, rfl⟩⟩

/-- R133's three ways to be illegal, each at a boundary. -/
theorem test_witness_IllegalCommandWord :
    (bothCmd 0x01000006).inputs = .csrWrite 0 0x01000006 :: [] ∧ (0x01000006 : Word).toNat / 2 ^ 24 ≠ 0 ∧
    (0x00000007 : Word).toNat % 2 ^ 8 ∉ [0x01, 0x02, 0x03, 0x04, 0x05, 0x06, 0x11, 0x12, 0x13, 0x14, 0x15, 0x16, 0x17, 0x18] ∧
    (bothCmd 0).params.nctx ≤ (0x00000401 : Word).toNat / 2 ^ 8 % 2 ^ 8 := by decide

theorem test_witness_KindCheck :
    (∀ d, ((bothCmd 0).ctx (1 : BitVec 8).toNat).slot ≠ .deflate d) ∧
      (∀ i, ((bothCmd 0).ctx (0 : BitVec 8).toNat).slot ≠ .inflate i) ∧
      ∀ d, ((bothCmd 0).ctx (255 : BitVec 8).toNat).slot ≠ .deflate d :=
  ⟨fun _ h => (nomatch h), fun _ h => (nomatch h), fun _ h => (nomatch h)⟩

/-- The last offset of the last context; the lowest registers; MSG's first and last code (10 R36). -/
theorem test_witness_CsrReads :
    (both (.csrRead 0x1EC)).inputs = .csrRead 0x1EC :: [] ∧ (both (.csrRead 0)).params.wf = true ∧
      3 < (both (.csrRead 0)).params.nctx ∧ (0x1EC : Word) = BitVec.ofNat 32 (0x100 + 0x40 * 3 + 0x2C) ∧
      ((both (.csrRead 0)).ctx 3).regs.msg = .none ∧ Msg.dataCheck.code = 17 := by decide

theorem test_witness_CfgReportsTheBuild :
    (both (.csrRead 0x018)).params.wf = true ∧ (both (.csrRead 0x018)).inputs = .csrRead 0x018 :: [] ∧
      (both (.csrWrite 0x018 5)).inputs = .csrWrite 0x018 5 :: [] := by decide

theorem test_witness_CsrWrites :
    (both (.csrWrite 0x010 7)).params.wf = true ∧ (both (.csrWrite 0x010 7)).inputs = .csrWrite 0x010 7 :: [] ∧
      (both (.csrWrite 0x1CC 7)).inputs = .csrWrite 0x1CC 7 :: [] ∧ 3 < (both (.csrWrite 0x1CC 7)).params.nctx ∧
      (0x1CC : Word) = BitVec.ofNat 32 (0x100 + 0x40 * 3 + 0x0C) := by decide

/-- Each way to be unmapped or read-only, at its ends; 0x12C, the last mapped offset of context 0, is not unmapped. -/
theorem test_witness_UnmappedCsr :
    (both (.csrRead 0x101)).inputs = .csrRead 0x101 :: [] ∧ (both (.csrWrite 0x014 1)).inputs = .csrWrite 0x014 1 :: [] ∧
      (0x101 : Word).toNat % 4 ≠ 0 ∧ (0x1C ≤ (0x1C : Word).toNat ∧ (0xFC : Word).toNat < 0x100) ∧
      0x100 + 0x40 * (both (.csrRead 0)).params.nctx ≤ (0x200 : Word).toNat ∧
      (0x30 ≤ ((0x130 : Word).toNat - 0x100) % 0x40 ∧ 0x30 ≤ ((0x1FC : Word).toNat - 0x100) % 0x40) ∧
      ¬ 0x30 ≤ ((0x12C : Word).toNat - 0x100) % 0x40 ∧ 0x10 ≤ ((0x110 : Word).toNat - 0x100) % 0x40 := by decide

theorem test_witness_PowerOnReset :
    (both .powerOnReset).inputs = .powerOnReset :: [] ∧ (both .powerOnReset).params.wf = true ∧
      3 < (both .powerOnReset).params.nctx := by decide

/-! The invariant. -/

theorem test_witness_StepKeepsInv : Inv (bothCmd 0x00000115) := by
  refine ⟨by decide, by decide, rfl, ?_⟩
  have free : Ctx.Ok (bothCmd 0x00000115).params Ctx.reset :=
    { totals := fun _ => ⟨by decide, by decide⟩, deflate := fun _ h => (nomatch h), inflate := fun _ h => (nomatch h) }
  intro c h
  have h : c ∈ [{ regs := edgeRegs, slot := .deflate smallD }, { regs := edgeRegs, slot := .inflate windowI }, Ctx.reset,
    Ctx.reset] := h
  simp only [List.mem_cons, List.not_mem_nil, or_false] at h
  obtain rfl | rfl | rfl | rfl := h
  · refine { totals := test_edgeRegs_ok, deflate := fun d h => ?_, inflate := fun _ h => (nomatch h) }
    cases h
    exact test_smallD_ok
  · refine { totals := test_edgeRegs_ok, deflate := fun _ h => (nomatch h), inflate := fun i h => ?_ }
    cases h
    exact test_windowI_isOk
  · exact free
  · exact free

theorem test_witness_CommandsTouchOneContext :
    completes (.dend 0 0) (bothCmd 0) = true ∧ completes (.icopy 1 2) (bothCmd 0) = true := by decide

/-- Two machines that differ in context 1 alone. -/
theorem test_witness_CommandsSeeOneContext :
    let s := bothCmd 0
    let s' := s.setCtx 1 Ctx.reset
    s.params = s'.params ∧ s.arg0 = s'.arg0 ∧ s.arg1 = s'.arg1 ∧ s.arg2 = s'.arg2 ∧ s.arg3 = s'.arg3 ∧ s.mem = s'.mem ∧
      s.ctxs.length = s'.ctxs.length ∧ s.ctx (0 : BitVec 8).toNat = s'.ctx (0 : BitVec 8).toNat ∧ s.ctx 1 ≠ s'.ctx 1 ∧
      completes (.dreset 0 0) s = true ∧ completes (.dreset 0 0) s' = true := by decide +kernel

theorem test_witness_ElementsTouchOneContext :
    (encode (.blkFixed true)).1 ≠ .cmd ∧
      completes (.blkFixed true) (inflating { freshI with mode := .TYPE } []) = true := by decide

/-! Host memory and the pieces of the D-engine. -/

/-- A write that wraps from the top of memory to its bottom and clears a listed byte. -/
theorem test_witness_MemWriteThenRead :
    Memory.wf [(0, 5), (7, 1)] = true ∧ Memory.writeN [(0, 5), (7, 1)] 0xFFFFFFFF [3, 0, 4] = [(1, 4), (7, 1), (0xFFFFFFFF, 3)] ∧
      [(3 : Byte), 0, 4].length ≤ 2 ^ 32 := by decide

/-- 95 BW1's last call, and a full buffer. -/
theorem test_witness_SendBitsAppends :
    BitWriter.BufOk { biBuf := 0x01C1, biValid := 13, pending := [] } ∧ 14 < 2 ^ 4 ∧
      BitWriter.BufOk { biBuf := 0xFFFF, biValid := 16, pending := [1] } ∧ 65535 < 2 ^ 16 :=
  ⟨⟨by decide, by decide⟩, by decide, ⟨by decide, by decide⟩, by decide⟩

/-- 95 BW1: the packing. -/
theorem test_sendBits_packs :
    let w : BitWriter := { biBuf := 0, biValid := 0, pending := [] }
    (((w.sendBits 5 3).sendBits 0 5).sendBits 1 5).sendBits 14 4 = { biBuf := 1, biValid := 1, pending := [0x05, 0xC1] } := by
  decide

theorem test_witness_BiFlushAndBiWindup :
    BitWriter.BufOk { biBuf := 0xFFFF, biValid := 16, pending := [] } ∧ BitWriter.BufOk { biBuf := 0x7F, biValid := 7, pending := [] } :=
  ⟨⟨by decide, by decide⟩, ⟨by decide, by decide⟩⟩

/-- 30 R156, R157: length 258 is symbol 285 (its own code), 257 is symbol 284 with extra 30; distance 32768 is symbol 29. -/
theorem test_witness_LengthAndDistanceCodesAgree :
    lengthCode 255 = 28 ∧ lengthCode 254 = 27 ∧ lengthCode 0 = 0 ∧ dCode 0 = 0 ∧ dCode 32767 = 29 := by decide +kernel

/-- A run of 4 ended by another byte, and no run. -/
theorem test_witness_RleMatchIsTheRun :
    let d := { smallD with window := Ram.zero.setList 0 [7, 7, 7, 7, 7, 8], strstart := 1, lookahead := 5 }
    minMatch ≤ d.lookahead ∧ 0 < d.strstart ∧ rleMatch d = 4 ∧ rleMatch { d with strstart := 3, lookahead := 3 } = 0 := by
  decide +kernel

/-- 30 R152's three run symbols, and a literal length. -/
theorem test_witness_CodeRunsExpandToTheLengths :
    let lens := List.replicate 11 0 ++ [15] ++ List.replicate 6 15 ++ List.replicate 3 0
    (∀ l ∈ lens, l ≤ 15) ∧
      codeRuns lens (-1) 0 (138, 3) =
        [{ sym := 18, extra := 0, extraLen := 7 }, { sym := 15, extra := 0, extraLen := 0 },
          { sym := 16, extra := 3, extraLen := 2 }, { sym := 17, extra := 0, extraLen := 3 }] := by decide

/-- A run of a zlib D-engine, for its header. -/
def heading (wBits level strategy strstart : Nat) : DRun :=
  { params := State.reset.params, regs := { cursors 0 9 with adler := 0x024D0127 }
    d := { initDeflate 1 wBits level 8 strategy with strstart := strstart }, mem := [] }

/-- The header's 16 bits: 95 V1.1's, the smallest window's, and the four hints at the ends of their ranges. -/
theorem test_witness_HeaderIsLegal :
    (9 ≤ (heading 9 6 0 0).d.conf.wBits ∧ (heading 15 6 0 3).d.conf.wBits ≤ 15) ∧
      headerWord (heading 15 6 0 0).d = 0x789C ∧
      headerWord (heading 9 6 0 0).d = 0x1895 ∧ headerWord (heading 15 9 2 0).d = 0x7801 ∧
      headerWord (heading 15 1 1 0).d = 0x7801 ∧ headerWord (heading 15 2 1 0).d = 0x785E ∧
      headerWord (heading 15 5 0 0).d = 0x785E ∧ headerWord (heading 15 7 0 0).d = 0x78DA := by decide

/-- 44 R385's example: 78 BB, then the dictionary's Adler-32; ADLER restarts at 1. -/
theorem test_writeHeader :
    (writeHeader (heading 15 6 0 3)).d.bw.pending = [0x78, 0xBB, 0x02, 0x4D, 0x01, 0x27] ∧
      (writeHeader (heading 15 6 0 3)).regs.adler = 1 ∧
      (writeHeader (heading 15 6 0 0)).d.bw.pending = [0x78, 0x9C] := by decide

/-! The D-engine's commands. -/

/-- Zlib with the smallest window, raw with the largest, level -1. -/
theorem test_witness_DinitStartsAStream :
    (0 : BitVec 8).toNat < State.reset.params.nctx ∧ (0xFFFFFFFF : Word).toInt = -1 ∧ (9 : Word).toInt = 9 ∧
      (8 : Word).toInt = 8 ∧ (0xFFFFFFF1 : Word).toInt = -15 ∧ (4 : Word).toInt = 4 := by decide

/-- Each operand one past each of its ends; a null dictionary, a header already written, bytes already pending. -/
theorem test_witness_OperandChecks :
    (0xFFFFFFFE : Word).toInt < -1 ∧ 9 < (10 : Word).toInt ∧ (0xFFFFFFF0 : Word).toInt < -15 ∧ 15 < (16 : Word).toInt ∧
      (-9 < (0xFFFFFFF8 : Word).toInt ∧ (7 : Word).toInt < 8) ∧ (0 : Word).toInt < 1 ∧ 4 < (5 : Word).toInt ∧
      (0xFFFFFFFF : Word).toInt < 0 ∧
      (withD edgeRegs smallD []).arg0 = 0 ∧ ({ smallD with wrap := 1, status := .busy } : DState).status ≠ .init ∧
      ({ smallD with lookahead := 1 } : DState).lookahead ≠ 0 ∧
      ((1 : Word).toInt ≠ 0 ∧ -8 < (1 : Word).toInt ∧ (7 : Word).toInt < 8) := by decide

theorem test_witness_DresetRestartsTheStream :
    (0 : BitVec 8).toNat < (bothCmd 0).params.nctx ∧ ((bothCmd 0).ctx (0 : BitVec 8).toNat).slot = .deflate smallD :=
  ⟨by decide, rfl⟩

/-- Slow to slow at a stream that has run; and a level-0 stream that has not. -/
theorem test_witness_DparamsChangesTheLevel :
    let d := { smallD with lastFlush := 0 }
    let s := { withD edgeRegs d [] with arg0 := 7, arg1 := 0 }
    (s.ctx (0 : BitVec 8).toNat).slot = .deflate d ∧ s.arg0.toInt = 7 ∧ s.arg1.toInt = 0 ∧
      levelFunc 7 = levelFunc d.tune.level ∧ (0 : Nat) = d.tune.strategy ∧ (initDeflate 0 9 0 1 0).lastFlush = -2 ∧
      levelFunc 9 ≠ levelFunc (initDeflate 0 9 0 1 0).tune.level :=
  ⟨rfl, rfl, rfl, rfl, rfl, rfl, by decide⟩

theorem test_witness_DparamsFlushesFirst :
    let d := { smallD with lastFlush := 0 }
    let s := { withD (cursors 0 100) d [] with arg0 := 1, arg1 := 0 }
    (s.ctx (0 : BitVec 8).toNat).slot = .deflate d ∧ s.arg0.toInt = 1 ∧ s.arg1.toInt = 0 ∧
      ¬ ((0 : Nat) = d.tune.strategy ∧ levelFunc 1 = levelFunc d.tune.level) ∧ d.lastFlush ≠ -2 ∧
      seen (.dproc 0 5) s (fun u => match (u.ctx 0).slot with | .deflate _ => true | _ => false) = some true := by
  decide +kernel

/-- 95 DE5's raw stream, three bytes kept; no byte; a dictionary of a window's size on a stream in mid-stream, raw and
ended; and a zlib stream before its header. -/
theorem test_witness_DsetdictLoadsTheDictionary :
    let s (d : DState) (n : Word) := { withD edgeRegs d [(0x1000, 1)] with arg0 := 0x1000, arg1 := n }
    ((s smallD 3).ctx (0 : BitVec 8).toNat).slot = .deflate smallD ∧ smallD.Ok ∧ (s smallD 3).arg0 ≠ 0 ∧
      smallD.wrap ≠ 1 ∧ smallD.lookahead = 0 ∧ ((s smallD 3).ctx 0).regs.TotalsOk (s smallD 3).params ∧
      (s smallD 0).arg1.toNat = 0 ∧ midD.Ok ∧ midD.lookahead = 0 ∧ midD.strstart ≠ 0 ∧ midD.wrap = 0 ∧
      midD.conf.wSize ≤ (s midD 512).arg1.toNat ∧ ({ midD with wrap := -1 } : DState).wrap ≠ 1 ∧
      (initDeflate 1 9 6 1 0).status = .init :=
  ⟨rfl, test_smallD_ok, by decide, by decide, rfl, test_edgeRegs_ok, by decide, test_midD_ok, rfl, by decide, rfl,
    by decide, by decide, rfl⟩

/-- R385 on a raw stream in mid-stream with its window full: one slide, then the three bytes behind the old ones. -/
theorem test_dsetdict_in_mid_stream :
    seen (.dsetdict 0 0)
      { withD edgeRegs { midD with window := Ram.zero.setList 1022 [8, 9] } (at1000 [1, 2, 3]) with arg0 := 0x1000, arg1 := 3 }
      (fun t => match (t.ctx 0).slot with | .deflate d => (d.strstart, d.window.slice 510 5) | _ => (0, [])) =
      some (515, [8, 9, 1, 2, 3]) := by decide +kernel

theorem test_witness_DendFreesTheSlot :
    ((bothCmd 0).ctx (0 : BitVec 8).toNat).slot = .deflate smallD ∧
      ((withD edgeRegs { smallD with status := .busy } []).ctx (0 : BitVec 8).toNat).slot =
        .deflate { smallD with status := .busy } := ⟨rfl, rfl⟩

/-- B = 6 and 5; a null output, a null input, a finished stream; no room; nothing to do; input after the finish, with
nothing queued, and with one byte queued and room for more than that. -/
theorem test_witness_DprocEntryChecks :
    5 < (6 : BitVec 8).toNat ∧ (5 : BitVec 8).toNat ≤ 5 ∧ ({ edgeRegs with nextOut := 0 } : Regs).nextOut = 0 ∧
      (({ edgeRegs with nextIn := 0 } : Regs).availIn ≠ 0 ∧ ({ edgeRegs with nextIn := 0 } : Regs).nextIn = 0) ∧
      (({ smallD with status := .finish } : DState).status = .finish ∧ (5 : BitVec 8) ≠ 4) ∧
      ({ edgeRegs with availOut := 0 } : Regs).availOut = 0 ∧
      (smallD.bw.pending = [] ∧ (((5 : BitVec 8).toNat : Int), (1 : Int)) ∈ [((5 : Int), (1 : Int)), (1, 2)] ∧
        (({ smallD with lastFlush := 1 } : DState).lastFlush, (2 : Int)) ∈ [((5 : Int), (1 : Int)), (1, 2)] ∧
        (5 : BitVec 8) ≠ 4) ∧
      (let d := { smallD with status := .finish, bw := { biBuf := 0, biValid := 0, pending := [7] } }
       edgeRegs.nextOut ≠ 0 ∧ edgeRegs.nextIn ≠ 0 ∧ edgeRegs.availOut ≠ 0 ∧ edgeRegs.availIn ≠ 0 ∧ d.status = .finish ∧
         d.bw.pending ≠ [] ∧ d.bw.biFlush.pending.length < edgeRegs.availOut.toNat) := by
  decide

/-- 44 R379: after a Z_PARTIAL_FLUSH a Z_BLOCK is no progress; after a Z_BLOCK a Z_PARTIAL_FLUSH is some. -/
theorem test_dproc_ranks :
    seen (.dproc 0 5) (withD (cursors 0 9) { smallD with lastFlush := 1 } []) (fun t => t.result.toInt) = some (-5) ∧
    seen (.dproc 0 1) (withD (cursors 0 9) { smallD with lastFlush := 5 } []) (fun t => t.result.toInt) = some 0 := by
  decide +kernel

/-- 60 R630's row for input after the finish: -5, MSG 2, and the byte queued is written. -/
theorem test_dproc_late_input :
    seen (.dproc 0 4)
      (withD (cursors 4 4) { smallD with status := .finish, bw := { biBuf := 0, biValid := 0, pending := [7] } } [])
      (fun t => (written 1 t, (t.ctx 0).regs.msg.code, (t.ctx 0).regs.totalOut)) = some (([7], -5), 2, 1) := by decide +kernel

/-- Input and output both wrap at the top of memory. -/
theorem test_witness_DprocAccounts :
    let s := withD edgeRegs smallD [(0, 3), (0xFFFFFFFF, 1)]
    (s.ctx (0 : BitVec 8).toNat).slot = .deflate smallD ∧ s.mem.wf = true ∧ (s.ctx 0).regs.TotalsOk s.params ∧
      (5 : BitVec 8).toNat ≤ 5 ∧ edgeRegs.nextOut ≠ 0 ∧ edgeRegs.nextIn ≠ 0 ∧ smallD.status ≠ .finish ∧
      edgeRegs.availOut ≠ 0 := ⟨rfl, by decide, test_edgeRegs_ok, by decide, by decide, by decide, by decide, by decide⟩

/-- A finished stream, zlib with room for the trailer exactly and for one byte of it, and the same already ended. -/
theorem test_witness_DprocEndsTheStream :
    let d := { smallD with status := .finish, wrap := 1 }
    let r := { edgeRegs with availIn := 0 }
    ((withD r d []).ctx (0 : BitVec 8).toNat).slot = .deflate d ∧ r.nextOut ≠ 0 ∧ r.availOut ≠ 0 ∧ d.lookahead = 0 ∧
      d.bw.pending = [] ∧ d.bw.biValid < 8 ∧ r.availOut.toNat = 4 ∧ ({ r with availOut := 1 } : Regs).availOut ≠ 0 ∧
      ({ d with wrap := -1 } : DState).wrap ≤ 0 := by
  decide +kernel

/-- R381's corner case: one byte of the trailer fits, and Z_OK with three bytes still queued. -/
theorem test_trailer_in_parts :
    seen (.dproc 0 4)
      (withD { cursors 0 1 with adler := 0x11223344 } { smallD with status := .finish, wrap := 1 } [])
      (fun t => (written 1 t, match (t.ctx 0).slot with | .deflate d => d.bw.pending | _ => [])) =
      some (([0x11], 0), [0x22, 0x33, 0x44]) := by decide +kernel

/-- No input, and two bytes, with room for the block exactly. -/
theorem test_witness_DprocStoresTheInput :
    let d := initDeflate 0 15 0 8 0
    let r := { edgeRegs with availIn := 2, availOut := 7 }
    ((withD r d []).ctx (0 : BitVec 8).toNat).slot = .deflate d ∧ r.TotalsOk { nctx := 4, total64 := false, allowTooFar := false } ∧
      d.wrap = 0 ∧ d.tune.level = 0 ∧ d.status = .init ∧ d.strstart = 0 ∧ d.blockStart = 0 ∧
      d.bw = { biBuf := 0, biValid := 0, pending := [] } ∧ r.nextOut ≠ 0 ∧ r.nextIn ≠ 0 ∧
      r.availIn.toNat + 5 ≤ r.availOut.toNat ∧ (0 : Word).toNat + 5 ≤ r.availOut.toNat :=
  ⟨rfl, fun _ => ⟨by decide, by decide⟩, rfl, rfl, rfl, rfl, rfl, rfl, by decide, by decide, by decide, by decide⟩

/-! The I-engine. -/

theorem test_witness_UpdateWindowAppendsToTheHistory : freshI.WindowOk ∧ windowI.WindowOk :=
  ⟨⟨by decide, by decide, by decide, by decide, by decide⟩, test_windowI_ok⟩

/-- A window of 8 bytes, full, that wraps at 2; two bytes written by the call; at the top of memory. -/
def matching (offset length left : Nat) (sane : Bool) : IRun :=
  { params := { nctx := 4, total64 := false, allowTooFar := true }, regs := edgeRegs
    i := { freshI with mode := .MATCH, wsize := 8, whave := 8, wnext := 2, window := Ram.zero.setList 0 [7, 8, 1, 2, 3, 4, 5, 6]
                       offset := offset, length := length, sane := sane }
    mem := [(0xFFFFFFFD, 9), (0xFFFFFFFE, 10)], flush := 0, next := 0, avail := 0, put := 0xFFFFFFFF, left := left, inn := 0
    out := left + 2 }

/-- An overlap of distance 1 at the top of memory; distances at both ends of the output's part, of the window's two
parts, and one past the history. -/
theorem test_witness_MatchCopyWritesTheHistory :
    (Memory.wf [(0xFFFFFFFE, 9)] = true ∧ 1 ≤ 1 ∧ 1 + 4 ≤ 2 ^ 32 ∧
      (copyBytes [(0xFFFFFFFE, 9)] 0xFFFFFFFF 0xFFFFFFFE 3).readN 0xFFFFFFFF 3 = [9, 9, 9]) ∧
    (∀ offset sane, (matching offset 5 4 sane).i.WindowOk) ∧
    ∀ offset ∈ [1, 2, 3, 4, 5, 10, 11], ∀ sane,
      let x := matching offset 5 4 sane
      x.mem.wf = true ∧ x.left ≤ x.out ∧ x.out < 2 ^ 32 ∧ 1 ≤ x.i.offset ∧ 1 ≤ x.i.length ∧ 1 ≤ x.left ∧
        x.i.history.length + 2 = 10 ∧ (10 < x.i.offset ↔ offset = 11) :=
  ⟨by decide,
    fun _ _ =>
      ⟨show 8 ≤ 2 ^ 15 by decide, show 8 ≤ 8 by decide, fun h => absurd (show 8 = 0 from h) (by decide),
        fun _ => show 2 < 8 by decide, fun h => absurd (show 8 < 8 from h) (by decide)⟩,
    by decide +kernel⟩

/-- R587, R588: distance 5 is three bytes back in the history, past the wrap, one byte up to the array's end; distance 2
repeats the call's two bytes; distance 11 is MSG 16, or one zero in the lenient mode. -/
theorem test_matchCopy :
    let run (offset : Nat) (sane : Bool) :=
      let x := (matching offset 5 4 sane).matchCopy
      (x.mem.readN 0xFFFFFFFF (4 - x.left), x.i.length, x.i.mode, x.regs.msg)
    run 5 true = ([6], 4, .MATCH, .none) ∧ run 2 true = ([9, 10, 9, 10], 1, .MATCH, .none) ∧
      run 11 true = ([], 5, .BAD, .distanceTooFar) ∧ run 11 false = ([0], 4, .MATCH, .none) := by decide +kernel

/-- 47 R543: the marker after a near miss. -/
theorem test_witness_SyncSearchFindsTheFirstMarker :
    syncSearch [0, 0, 0xFF, 0, 0, 0xFF, 0xFF, 1] 0 0 = (4, 7) ∧ MarkerEndsAt [0, 0, 0xFF, 0, 0, 0xFF, 0xFF, 1] 7 ∧
      (syncSearch [0, 0, 0xFF] 0 0).1 = 3 := ⟨by decide, ⟨by decide, by decide⟩, by decide⟩

theorem test_witness_IinitStartsAStream :
    (0 : BitVec 8).toNat < State.reset.params.nctx ∧ (0 : Word).toInt = 0 ∧ (8 : Word).toInt = 8 ∧
      (0xFFFFFFF8 : Word).toInt = -8 ∧ (0xFFFFFFF1 : Word).toInt = -15 := by decide

/-- Also for IEND, IUNDERMINE and ICOPY: context 1 holds an I-engine; 4 is no context, 3 is. -/
theorem test_witness_IresetRestartsTheStream :
    (1 : BitVec 8).toNat < (bothCmd 0).params.nctx ∧ ((bothCmd 0).ctx (1 : BitVec 8).toNat).slot = .inflate windowI ∧
      (bothCmd 0).params.nctx ≤ (4 : BitVec 8).toNat ∧ (3 : BitVec 8).toNat < (bothCmd 0).params.nctx :=
  ⟨by decide, rfl, by decide, by decide⟩

theorem test_witness_IprocEntryChecks :
    ((bothCmd 0).ctx (1 : BitVec 8).toNat).slot = .inflate windowI ∧ 6 < (7 : BitVec 8).toNat ∧
      ({ edgeRegs with nextOut := 0 } : Regs).nextOut = 0 ∧
      (({ edgeRegs with nextIn := 0 } : Regs).nextIn = 0 ∧ ({ edgeRegs with nextIn := 0 } : Regs).availIn ≠ 0) :=
  ⟨rfl, by decide, by decide, by decide⟩

theorem test_witness_IprocAccounts :
    let s := withI edgeRegs windowI [(0, 3)]
    (s.ctx (0 : BitVec 8).toNat).slot = .inflate windowI ∧ s.mem.wf = true ∧ windowI.mode.Entered ∧
      windowI.mode ≠ .SYNC ∧ (6 : BitVec 8).toNat ≤ 6 ∧ edgeRegs.nextOut ≠ 0 ∧ edgeRegs.nextIn ≠ 0 :=
  ⟨rfl, by decide, test_windowI_isOk.mode, by decide, by decide, by decide, by decide⟩

/-- 10 R37: Z_TREES stops after the fixed block's header 011, five bits held, `last` set, mode LEN_; and 00 R14: a
dictionary that is missing is RESULT 2. -/
theorem test_iproc_reports :
    seen (.iproc 0 6) (withI (cursors 1 9) (initInflate 0 15) (at1000 [0x4B])) (fun t => (t.result, (t.ctx 0).regs.dataType)) =
      some (0, 5 + 64 + 256) ∧
    seen (.iproc 0 0) (inflating { freshI with mode := .DICT } []) (fun t => t.result) = some 2 := by decide +kernel

/-- The stored block 01 01 00 FE FF 61 at the top of memory, wrapping to address 1, and one byte of room. -/
theorem test_witness_IprocReadsAStoredStream :
    let i := initInflate 0 15
    let r := { cursors 6 1 with nextIn := 0xFFFFFFFC }
    let s := withI r i [(0, 0xFF), (1, 0x61), (0xFFFFFFFC, 1), (0xFFFFFFFD, 1), (0xFFFFFFFF, 0xFE)]
    (s.ctx (0 : BitVec 8).toNat).slot = .inflate i ∧ i.WindowOk ∧ i.mode = .HEAD ∧ i.last = false ∧ i.wrap = 0 ∧
      i.hold = 0 ∧ i.bits = 0 ∧ s.mem.wf = true ∧ r.nextOut ≠ 0 ∧ r.nextIn ≠ 0 ∧ r.availIn.toNat = 1 + 5 ∧
      1 ≤ r.availOut.toNat ∧ s.mem.readN r.nextIn 5 = [1, 1, 0, 0xFE, 0xFF] ∧ BuffersApart r.nextIn (1 + 5) r.nextOut 1 ∧
      seen (.iproc 0 0) s (written 1) = some ([0x61], 1) :=
  ⟨rfl, ⟨by decide, by decide, by decide, by decide, by decide⟩, rfl, rfl, rfl, rfl, rfl, by decide, by decide, by decide,
    by decide, by decide, by decide, by unfold BuffersApart; decide, by decide +kernel⟩

/-- One witness for the four clauses: they differ in `mode` alone. -/
theorem test_witness_IprocTerminalModes (m : Mode) :
    let i := { windowI with mode := m }
    ((withI edgeRegs i []).ctx (0 : BitVec 8).toNat).slot = .inflate i ∧ i.WindowOk ∧
      edgeRegs.TotalsOk { nctx := 4, total64 := false, allowTooFar := false } ∧ i.mode = m :=
  ⟨rfl, ⟨test_windowI_ok.1, test_windowI_ok.2, test_windowI_ok.3, test_windowI_ok.4, test_windowI_ok.5⟩,
    test_edgeRegs_ok, rfl⟩

/-- 95 DE8: ADLER32("a"). A match, a mismatch, and a stream that wants no dictionary. -/
theorem test_witness_IsetdictAppendsToTheHistory :
    adler32 1 [0x61] = 0x00620062 ∧ adler32 1 [0x62] ≠ 0x00620062 ∧ windowI.WindowOk ∧
      (windowI.wrap ≠ 0 ∧ windowI.mode ≠ .DICT) ∧ (initInflate 0 15).wrap = 0 :=
  ⟨by decide, by decide, test_windowI_ok, by decide, rfl⟩

/-- Nothing held and no input; four bytes held, no input, the marker among them; a marker begun in SYNC; one not found. -/
theorem test_witness_IsyncFindsTheMarker :
    windowI.SyncOk ∧ windowI.bits < 8 ∧ (cursors 0 1).availIn = 0 ∧
      (let i : IState := { windowI with bits := 32, hold := 0xFFFF0000 }
       i.SyncOk ∧ ¬ ((cursors 0 1).availIn = 0 ∧ i.bits < 8) ∧
         ((List.range (i.bits / 8)).map fun j => (i.hold >>> (i.bits % 8 + 8 * j)).extractLsb' 0 8) = [0, 0, 0xFF, 0xFF]) ∧
      (let i : IState := { windowI with mode := .SYNC, bits := 0, haveCnt := 3 }
       i.SyncOk ∧ ¬ ((cursors 1 1).availIn = 0 ∧ i.bits < 8)) ∧
      (∀ e ≤ [(0 : Byte), 0, 0xFF].length, ¬ MarkerEndsAt [0, 0, 0xFF] e) ∧ lastN 3 [(0 : Byte), 0, 0xFF] = [0, 0, 0xFF] ∧
      MarkerEndsAt [0, 0, 0xFF, 0xFF] 4 ∧ ∀ e < 4, ¬ MarkerEndsAt [0, 0, 0xFF, 0xFF] e :=
  ⟨fun h => (nomatch h), by decide, rfl, ⟨fun h => (nomatch h), by decide, by decide⟩, ⟨fun _ => by decide, by decide⟩,
    fun e h hm => absurd (Nat.le_trans hm.1 h) (by decide), by decide, ⟨by decide, by decide⟩,
    fun e h hm => absurd (Nat.lt_of_lt_of_le h hm.1) (Nat.lt_irrefl e)⟩

/-- R543: five bits dropped, the marker's first two bytes held, its last two in the input; and the marker's last byte after
three in SYNC. -/
theorem test_isync_from_held_bytes :
    seen (.isync 0 0) (inflating { freshI with mode := .BAD, bits := 21, hold := 0x1F } [0xFF, 0xFF, 7])
      (fun t => (t.result, mode t, (t.ctx 0).regs.totalIn)) = some (0, some .TYPE, 2) ∧
    seen (.isync 0 0) (inflating { freshI with mode := .SYNC, haveCnt := 3 } [0xFF, 7])
      (fun t => (t.result, mode t, (t.ctx 0).regs.totalIn)) = some (0, some .TYPE, 1) := by decide +kernel

/-! The elements of the wire format: the states `inPlace` asks for. -/

theorem test_witness_BlockHeaderElements :
    let i := { freshI with mode := .TYPEDO, bits := 29, hold := 0x1FFFFFFF }
    i.HoldOk ∧ i.bits ≤ 29 ∧ (i.mode = .TYPE ∨ i.mode = .TYPEDO) ∧ i.last = false := by
  refine ⟨?_, by decide, by decide, rfl⟩
  show (0x1FFFFFFF : BitVec 32).toNat < 2 ^ 29
  decide

/-- Every statement about an element starts from a state like this one. -/
theorem test_witness_element_state (r : Regs) (i : IState) :
    ((withI r i []).ctx (withI r i []).cur).slot = .inflate i := rfl

/-- 78 9C is a multiple of 31 and 78 9D is not; 88 1C is one with a window of 2^16; 78 9C with a 2^8 limit; CM is 7 in 77 85,
a multiple of 31. -/
theorem test_witness_ZlibHeaderElement :
    freshI.mode = .HEAD ∧ freshI.wrap.getLsbD 0 = true ∧ freshI.hold = 0 ∧ freshI.bits = 0 ∧
      ((7 * 16 + 8) * 256 + 0x9C) % 31 = 0 ∧ ((7 * 16 + 8) * 256 + 0x9D) % 31 ≠ 0 ∧
      (((8 * 16 + 8) * 256 + 0x1C) % 31 = 0 ∧ 15 < 8 + 8) ∧ (initInflate 5 8).wbits < 7 + 8 ∧
      ((0x7785 : Word).toNat < 2 ^ 16 ∧ (0x7785 : Word).toNat / 2 ^ 8 % 2 ^ 4 ≠ 8 ∧ (0x7785 : Word).toNat % 31 = 0) := by decide

/-- What `i` leaves when context 0 is offered `v` of format `f`, seen through `g`. -/
def offered {α : Type} (i : IState) (f : Format) (v : Word) (g : IState → α) : Option (Option α × Msg) :=
  match step { inflating i [] with inputs := [.wire 0 f v] } with
  | .next t => some (iSeen g t)
  | _ => none

/-- 30 R158: CM = 7 is MSG 4, or MSG 3 where the header is no multiple of 31 either. -/
theorem test_header_of_another_method :
    offered freshI .zlibHdr 0x7785 (fun i => (i.mode, i.bits)) = some (some (.BAD, 16), .unknownMethod) ∧
      offered freshI .zlibHdr 0x7786 (fun i => i.mode) = some (some .BAD, .headerCheck) := by decide

/-- 30 R149: 0011000 begins the codes 00110000 and 00110001, the literals 0 and 1; 0011000 then waits for a bit; 000001011
is 0000010, a length of 4, and 11. -/
theorem test_codes_of_other_lengths :
    let numbers (i : IState) : List Nat := [i.mode.num, i.length, i.bits, i.hold.toNat]
    offered (fixedI .LEN_) .fixedLL7 0b0011000 numbers = some (some [Mode.LEN.num, 0, 7, 0b0001100], .none) ∧
    offered { fixedI .LEN with bits := 1, hold := 1 } .fixedLL7 0b0011000 numbers =
      some (some [Mode.LIT.num, 1, 0, 0], .none) ∧
    offered (fixedI .LEN) .fixedLL9 0b000001011 numbers = some (some [Mode.LENEXT.num, 4, 2, 3], .none) := by
  decide +kernel

/-- 30 R170: op 82 hex has no class bit, so it is a base of 2 extra bits; op 21 hex has end-of-block's. -/
theorem test_entries_of_no_class :
    offered { fixedI .LEN with bits := 7 } .entry 0x0005_0782 (fun i => (i.mode, i.length, i.extra)) =
      some (some (.LENEXT, 5, 2), .none) ∧
    offered { fixedI .LEN with bits := 7 } .entry 0x0000_0721 (fun i => i.mode) = some (some .TYPE, .none) := by
  decide +kernel

/-- A checked trailer right and wrong, an unchecked one, and a DICTID. -/
theorem test_witness_AdlerElements :
    let i := { freshI with mode := .CHECK, check := 7 }
    i.hold = 0 ∧ i.bits = 0 ∧ i.mode = .CHECK ∧ i.wrap ≠ 0 ∧ i.wrap.getLsbD 2 = true ∧ (8 : Word) ≠ i.check ∧
      edgeRegs.TotalsOk { nctx := 4, total64 := false, allowTooFar := false } ∧
      ({ i with wrap := 1 } : IState).wrap.getLsbD 2 = false ∧ ({ i with mode := .DICTID } : IState).mode = .DICTID :=
  ⟨rfl, rfl, rfl, by decide, rfl, by decide, test_edgeRegs_ok, rfl, rfl⟩

/-- Seven bits of padding held; LEN and its complement, and LEN with itself. -/
theorem test_witness_StoredLengthsElement :
    let i := { freshI with mode := .STORED, bits := 7, hold := 0x7F }
    i.mode = .STORED ∧ (0x7F : BitVec 32).toNat < 2 ^ 7 ∧ i.bits < 8 ∧ (0xFFFF : BitVec 16) = ~~~(0 : BitVec 16) ∧
      (0 : BitVec 16) ≠ ~~~(0 : BitVec 16) := by decide

/-- As many bits held as leave room for 9. -/
theorem test_witness_FixedLitLenElements :
    let i := { fixedI .LEN_ with bits := 23, hold := 0x7FFFFF }
    (0x7FFFFF : BitVec 32).toNat < 2 ^ 23 ∧ i.bits + 9 ≤ 32 ∧ (i.mode = .LEN ∨ i.mode = .LEN_) ∧
      i.lencode = { tbl := .fixedL, off := 0 } ∧ i.lenbits = 9 ∧ (5 : BitVec 3).toNat < 6 ∧ (1 : BitVec 3) ≠ 0 := by decide

/-- As many bits held as leave room for 5. -/
theorem test_witness_FixedDistanceElements :
    let i := { fixedI .DIST with bits := 27, hold := 0x7FFFFFF }
    (0x7FFFFFF : BitVec 32).toNat < 2 ^ 27 ∧ i.bits + 5 ≤ 32 ∧ i.mode = .DIST ∧
      i.distcode = { tbl := .fixedD, off := 0 } ∧ i.distbits = 5 ∧ (13 : BitVec 4).toNat < 14 := by decide

theorem test_witness_DecodedSymbols :
    ((fixedI .LEN).mode = .LEN ∨ (fixedI .LEN).mode = .LEN_) ∧ (fixedI .DIST).mode = .DIST ∧
      (1 ≤ (1 : BitVec 8).toNat ∧ (29 : BitVec 8).toNat ≤ 29) ∧ (29 : BitVec 5).toNat < 30 := by decide

/-- The last length to come, and one with every run cut off; one place more, and the first length. -/
theorem test_witness_CodeLengthSymbols :
    let i := { freshI with mode := .CODELENS, nlen := 257, ndist := 1, haveCnt := 257, bits := 25, hold := 0x1FFFFFF }
    (0x1FFFFFF : BitVec 32).toNat < 2 ^ 25 ∧ i.bits + 7 ≤ 32 ∧ i.mode = .CODELENS ∧ i.haveCnt < i.nlen + i.ndist ∧
      i.haveCnt ≠ 0 ∧ i.haveCnt + 1 ≤ i.nlen + i.ndist ∧ i.nlen + i.ndist < i.haveCnt + 3 ∧
      (0 < i.nlen + i.ndist ∧ 0 + (11 + 127) ≤ i.nlen + i.ndist) := by decide

/-- The code bits held exactly, alone and with the extra bits of symbols 16 and 18; the last run that fits, one that does
not, and a repeat with nothing before it. -/
theorem test_witness_TableEntries :
    let i := { fixedI .CODELENS with nlen := 257, ndist := 1, haveCnt := 119, bits := 14 }
    (14 : BitVec 8).toNat ≤ i.bits ∧ (7 : BitVec 8).toNat + 7 ≤ i.bits ∧ (12 : BitVec 8).toNat + 2 ≤ i.bits ∧
      i.mode = .CODELENS ∧ i.haveCnt < i.nlen + i.ndist ∧ (15 : BitVec 16).toNat < 16 ∧
      i.haveCnt + (11 + 127) ≤ i.nlen + i.ndist ∧ i.nlen + i.ndist < 121 + (11 + 127) ∧ i.haveCnt ≠ 0 ∧
      ({ i with haveCnt := 0 } : IState).haveCnt = 0 ∧ 18 ≤ (0xFFFF : BitVec 16).toNat ∧ (fixedI .DIST).mode = .DIST ∧
      (fixedI .LEN_).mode = .LEN_ := by decide

/-- R516: val alone decides in the code-length table, whatever the class; R522: an end-of-block entry is no distance. -/
theorem test_entries_by_val :
    seen (.entInvalid 3 17) (inflating { freshI with mode := .CODELENS, nlen := 257, ndist := 1, haveCnt := 1, bits := 6
                                                     hold := 0x28 } [])
      (iSeen fun i => (i.mode, i.haveCnt, i.bits)) = some (some (.CODELENS, 9, 0), .none) ∧
    seen (.entEob 7 0) (inflating { fixedI .DIST with bits := 9 } []) (iSeen fun i => (i.mode, i.bits)) =
      some (some (.BAD, 2), .distanceCode) := by decide

/-- A link of 2 index bits, and one of none, at code offset 10, whose sub-tables hold entries of 1 bit, both codes held
exactly. -/
theorem test_witness_TableLinks :
    let v : View := { tbl := .codes, off := 10 }
    let i := { freshI with mode := .LEN, lencode := v, distcode := v, bits := 10, hold := 0x200
                           codes := ((Ram.zero : Ram 11 Entry).set 31 { op := 96, bits := 1, val := 0 }).set 30
                             { op := 16, bits := 1, val := 1 } }
    (2 : BitVec 4) ≠ 0 ∧ i.lencode.tbl = .codes ∧ i.distcode.tbl = .codes ∧
      i.codes.get (v.off + 20 + i.hold.toNat / 2 ^ 9 % 2 ^ (2 : BitVec 4).toNat) = { op := 96, bits := 1, val := 0 } ∧
      i.codes.get (v.off + 20 + i.hold.toNat / 2 ^ 9 % 2 ^ (0 : BitVec 4).toNat) = { op := 16, bits := 1, val := 1 } ∧
      9 + 1 ≤ i.bits := by
  decide

/-- 47 R502: in LEN a block header's three bits are no whole fixed code and wait; in TYPE the code 0010111 is BFINAL 0, BTYPE 2
(the bits 0, 0, 1), then four bits held. 60 R624: no I-engine; and a distance symbol in LEN. -/
theorem test_bits_in_another_mode :
    let numbers (i : IState) : List Nat := [i.mode.num, i.bits, i.hold.toNat]
    offered (fixedI .LEN_) .blockHdr 3 numbers = some (some [Mode.LEN.num, 3, 3], .none) ∧
    offered { freshI with mode := .TYPE } .fixedLL7 0b0010111 numbers = some (some [Mode.TABLE.num, 4, 0b1110], .none) ∧
    seen .fixEob State.reset (fun t => t.result.toInt) = some (-2) ∧
    seen (.symDist 3) (inflating (fixedI .LEN) []) (fun t => (t.result.toInt, t.ctx 0 == (inflating (fixedI .LEN) []).ctx 0)) =
      some (-2, true) := by
  decide +kernel

/-- 45 R432, 10_state R73: with a byte held, CHECK takes 16 bits more, and none that leave a part of a byte; with 25
bits held, a link of 24 and an entry of 8 wait, and the byte that has no room stays in the input (log entry 26). -/
theorem test_whole_bytes_and_room :
    let i := { freshI with mode := .CHECK, bits := 8, hold := 0xA5 }
    let after (o : Host.Outcome State Fault Refusal) : List Nat := match o with
      | .next t => t.result.toNat :: (t.ctx 0).regs.availIn.toNat :: ((iSeen (fun i => [i.bits, i.hold.toNat]) t).1.getD [])
      | _ => []
    after (step { inflating i [] with inputs := [.wire 0 .zlibHdr 0x0201] }) = [0, 0, 24, 0xA50102] ∧
    after (step { inflating i [] with inputs := [.wire 0 .blockHdr 1] }) = [0xFFFFFFFE, 0, 8, 0xA5] ∧
    after (exec (.entLink 2 24 0) (inflating { fixedI .DIST with bits := 25, hold := 3, distcode := { tbl := .codes, off := 0 }
                                                                 codes := Ram.zero.set 0 { op := 64, bits := 8, val := 0 } } [7])) =
      [0, 1, 25, 3] := by decide +kernel

/-- Each way to be turned away, at its ends: a mode that reads no bits, one bit too many (in STORED beside the padding), a
part of a byte in CHECK, no lookup of the kind, an entry's last bit not held, the first numbers past the alphabets, an illegal command word. -/
theorem test_witness_turned_away :
    (both (.wire 1 .clSym 19)).inputs = .wire 1 .clSym 19 :: [] ∧ 19 ≤ (19 : Word).toNat % 2 ^ 5 ∧
      288 ≤ (288 : Word).toNat % 2 ^ 9 ∧ (0x01000006 : Word).toNat / 2 ^ 24 ≠ 0 ∧
      (∀ i, (State.reset.ctx State.reset.cur).slot ≠ .inflate i) ∧
      Mode.COPY ∉ bitModes ∧ ¬ (30 + Format.blockHdr.width ≤ 32) ∧ 29 + Format.blockHdr.width ≤ 32 ∧
      (8 + Format.fixedLL7.width) % 8 ≠ 0 ∧ (8 + Format.zlibHdr.width) % 8 = 0 ∧ 7 / 8 * 8 + Format.storedLen.width ≤ 32 ∧ ¬ (8 / 8 * 8 + Format.storedLen.width ≤ 32) ∧
      (fixedI .DIST).mode ≠ .LEN ∧ (fixedI .LEN).mode ≠ .DIST ∧ 6 < (0x0000_0740 : Word).toNat / 2 ^ 8 % 2 ^ 8 :=
  ⟨rfl, by decide, by decide, by decide, fun _ h => (nomatch h), by decide, by decide, by decide, by decide, by decide,
    by decide, by decide, by decide, by decide, by decide⟩

/-- A 9-bit value that is a 7-bit code and two bits, in LEN and as a block header in TYPE; too few bits for the DICTID; an op
byte of no class. -/
theorem test_witness_OutOfPlaceAndStrayValues :
    (fixedI .LEN).mode ∈ bitModes ∧ (encode .fixEob).1.width ≤ Format.fixedLL9.width ∧
      wireBits .fixedLL9 0b000000011 % 2 ^ 7 = wireBits (encode .fixEob).1 (encode .fixEob).2 ∧
      wireBits .fixedLL9 0b110000000 % 2 ^ 3 = wireBits (encode (.blkFixed true)).1 (encode (.blkFixed true)).2 ∧
      freshI.hold = 0 ∧ freshI.bits = 0 ∧ freshI.wrap ≠ 0 ∧
      (Format.zlibHdr.width < 32 ∧ Format.zlibHdr.width % 8 = 0) ∧
      (cursors 0 1).availIn = 0 ∧
      (0x0005_0782 : Word) = (5 : BitVec 16) ++ (7 : BitVec 8) ++ (0x82 : BitVec 8) ∧ 32 ≤ (0x82 : BitVec 8).toNat := by
  decide

/-! ### The host's two questions on a table word -/

/-- 95 V1.1's header and the command word DPROC 0, Z_FINISH, placed where the next step runs them. -/
theorem test_withFetchWord :
    decodeTableWord 16 0x789C = some (.zlibHdr 7 2 false 28) ∧ decodeTableWord 32 0x00040002 = some (.dproc 0 4) ∧
      (match step (State.reset.withFetchWord 16 0x789C) with
        | .next t => mode t
        | _ => none) = some .TYPE ∧
      (match step (State.reset.withFetchWord 32 0x00040002) with
        | .next t => t.result.toInt
        | _ => 0) = -2 := by decide

end Sys2Proof.Tests
end

section
/-! PROOFS. The CSR space as the host sees it (10_state R32 to R36): what a read answers and what a write reaches. -/

namespace Sys2Proof.Machine

/-! ### A host access of a CSR -/

theorem step_of_csrRead {s : State} {off : Word} {rest : List Input} (h : s.inputs = .csrRead off :: rest) :
    step s = .next { s with inputs := rest, readData := s.csrRead off } := by
  unfold step
  rw [h]
  rfl

/-- A write at any offset but CMD's is an access of the CSR space alone. -/
theorem step_of_csrWrite {s : State} {off v : Word} {rest : List Input} (h : s.inputs = .csrWrite off v :: rest)
    (hoff : off ≠ 0) : step s = .next ({ s with inputs := rest }.csrWrite off v) := by
  unfold step
  rw [h]
  exact if_neg hoff

/-! ### The offsets of a context's block -/

theorem Params.nctx_le_of_wf {p : Params} (h : p.wf = true) : p.nctx ≤ 256 := by
  simp only [Params.wf, Bool.and_eq_true, decide_eq_true_eq] at h
  exact h.2

/-- An offset in the block of context `k`, taken apart as the CSR space does: its alignment, that it is no global CSR, the
context and the offset in the block. With at most 256 contexts the sum does not wrap. -/
theorem ctxOffset_parts {k o : Nat} (hk : k < 256) (ho : o < 0x40) :
    (BitVec.ofNat 32 (0x100 + 0x40 * k + o)).toNat % 4 = o % 4 ∧
      ¬ (BitVec.ofNat 32 (0x100 + 0x40 * k + o)).toNat < 0x100 ∧
      ((BitVec.ofNat 32 (0x100 + 0x40 * k + o)).toNat - 0x100) / 0x40 = k ∧
      ((BitVec.ofNat 32 (0x100 + 0x40 * k + o)).toNat - 0x100) % 0x40 = o := by
  have whole : (BitVec.ofNat 32 (0x100 + 0x40 * k + o)).toNat = 0x100 + 0x40 * k + o := by
    rw [BitVec.toNat_ofNat]
    omega
  rw [whole]
  omega

theorem ctxOffset_ne_zero {k o : Nat} (hk : k < 256) (ho : o < 0x40) : BitVec.ofNat 32 (0x100 + 0x40 * k + o) ≠ 0 := by
  intro h
  obtain ⟨-, block, -, -⟩ := ctxOffset_parts hk ho
  rw [h] at block
  exact block (by decide)

section
variable {s : State} {k o : Nat} (hs : s.params.wf = true) (hk : k < s.params.nctx) (ho : o < 0x40) (h4 : o % 4 = 0)
include hs hk ho h4

/-- An aligned read inside the block of context `k` reads that context. -/
theorem State.csrRead_ctxOffset :
    s.csrRead (BitVec.ofNat 32 (0x100 + 0x40 * k + o)) = (s.ctx k).csrRead o := by
  obtain ⟨aligned, block, index, within⟩ := ctxOffset_parts (Nat.lt_of_lt_of_le hk (Params.nctx_le_of_wf hs)) ho
  simp [-BitVec.toNat_ofNat, State.csrRead, aligned, block, index, within, h4, hk]

/-- An aligned write inside the block of context `k` goes to that context. -/
theorem State.csrWrite_ctxOffset (v : Word) :
    s.csrWrite (BitVec.ofNat 32 (0x100 + 0x40 * k + o)) v = s.setCtx k ((s.ctx k).csrWrite o v) := by
  obtain ⟨aligned, block, index, within⟩ := ctxOffset_parts (Nat.lt_of_lt_of_le hk (Params.nctx_le_of_wf hs)) ho
  simp [-BitVec.toNat_ofNat, State.csrWrite, aligned, block, index, within, h4, hk]

end

/-! ### The register maps -/

/-- The global CSRs but CFG, as a read sees them (10_state R32). -/
def State.globalMap (s : State) : List (Word × Word) :=
  [(0x000, 0), (0x004, s.arg0), (0x008, s.arg1), (0x00C, s.arg2), (0x010, s.arg3), (0x014, s.result)]

theorem State.csrRead_of_mem_globalMap {s : State} {off v : Word} (h : (off, v) ∈ s.globalMap) :
    s.csrRead off = v := by
  have each : ∀ p ∈ s.globalMap, s.csrRead p.1 = p.2 := by
    simp only [State.globalMap, List.forall_mem_cons]
    exact ⟨rfl, rfl, rfl, rfl, rfl, rfl, List.forall_mem_nil _⟩
  exact each _ h

/-- The message codes (10_state R36). -/
def msgCodes : List (Msg × Word) :=
  [(.none, 0), (.streamError, 1), (.bufferError, 2), (.headerCheck, 3), (.unknownMethod, 4), (.windowSize, 5),
    (.blockType, 6), (.storedLengths, 7), (.tooManySymbols, 8), (.codeLengthsSet, 9), (.bitLengthRepeat, 10),
    (.missingEndOfBlock, 11), (.literalLengthsSet, 12), (.distancesSet, 13), (.literalLengthCode, 14), (.distanceCode, 15),
    (.distanceTooFar, 16), (.dataCheck, 17)]

theorem Msg.code_of_mem_msgCodes {m : Msg} {w : Word} (h : (m, w) ∈ msgCodes) : m.code = w :=
  (by decide : ∀ p ∈ msgCodes, p.1.code = p.2) _ h

/-- A context's registers, as a read sees them (10_state R34, R35). -/
def Ctx.readMap (c : Ctx) : List (Nat × Word) :=
  [(0x00, c.regs.nextIn), (0x04, c.regs.availIn), (0x08, c.regs.nextOut), (0x0C, c.regs.availOut),
    (0x10, c.regs.totalIn.extractLsb' 0 32), (0x14, c.regs.totalIn.extractLsb' 32 32),
    (0x18, c.regs.totalOut.extractLsb' 0 32), (0x1C, c.regs.totalOut.extractLsb' 32 32),
    (0x20, c.regs.adler), (0x24, c.regs.dataType), (0x28, c.regs.msg.code), (0x2C, c.slot.kind)]

/-- Every register of the map stands at an aligned offset of the block and reads as its entry. -/
theorem Ctx.csrRead_of_mem_readMap {c : Ctx} {o : Nat} {v : Word} (h : (o, v) ∈ c.readMap) :
    c.csrRead o = v ∧ o < 0x40 ∧ o % 4 = 0 := by
  have each : ∀ p ∈ c.readMap, c.csrRead p.1 = p.2 ∧ p.1 < 0x40 ∧ p.1 % 4 = 0 := by
    simp [Ctx.readMap, Ctx.csrRead, ← BitVec.setWidth_ushiftRight_eq_extractLsb]
  exact each _ h

/-- What a write of `v` makes of a context's registers at each register it can reach (10_state R34). -/
def Regs.writeMap (r : Regs) (v : Word) : List (Nat × Regs) :=
  [(0x00, { r with nextIn := v }), (0x04, { r with availIn := v }), (0x08, { r with nextOut := v }),
    (0x0C, { r with availOut := v })]

theorem Ctx.csrWrite_of_mem_writeMap {c : Ctx} {v : Word} {o : Nat} {r : Regs} (h : (o, r) ∈ c.regs.writeMap v) :
    c.csrWrite o v = { c with regs := r } ∧ o < 0x40 ∧ o % 4 = 0 := by
  have each : ∀ p ∈ c.regs.writeMap v, c.csrWrite p.1 v = { c with regs := p.2 } ∧ p.1 < 0x40 ∧ p.1 % 4 = 0 := by
    simp [Regs.writeMap, Ctx.csrWrite]
  exact each _ h

/-! ### CFG -/

theorem toNat_cfgWord {p : Params} (h : p.wf = true) :
    (cfgWord p).toNat = p.nctx + 2 ^ 16 * p.total64.toNat + 2 ^ 17 * p.allowTooFar.toNat := by
  have := Params.nctx_le_of_wf h
  unfold cfgWord
  rw [BitVec.toNat_ofNat]
  cases p.total64 <;> cases p.allowTooFar <;> simp <;> omega

/-- The fields of CFG, the reserved bits between and above them included (10_state R33). -/
theorem cfgWord_fields {p : Params} (h : p.wf = true) :
    (cfgWord p).toNat % 2 ^ 9 = p.nctx ∧ (cfgWord p).toNat / 2 ^ 9 % 2 ^ 7 = 0 ∧
      (cfgWord p).getLsbD 16 = p.total64 ∧ (cfgWord p).getLsbD 17 = p.allowTooFar ∧ (cfgWord p).toNat / 2 ^ 18 = 0 := by
  have hn := Params.nctx_le_of_wf h
  have ht := p.total64.toNat_lt
  have ha := p.allowTooFar.toNat_lt
  have hw := toNat_cfgWord h
  have bit (i : Nat) (b : Bool) (hb : (cfgWord p).toNat / 2 ^ i % 2 = b.toNat) : (cfgWord p).getLsbD i = b := by
    rw [← BitVec.testBit_toNat, Nat.testBit_eq_decide_div_mod_eq, hb]
    cases b <;> rfl
  refine ⟨?_, ?_, bit 16 _ ?_, bit 17 _ ?_, ?_⟩ <;> omega

/-! ### The obligations -/

/-- Settles O7: the access reads the CSR space, whose two maps hold what the statement lists. -/
theorem csrReads : Obligations.CsrReads := by
  unfold Obligations.CsrReads
  intro s off rest hin hwf
  refine ⟨fun v hv => ?_, fun k hk o v code => ?_⟩
  · rw [step_of_csrRead hin, State.csrRead_of_mem_globalMap hv]
  · intro r kind hcode hv hoff
    obtain rfl : r.msg.code = code := Msg.code_of_mem_msgCodes hcode
    obtain ⟨hread, hlt, h4⟩ : (s.ctx k).csrRead o = v ∧ o < 0x40 ∧ o % 4 = 0 := Ctx.csrRead_of_mem_readMap hv
    rw [step_of_csrRead hin, hoff, State.csrRead_ctxOffset hwf hk hlt h4, hread]

/-- Settles O8: a read answers `cfgWord`, and CFG is none of the registers a write reaches. -/
theorem cfgReportsTheBuild : Obligations.CfgReportsTheBuild := by
  unfold Obligations.CfgReportsTheBuild
  intro s rest hwf
  refine ⟨fun hin => ⟨cfgWord s.params, step_of_csrRead hin, cfgWord_fields hwf⟩, fun w hin => ?_⟩
  exact step_of_csrWrite hin (by decide)

/-- Settles O9: the ARG registers by their offsets, a context's cursors through the write map of its block. -/
theorem csrWrites : Obligations.CsrWrites := by
  unfold Obligations.CsrWrites
  intro s off v rest hin hwf
  have write (h : off ≠ 0) := step_of_csrWrite hin h
  refine ⟨?arg0, ?arg1, ?arg2, ?arg3, fun k hk o r hr hoff => ?cursor⟩
  case arg0 | arg1 | arg2 | arg3 =>
    rintro rfl
    exact write (by decide)
  case cursor =>
    obtain ⟨hwrite, hlt, h4⟩ := Ctx.csrWrite_of_mem_writeMap (c := s.ctx k) hr
    have hne : off ≠ 0 := hoff ▸ ctxOffset_ne_zero (Nat.lt_of_lt_of_le hk (Params.nctx_le_of_wf hwf)) hlt
    rw [write hne, hoff, State.csrWrite_ctxOffset (s := { s with inputs := rest }) hwf hk hlt h4, ← hwrite]
    rfl

end Sys2Proof.Machine
end

section
/-! PROOFS. Host memory, the unmapped part of the CSR space, and what a command touches and sees (20_memory R101 to R104). -/

namespace Sys2Proof.Machine

/-! ### MemWrite and MemRead (20_memory R104) -/

/-- MemRead by index: its byte `i` is the one at `a + i`, modulo 2^32. -/
theorem Memory.getElem?_readN (m : Memory) (a : Word) {n i : Nat} (hi : i < n) :
    (m.readN a n)[i]? = some (m.read (a + BitVec.ofNat 32 i)) := by
  induction n generalizing a i with
  | zero => exact absurd hi (Nat.not_lt_zero i)
  | succ n ih =>
    cases i with
    | zero => simp [Memory.readN]
    | succ i =>
      rw [BitVec.ofNat_add, BitVec.add_comm (BitVec.ofNat 32 i), ← BitVec.add_assoc]
      exact ih (a + 1) (Nat.lt_of_succ_lt_succ hi)

/-- MemRead of what MemWrite has just written. The later bytes do not reach the first one again, for there are at most 2^32. -/
theorem Memory.readN_writeN {m : Memory} {a : Word} {vs : List Byte} (h : m.wf = true) (hlen : vs.length ≤ 2 ^ 32) :
    (m.writeN a vs).readN a vs.length = vs := by
  induction vs generalizing m a with
  | nil => rfl
  | cons v vs ih =>
    rw [List.length_cons] at hlen
    have first : (m.writeN a (v :: vs)).read a = v := by
      rw [Memory.writeN, Memory.read_writeN_outside (Memory.write_wf h), Memory.read_write_same h]
      intro i hi
      bv_omega
    have rest : (m.writeN a (v :: vs)).readN (a + 1) vs.length = vs := ih (Memory.write_wf h) (Nat.le_of_succ_le hlen)
    rw [List.length_cons, Memory.readN, first, rest]

/-! ### Offsets that reach no register (20_memory R101) -/

/-- No register starts at offset 0x30 of a context's block or above it (10_state R34). -/
theorem Ctx.csrRead_above (c : Ctx) {o : Nat} (h : 0x30 ≤ o) : c.csrRead o = 0 := by
  unfold Ctx.csrRead
  split
  case h_13 => rfl
  all_goals omega

/-- The four cursors are all that a write of a context's block reaches (10_state R34). -/
theorem Ctx.csrWrite_above (c : Ctx) {o : Nat} (h : 0x10 ≤ o) (v : Word) : c.csrWrite o v = c := by
  unfold Ctx.csrWrite
  split
  case h_5 => rfl
  all_goals omega

/-- Writing back what `ctx` reads changes nothing, where `k` names no context as well. -/
theorem State.setCtx_ctx (s : State) (k : Nat) : s.setCtx k (s.ctx k) = s := by
  by_cases hk : k < s.ctxs.length
  · exact State.setCtx_self hk
  · rw [State.setCtx, List.set_eq_of_length_le (Nat.le_of_not_lt hk)]

/-- A byte offset at which no register stands (10_state R32, R34; 20_memory R101). -/
def UnmappedOffset (p : Params) (o : Nat) : Prop :=
  o % 4 ≠ 0 ∨ (0x1C ≤ o ∧ o < 0x100) ∨ 0x100 + 0x40 * p.nctx ≤ o ∨ (0x100 ≤ o ∧ 0x30 ≤ (o - 0x100) % 0x40)

/-- A byte offset at which every register is read-only (10_state R32, R34). -/
def ReadOnlyOffset (o : Nat) : Prop := o = 0x014 ∨ o = 0x018 ∨ (0x100 ≤ o ∧ 0x10 ≤ (o - 0x100) % 0x40)

theorem State.csrRead_unmapped {s : State} {off : Word} (h : UnmappedOffset s.params off.toNat) : s.csrRead off = 0 := by
  unfold State.csrRead
  dsimp only
  split
  · rfl
  · rename_i aligned
    split
    · rename_i global
      have high : 0x1C ≤ off.toNat := by unfold UnmappedOffset at h; omega
      split
      case h_7 => rfl
      all_goals omega
    · split
      · exact Ctx.csrRead_above _ (by unfold UnmappedOffset at h; omega)
      · rfl

theorem State.csrWrite_ignored {s : State} {off : Word}
    (h : UnmappedOffset s.params off.toNat ∨ ReadOnlyOffset off.toNat) (v : Word) : s.csrWrite off v = s := by
  unfold State.csrWrite
  dsimp only
  split
  · rfl
  · rename_i aligned
    unfold UnmappedOffset ReadOnlyOffset at h
    split
    · have high : 0x14 ≤ off.toNat := by omega
      split
      case h_5 => rfl
      all_goals omega
    · split
      · rw [Ctx.csrWrite_above _ (by omega), State.setCtx_ctx]
      · rfl

/-! ### What a command touches (20_memory R102, R103) -/

theorem OnlyCtx.setResult (k : Nat) (s : State) (st : Status) : OnlyCtx k s (s.setResult st) where
  params := rfl
  args := ⟨rfl, rfl, rfl, rfl⟩
  inputs := rfl
  readData := rfl
  cur := rfl
  count := rfl
  others _ _ := rfl

theorem OnlyCtx.finish (k : Nat) (s : State) (r : Done) : OnlyCtx k s (s.finish k r) where
  params := rfl
  args := ⟨rfl, rfl, rfl, rfl⟩
  inputs := rfl
  readData := rfl
  cur := rfl
  count := by simp
  others _ h := State.ctx_finish_ne r h

/-- R130's check of CTX: the command's rule ran, or the command was turned away. -/
theorem onContext_cases {k : BitVec 8} {s t : State} {f : State → State} (h : onContext k s f = .next t) :
    (k.toNat < s.params.nctx ∧ t = f s) ∨ (s.params.nctx ≤ k.toNat ∧ t = s.setResult .streamError) := by
  by_cases hk : k.toNat < s.params.nctx
  · rw [onContext_lt hk] at h
    exact .inl ⟨hk, by injection h with h; exact h.symm⟩
  · rw [onContext_ge (Nat.le_of_not_lt hk)] at h
    exact .inr ⟨Nat.le_of_not_lt hk, by injection h with h; exact h.symm⟩

/-- A command turned away for its CTX keeps the frame, so that the rule's frame is the command's. -/
theorem onContext_frame {j : Nat} {k : BitVec 8} {s t : State} {f : State → State} (h : onContext k s f = .next t)
    (hf : OnlyCtx j s (f s) ∧ (f s).mem = s.mem) : OnlyCtx j s t ∧ t.mem = s.mem := by
  obtain ⟨-, rfl⟩ | ⟨-, rfl⟩ := onContext_cases h
  · exact hf
  · exact ⟨OnlyCtx.setResult .., rfl⟩

theorem onDeflate_onlyCtx {k : BitVec 8} {s t : State} {f : Regs → DState → Done} (h : onDeflate k s f = .next t) :
    OnlyCtx k.toNat s t := by
  obtain rfl | ⟨d, -, -, rfl⟩ := onDeflate_cases h
  · exact OnlyCtx.setResult ..
  · exact OnlyCtx.finish ..

theorem onInflate_onlyCtx {k : BitVec 8} {s t : State} {f : Regs → IState → Done} (h : onInflate k s f = .next t) :
    OnlyCtx k.toNat s t := by
  obtain rfl | ⟨i, -, -, rfl⟩ := onInflate_cases h
  · exact OnlyCtx.setResult ..
  · exact OnlyCtx.finish ..

theorem onDeflate_mem {k : BitVec 8} {s t : State} {f : Regs → DState → Done} (hf : ∀ r d, (f r d).mem = s.mem)
    (h : onDeflate k s f = .next t) : t.mem = s.mem := by
  obtain rfl | ⟨d, -, -, rfl⟩ := onDeflate_cases h
  · rfl
  · exact hf ..

theorem onInflate_mem {k : BitVec 8} {s t : State} {f : Regs → IState → Done} (hf : ∀ r i, (f r i).mem = s.mem)
    (h : onInflate k s f = .next t) : t.mem = s.mem := by
  obtain rfl | ⟨i, -, -, rfl⟩ := onInflate_cases h
  · rfl
  · exact hf ..

/-! ### DSETDICT reads host memory and does not write it (44 R385) -/

@[simp] theorem DRun.done_mem (st : Status) (x : DRun) : (x.done st).mem = x.mem := rfl

theorem fillLoop_mem (n : Nat) (x : DRun) : (fillLoop n x).mem = x.mem := by
  induction n generalizing x with
  | zero => rfl
  | succ n ih =>
    rw [fillLoop]
    dsimp only
    split
    · rfl
    · split
      · simp only [ih, readIn_mem]
      · simp only [readIn_mem]

theorem fillWindow_mem (x : DRun) : (fillWindow x).mem = x.mem := fillLoop_mem _ x

theorem dictLoop_mem (n : Nat) (x : DRun) : (dictLoop n x).mem = x.mem := by
  induction n generalizing x with
  | zero => rfl
  | succ n ih =>
    rw [dictLoop]
    split
    · rw [ih, fillWindow_mem]
    · rfl

theorem loadDictionary_mem (addr n : Word) (x : DRun) : (loadDictionary addr n x).mem = x.mem := by
  rw [loadDictionary]
  dsimp only
  rw [dictLoop_mem, fillWindow_mem]

/-! ### The frame of the commands with an end or a rule of their own -/

theorem execDinit_frame {k b : BitVec 8} {s t : State} (h : execDinit k b s = .next t) :
    OnlyCtx k.toNat s t ∧ t.mem = s.mem := by
  refine onContext_frame h ?_
  split
  · exact ⟨OnlyCtx.setResult .., rfl⟩
  · exact ⟨OnlyCtx.finish .., rfl⟩

theorem execIinit_frame {k b : BitVec 8} {s t : State} (h : execIinit k b s = .next t) :
    OnlyCtx k.toNat s t ∧ t.mem = s.mem := by
  refine onContext_frame h ?_
  split
  · exact ⟨OnlyCtx.setResult .., rfl⟩
  · exact ⟨OnlyCtx.finish .., rfl⟩

/-- ICOPY's end is that of a command on its destination (47 R545). -/
theorem execIcopy_frame {k b : BitVec 8} {s t : State} (h : execIcopy k b s = .next t) :
    OnlyCtx b.toNat s t ∧ t.mem = s.mem := by
  refine onContext_frame h ?_
  split
  · split
    · exact ⟨OnlyCtx.setResult .., rfl⟩
    · exact ⟨OnlyCtx.finish b.toNat s
        { status := .ok, regs := (s.ctx k.toNat).regs, slot := (s.ctx k.toNat).slot, mem := s.mem }, rfl⟩
  · exact ⟨OnlyCtx.setResult .., rfl⟩
  · exact ⟨OnlyCtx.setResult .., rfl⟩

theorem execDsetdict_mem {k b : BitVec 8} {s t : State} (h : execDsetdict k b s = .next t) : t.mem = s.mem := by
  refine onDeflate_mem (fun r d => ?_) h
  split
  · rfl
  · rw [DRun.done_mem, loadDictionary_mem, DRun.start_mem]

theorem execIundermine_mem {k b : BitVec 8} {s t : State} (h : execIundermine k b s = .next t) : t.mem = s.mem := by
  refine onInflate_mem (fun r i => ?_) h
  split <;> rfl

/-! ### What a command sees (20_memory R102; 70 R690) -/

/-- Two machines that a command on context `k` cannot tell apart. -/
structure SameView (k : Nat) (s s' : State) : Prop where
  params : s.params = s'.params
  arg0 : s.arg0 = s'.arg0
  arg1 : s.arg1 = s'.arg1
  arg2 : s.arg2 = s'.arg2
  arg3 : s.arg3 = s'.arg3
  mem : s.mem = s'.mem
  count : s.ctxs.length = s'.ctxs.length
  ctx : s.ctx k = s'.ctx k

/-- Two machines that show the same end of a command on context `k`. -/
structure SameEnd (k : Nat) (t t' : State) : Prop where
  result : t.result = t'.result
  mem : t.mem = t'.mem
  ctx : t.ctx k = t'.ctx k

/-- What context `k` reads as after it is replaced depends on what it held before only when it is none of the machine's. -/
theorem State.ctx_finish {s : State} {k : Nat} (r : Done) :
    (s.finish k r).ctx k = if k < s.ctxs.length then { regs := r.regs, slot := r.slot } else s.ctx k := by
  split
  · exact State.ctx_finish_same r ‹_›
  · rename_i hk
    rw [State.ctx, State.finish_ctxs, List.set_eq_of_length_le (Nat.le_of_not_lt hk), State.ctx]

section
variable {k b : BitVec 8} {s s' t t' : State} (v : SameView k.toNat s s')
include v

theorem SameView.setResult (st : Status) : SameEnd k.toNat (s.setResult st) (s'.setResult st) := ⟨rfl, v.mem, v.ctx⟩

theorem SameView.finish (r : Done) : SameEnd k.toNat (s.finish k.toNat r) (s'.finish k.toNat r) where
  result := rfl
  mem := rfl
  ctx := by rw [State.ctx_finish, State.ctx_finish, v.count, v.ctx]

theorem onContext_sameEnd {f f' : State → State} (hf : SameEnd k.toNat (f s) (f' s')) (h : onContext k s f = .next t)
    (h' : onContext k s' f' = .next t') : SameEnd k.toNat t t' := by
  have h := onContext_cases h
  rw [v.params] at h
  obtain ⟨hk, rfl⟩ | ⟨hk, rfl⟩ := h <;> obtain ⟨hk', rfl⟩ | ⟨hk', rfl⟩ := onContext_cases h'
  · exact hf
  · exact absurd hk (Nat.not_lt.mpr hk')
  · exact absurd hk' (Nat.not_lt.mpr hk)
  · exact v.setResult _

/-- The KIND check sees the command's own slot alone, so a rule that sees no more gives the same end. -/
theorem onDeflate_sameEnd {f f' : Regs → DState → Done} (hf : f = f') (h : onDeflate k s f = .next t)
    (h' : onDeflate k s' f' = .next t') : SameEnd k.toNat t t' := by
  refine onContext_sameEnd v ?_ h h'
  rw [hf, v.ctx]
  split
  · exact v.finish _
  · exact v.setResult _
  · exact v.setResult _

theorem onInflate_sameEnd {f f' : Regs → IState → Done} (hf : f = f') (h : onInflate k s f = .next t)
    (h' : onInflate k s' f' = .next t') : SameEnd k.toNat t t' := by
  refine onContext_sameEnd v ?_ h h'
  rw [hf, v.ctx]
  split
  · exact v.finish _
  · exact v.setResult _
  · exact v.setResult _

theorem SameView.start : DRun.start s = DRun.start s' := by
  funext r d
  rw [DRun.start, DRun.start, v.params, v.mem]

theorem SameView.refuse : refuseDeflate s = refuseDeflate s' := by
  funext st r d
  rw [refuseDeflate, refuseDeflate, v.start]

theorem execDinit_sameEnd (h : execDinit k b s = .next t) (h' : execDinit k b s' = .next t') : SameEnd k.toNat t t' := by
  refine onContext_sameEnd v ?_ h h'
  rw [v.arg0, v.arg1, v.arg2, v.arg3, v.ctx, v.mem]
  split
  · exact v.setResult _
  · exact v.finish _

theorem execIinit_sameEnd (h : execIinit k b s = .next t) (h' : execIinit k b s' = .next t') : SameEnd k.toNat t t' := by
  refine onContext_sameEnd v ?_ h h'
  rw [v.arg0, v.ctx, v.mem]
  split
  · exact v.setResult _
  · exact v.finish _

end

/-! ### The obligations -/

/-- Settles O10: the CSR space answers 0 there, and a write leaves it as it is; neither offset is CMD's. -/
theorem unmappedCsr : Obligations.UnmappedCsr := by
  unfold Obligations.UnmappedCsr
  intro s off rest
  refine ⟨fun hin hoff => ?read, fun v hin hoff => ?write⟩
  case read => rw [step_of_csrRead hin, State.csrRead_unmapped hoff]
  case write =>
    have notCmd : off ≠ 0 := by
      rintro rfl
      simp at hoff
    rw [step_of_csrWrite hin notCmd, State.csrWrite_ignored (s := { s with inputs := rest }) hoff]

/-- Settles O14: each command through the frame of the operation that ends it. -/
theorem commandsTouchOneContext : Obligations.CommandsTouchOneContext := by
  unfold Obligations.CommandsTouchOneContext
  intro k b s t
  refine ⟨?_, execIcopy_frame⟩
  simp only [List.forall_mem_cons, exec]
  refine ⟨?dinit, ?dproc, ?dsetdict, ?dreset, ?dparams, ?dend, ?iinit, ?iproc, ?isetdict, ?ireset, ?isync, ?iundermine, ?iend,
    List.forall_mem_nil _⟩
  case dinit => exact fun h => (execDinit_frame h).imp_right fun m _ _ _ => m
  case iinit => exact fun h => (execIinit_frame h).imp_right fun m _ _ _ => m
  case dproc => exact fun h => ⟨onDeflate_onlyCtx h, fun ne => absurd rfl ne⟩
  case dparams => exact fun h => ⟨onDeflate_onlyCtx h, fun _ ne => absurd rfl ne⟩
  case iproc => exact fun h => ⟨onInflate_onlyCtx h, fun _ _ ne => absurd rfl ne⟩
  case dsetdict => exact fun h => ⟨onDeflate_onlyCtx h, fun _ _ _ => execDsetdict_mem h⟩
  case iundermine => exact fun h => ⟨onInflate_onlyCtx h, fun _ _ _ => execIundermine_mem h⟩
  case dreset | dend => exact fun h => ⟨onDeflate_onlyCtx h, fun _ _ _ => onDeflate_mem (fun _ _ => rfl) h⟩
  case isetdict | ireset | isync | iend =>
    exact fun h => ⟨onInflate_onlyCtx h, fun _ _ _ => onInflate_mem (fun _ _ => rfl) h⟩

/-- Settles O15: each command's rule is one function of the view, and its end is that of the rule. -/
theorem commandsSeeOneContext : Obligations.CommandsSeeOneContext := by
  unfold Obligations.CommandsSeeOneContext
  intro k b s s' t t' params arg0 arg1 arg2 arg3 mem count ctx i hi h h'
  have v : SameView k.toNat s s' := ⟨params, arg0, arg1, arg2, arg3, mem, count, ctx⟩
  suffices SameEnd k.toNat t t' from ⟨this.result, this.mem, this.ctx⟩
  revert i
  simp only [List.forall_mem_cons, exec]
  refine ⟨?dinit, ?dproc, ?dsetdict, ?dreset, ?dparams, ?dend, ?iinit, ?iproc, ?isetdict, ?ireset, ?isync, ?iundermine, ?iend,
    List.forall_mem_nil _⟩
  case dinit => exact execDinit_sameEnd v
  case iinit => exact execIinit_sameEnd v
  case dproc => exact onDeflate_sameEnd v (by rw [v.start])
  case dsetdict => exact onDeflate_sameEnd v (by rw [v.arg0, v.arg1, v.start, v.refuse])
  case dparams => exact onDeflate_sameEnd v (by rw [v.arg0, v.arg1, v.start, v.refuse])
  case dreset | dend => exact onDeflate_sameEnd v (by rw [v.mem])
  case iproc | isync | iundermine => exact onInflate_sameEnd v (by rw [v.params, v.mem])
  case isetdict => exact onInflate_sameEnd v (by rw [v.arg0, v.arg1, v.mem])
  case ireset | iend => exact onInflate_sameEnd v (by rw [v.mem])

/-- Settles O17: each byte is read back where no later one was written; the rest is the frame of MemWrite. -/
theorem memWriteThenRead : Obligations.MemWriteThenRead := by
  unfold Obligations.MemWriteThenRead
  intro m a vs hwf hlen
  exact ⟨Memory.writeN_wf hwf, Memory.readN_writeN hwf hlen, fun _ hout => Memory.read_writeN_outside hwf hout,
    fun n i hi => Memory.getElem?_readN m a hi⟩

end Sys2Proof.Machine
end

section
/-! PROOFS. The run-length match (41_match_finder R213): its loop finds where the run of a byte ends. -/

namespace Sys2Proof.Machine

/-! ### The loop of RLE_MATCH -/

/-- The loop stops between where it starts and its bound. -/
theorem byteRun_bounds (window : Ram 16 Byte) (p : Byte) (s fuel k : Nat) :
    k ≤ byteRun window p s fuel k ∧ byteRun window p s fuel k ≤ k + fuel := by
  induction fuel generalizing k with
  | zero => exact ⟨Nat.le_refl k, Nat.le_refl k⟩
  | succ fuel ih =>
    rw [byteRun]
    split
    · have := ih (k + 1)
      omega
    · omega

/-- Every byte the loop passes is `p`. -/
theorem get_of_lt_byteRun {window : Ram 16 Byte} {p : Byte} {s fuel k j : Nat} (hk : k ≤ j)
    (hj : j < byteRun window p s fuel k) : window.get (s + j) = p := by
  induction fuel generalizing k with
  | zero => exact absurd hj (Nat.not_lt.mpr hk)
  | succ fuel ih =>
    rw [byteRun] at hj
    split at hj
    next same =>
      obtain rfl | past := Nat.eq_or_lt_of_le hk
      · exact same
      · exact ih past hj
    next => exact absurd hj (Nat.not_lt.mpr hk)

/-- A loop that stops before its bound stops at a byte that is not `p`. -/
theorem get_byteRun_ne {window : Ram 16 Byte} {p : Byte} {s fuel k : Nat} (h : byteRun window p s fuel k < k + fuel) :
    window.get (s + byteRun window p s fuel k) ≠ p := by
  induction fuel generalizing k with
  | zero => exact absurd h (Nat.lt_irrefl k)
  | succ fuel ih =>
    rw [byteRun] at h ⊢
    split
    next same =>
      rw [if_pos same] at h
      exact ih (by omega)
    next other => exact other

/-! ### RLE_MATCH -/

/-- RLE_MATCH's test of three bytes, as one test of every index below MIN_MATCH. -/
theorem rleMatch_eq (d : DState) :
    rleMatch d = if ∀ j < 3, d.window.get (d.strstart + j) = d.window.get (d.strstart - 1) then
      min (byteRun d.window (d.window.get (d.strstart - 1)) d.strstart (maxMatch - 3) 3) d.lookahead else 0 := by
  simp only [rleMatch, Nat.forall_lt_succ_left, Nat.not_lt_zero, false_implies, implies_true, and_true, Nat.add_zero,
    Nat.zero_add]

/-- Settles O22: three equal bytes start the loop, which ends at the run's first other byte or at MAX_MATCH. -/
theorem rleMatchIsTheRun : Obligations.RleMatchIsTheRun := by
  unfold Obligations.RleMatchIsTheRun
  intro d ahead _
  dsimp only
  rw [rleMatch_eq]
  generalize d.window.get (d.strstart - 1) = p
  obtain ⟨lower, upper⟩ := byteRun_bounds d.window p d.strstart (maxMatch - 3) 3
  simp only [minMatch] at ahead
  simp only [minMatch, maxMatch] at lower upper ⊢
  split
  next start =>
    refine ⟨fun hzero => by omega, fun _ => ⟨by omega, by omega, by omega, fun j hj => ?_, fun short inside => ?_⟩⟩
    · obtain early | late := Nat.lt_or_ge j 3
      · exact start j early
      · exact get_of_lt_byteRun late (Nat.lt_of_lt_of_le hj (Nat.min_le_left ..))
    · rw [Nat.min_eq_left (by omega)] at short ⊢
      exact get_byteRun_ne short
  next noRun =>
    exact ⟨fun _ => by simpa using noRun, fun h => absurd rfl h⟩

end Sys2Proof.Machine
end

section
/-! PROOFS. The run-length coding of code lengths (42_huffman_encoder R257, R258): a decoder of 30 R152 reads each run
back. -/

namespace Sys2Proof.Machine

/-! ### What a decoder reads from a sequence of symbols -/

/-- The symbol and the extra value fit their fields (30 R152). -/
def RunItem.Fits (r : RunItem) : Prop :=
  r.sym ≤ 18 ∧ r.extra < 2 ^ r.extraLen ∧ r.extraLen = tableAt extraBlbits r.sym

/-- The three tests on an item written out. -/
theorem RunItem.fits_mk {sym extra extraLen : Nat} (hsym : sym ≤ 18) (hextra : extra < 2 ^ extraLen)
    (hlen : extraLen = tableAt extraBlbits sym) : RunItem.Fits { sym, extra, extraLen } := ⟨hsym, hextra, hlen⟩

/-- The items fit their fields, and a decoder that has the lengths `got` goes on to `out`. -/
def ReadsTo (items : List RunItem) (got out : List Nat) : Prop :=
  expandItems items got = some out ∧ ∀ r ∈ items, r.Fits

/-- Nothing is read from no items. -/
theorem ReadsTo.nil (got : List Nat) : ReadsTo [] got got := ⟨rfl, by simp⟩

/-- One item is read first, then the others. -/
theorem ReadsTo.cons {r : RunItem} {items : List RunItem} {got mid out : List Nat} (fits : r.Fits)
    (hr : expandItem got r = some mid) (h : ReadsTo items mid out) : ReadsTo (r :: items) got out :=
  ⟨by rw [expandItems, hr]; exact h.1, List.forall_mem_cons.mpr ⟨fits, h.2⟩⟩

/-- Two sequences are read one after the other. -/
theorem ReadsTo.append {items items' : List RunItem} {got mid out : List Nat} (h : ReadsTo items got mid)
    (h' : ReadsTo items' mid out) : ReadsTo (items ++ items') got out := by
  induction items generalizing got with
  | nil =>
    obtain rfl : got = mid := Option.some.inj h.1
    exact h'
  | cons r items ih =>
    obtain ⟨reads, fits⟩ := h
    obtain ⟨now, hr, hrest⟩ := Option.bind_eq_some_iff.mp reads
    obtain ⟨hfit, hfits⟩ := List.forall_mem_cons.mp fits
    exact .cons hfit hr (ih ⟨hrest, hfits⟩)

/-! ### The symbols of one run -/

/-- `n` literal lengths (symbols 0 to 15). -/
theorem readsTo_literals {l : Nat} (hl : l ≤ 15) (n : Nat) (got : List Nat) :
    ReadsTo (List.replicate n { sym := l, extra := 0, extraLen := 0 }) got (got ++ List.replicate n l) := by
  have noExtra : ∀ k ≤ 15, 0 = tableAt extraBlbits k := by decide
  induction n generalizing got with
  | zero => simpa using ReadsTo.nil got
  | succ n ih =>
    have step : expandItem got { sym := l, extra := 0, extraLen := 0 } = some (got ++ [l]) :=
      if_pos (Nat.lt_succ_of_le hl)
    have rest := ih (got ++ [l])
    rw [List.append_assoc, List.singleton_append, ← List.replicate_succ] at rest
    exact .cons (RunItem.fits_mk (by omega) (by decide) (noExtra l hl)) step rest

/-- Symbol 16 repeats the length before it 3 to 6 times. -/
theorem readsTo_repeat {got : List Nat} {l n : Nat} (hlast : got.getLast? = some l) (hlo : 3 ≤ n) (hhi : n ≤ 6) :
    ReadsTo [{ sym := 16, extra := n - 3, extraLen := 2 }] got (got ++ List.replicate n l) := by
  refine .cons (RunItem.fits_mk (by decide) (by omega) (by decide)) ?_ (.nil _)
  simp [expandItem, hlast, Nat.add_sub_cancel' hlo]

/-- Symbol 17 stands for 3 to 10 zeros. -/
theorem readsTo_zerosShort (got : List Nat) {n : Nat} (hlo : 3 ≤ n) (hhi : n ≤ 10) :
    ReadsTo [{ sym := 17, extra := n - 3, extraLen := 3 }] got (got ++ List.replicate n 0) := by
  refine .cons (RunItem.fits_mk (by decide) (by omega) (by decide)) ?_ (.nil _)
  simp [expandItem, Nat.add_sub_cancel' hlo]

/-- Symbol 18 stands for 11 to 138 zeros. -/
theorem readsTo_zerosLong (got : List Nat) {n : Nat} (hlo : 11 ≤ n) (hhi : n ≤ 138) :
    ReadsTo [{ sym := 18, extra := n - 11, extraLen := 7 }] got (got ++ List.replicate n 0) := by
  refine .cons (RunItem.fits_mk (by decide) (by omega) (by decide)) ?_ (.nil _)
  simp [expandItem, Nat.add_sub_cancel' hlo]

/-- The longest and the shortest run of `curlen` after a run of `prevlen` that is coded as one (R257). -/
def runLimits (prevlen : Int) (curlen : Nat) : Nat × Nat :=
  if curlen = 0 then (138, 3) else if prevlen = curlen then (6, 3) else (7, 4)

/-- A run within its limits is read back, when the run before it is the last the decoder has read. -/
theorem readsTo_runItems {got : List Nat} {prevlen : Int} {curlen count : Nat} (hcur : curlen ≤ 15)
    (hprev : ∀ l : Nat, prevlen = l → got.getLast? = some l) (hmax : count ≤ (runLimits prevlen curlen).1) :
    ReadsTo (runItems curlen count prevlen (runLimits prevlen curlen).2) got (got ++ List.replicate count curlen) := by
  rw [runItems]
  split
  next => exact readsTo_literals hcur count got
  next long =>
    split
    next nonzero =>
      rw [runLimits, if_neg nonzero] at hmax long
      split
      next other =>
        rw [if_neg (Ne.symm other)] at hmax long
        have first := readsTo_literals hcur 1 got
        have again : ReadsTo [{ sym := 16, extra := count - 1 - 3, extraLen := 2 }] (got ++ [curlen])
            (got ++ [curlen] ++ List.replicate (count - 1) curlen) :=
          readsTo_repeat List.getLast?_concat (by omega) (by omega)
        rw [List.append_assoc, List.singleton_append, ← List.replicate_succ, Nat.sub_add_cancel (by omega)] at again
        exact first.append again
      next same =>
        have same : prevlen = curlen := (Decidable.not_not.mp same).symm
        rw [if_pos same] at hmax long
        exact readsTo_repeat (hprev curlen same) (by omega) hmax
    next zero =>
      obtain rfl : curlen = 0 := Decidable.not_not.mp zero
      rw [runLimits, if_pos rfl] at hmax long
      split
      next short => exact readsTo_zerosShort got (by omega) short
      next => exact readsTo_zerosLong got (by omega) hmax

/-! ### The runs of a list -/

/-- A run ends at its longest, or before another length; the next one has the limits of the length after it. -/
theorem codeRuns_cons (curlen : Nat) (rest : List Nat) (prevlen : Int) (count : Nat) (limits : Nat × Nat) :
    codeRuns (curlen :: rest) prevlen count limits =
      if count + 1 < limits.1 ∧ curlen = rest.headD 0xFFFF then codeRuns rest prevlen (count + 1) limits
      else
        runItems curlen (count + 1) prevlen limits.2 ++
          codeRuns rest curlen 0 (runLimits curlen (rest.headD 0xFFFF)) := by
  simp only [codeRuns, runLimits, Int.natCast_inj]

/-- A new run starts within its limits. -/
theorem runLimits_pos (prevlen : Int) (curlen : Nat) : 0 < (runLimits prevlen curlen).1 := by
  rw [runLimits]
  split
  · decide
  · split <;> decide

/-- With `count` lengths equal to the next one counted but not yet coded, a decoder reads those and all that follow. -/
theorem readsTo_codeRuns {curlen : Nat} {rest : List Nat} (hlens : ∀ l ∈ curlen :: rest, l ≤ 15) {prevlen : Int}
    {count : Nat} {got : List Nat} (hprev : ∀ l : Nat, prevlen = l → got.getLast? = some l)
    (hcount : count < (runLimits prevlen curlen).1) :
    ReadsTo (codeRuns (curlen :: rest) prevlen count (runLimits prevlen curlen)) got
      (got ++ List.replicate count curlen ++ curlen :: rest) := by
  induction rest generalizing curlen prevlen count got with
  | nil =>
    obtain ⟨hcur, -⟩ := List.forall_mem_cons.mp hlens
    rw [codeRuns_cons, if_neg (fun h => absurd h.2 (by rw [List.headD_nil]; omega)), codeRuns, List.append_nil,
      List.append_assoc, ← List.replicate_succ']
    exact readsTo_runItems hcur hprev hcount
  | cons nextlen rest ih =>
    obtain ⟨hcur, hrest⟩ := List.forall_mem_cons.mp hlens
    have shift : got ++ List.replicate count curlen ++ curlen :: nextlen :: rest =
        got ++ List.replicate (count + 1) curlen ++ nextlen :: rest := by
      simp [List.replicate_succ']
    rw [codeRuns_cons, shift, List.headD_cons]
    split
    next goesOn =>
      obtain ⟨room, rfl⟩ := goesOn
      exact ih hrest hprev room
    next =>
      have run := readsTo_runItems hcur hprev hcount
      have hlast (l : Nat) (hl : (curlen : Int) = l) :
          (got ++ List.replicate (count + 1) curlen).getLast? = some l := by
        rw [List.replicate_succ', ← List.append_assoc, List.getLast?_concat, Int.natCast_inj.mp hl]
      have others := ih hrest hlast (runLimits_pos curlen nextlen)
      rw [List.replicate_zero, List.append_nil] at others
      exact run.append others

/-- Settles O23: no run comes before the first, so its limits are those of a length that differs from the one before. -/
theorem codeRunsExpandToTheLengths : Obligations.CodeRunsExpandToTheLengths := by
  unfold Obligations.CodeRunsExpandToTheLengths
  intro lens hlens
  cases lens with
  | nil => exact ReadsTo.nil []
  | cons curlen rest =>
    have noRun (l : Nat) : (-1 : Int) ≠ l := by omega
    have first : runLimits (-1) curlen = if curlen = 0 then (138, 3) else (7, 4) := by
      rw [runLimits, if_neg (noRun curlen)]
    rw [List.headD_cons, ← first]
    exact readsTo_codeRuns hlens (fun l hl => absurd hl (noRun l)) (runLimits_pos (-1) curlen)

end Sys2Proof.Machine
end

section
/-! PROOFS. The bit writer (43_bit_writer R320 to R324): what each of its operations does to the bit stream of R322. -/

namespace Sys2Proof.Machine

/-! ### Low bits -/

theorem lowBits_add (m n v : Nat) : lowBits (m + n) v = lowBits m v ++ lowBits n (v / 2 ^ m) := by
  induction m generalizing v with
  | zero => simp [lowBits]
  | succ m ih =>
    have halves : v / 2 ^ (m + 1) = v / 2 / 2 ^ m := by rw [Nat.pow_succ', Nat.div_div_eq_div_mul]
    rw [Nat.add_right_comm, lowBits, ih, lowBits, halves, List.cons_append]

theorem lowBits_mod (n v : Nat) : lowBits n (v % 2 ^ n) = lowBits n v := by
  induction n generalizing v with
  | zero => rfl
  | succ n ih =>
    have parity : v % 2 ^ (n + 1) % 2 = v % 2 := Nat.mod_mod_of_dvd v ⟨2 ^ n, Nat.pow_succ'⟩
    have half : v % 2 ^ (n + 1) / 2 = v / 2 % 2 ^ n := by rw [Nat.pow_succ', Nat.mod_mul_right_div_self]
    rw [lowBits, parity, half, ih, lowBits]

/-- `lowBits_mod` for a byte, in the form in which `simp` leaves it. -/
theorem lowBits_mod_byte (v : Nat) : lowBits 8 (v % 256) = lowBits 8 v := lowBits_mod 8 v

theorem lowBits_zero_right (n : Nat) : lowBits n 0 = List.replicate n false := by
  induction n with
  | zero => rfl
  | succ n ih => rw [lowBits, Nat.zero_div, ih]; rfl

/-- Above the bits of a value stand zeros. -/
theorem lowBits_of_lt {m v : Nat} (n : Nat) (hv : v < 2 ^ m) :
    lowBits (m + n) v = lowBits m v ++ List.replicate n false := by
  rw [lowBits_add, Nat.div_eq_of_lt hv, lowBits_zero_right]

/-- Bits sent one after the other are the bits of one number. -/
theorem lowBits_append {m a : Nat} (n b : Nat) (ha : a < 2 ^ m) :
    lowBits m a ++ lowBits n b = lowBits (m + n) (a + 2 ^ m * b) := by
  rw [lowBits_add, Nat.add_mul_div_left _ _ (Nat.two_pow_pos m), Nat.div_eq_of_lt ha, Nat.zero_add,
    ← lowBits_mod m (a + _), Nat.add_mul_mod_self_left, Nat.mod_eq_of_lt ha]

namespace BitWriter

/-! ### Pending bytes -/

/-- The bits of the pending bytes: the stream without the buffer's bits. -/
def pendingBits (w : BitWriter) : List Bool := w.pending.flatMap fun b => lowBits 8 b.toNat

theorem stream_eq (w : BitWriter) : w.stream = w.pendingBits ++ lowBits w.biValid w.biBuf.toNat := rfl

theorem pendingBits_putByte (w : BitWriter) (v : BitVec 16) :
    (w.putByte (v.setWidth 8)).pendingBits = w.pendingBits ++ lowBits 8 v.toNat := by
  simp [pendingBits, putByte, putBytes, lowBits_mod_byte]

/-- PUT_SHORT is little-endian, so its 16 bits go out in the order of the stream. -/
theorem pendingBits_putShort (w : BitWriter) (v : BitVec 16) :
    (w.putShort v).pendingBits = w.pendingBits ++ lowBits 16 v.toNat := by
  rw [lowBits_add 8 8]
  simp [pendingBits, putShort, putBytes, lowBits_mod_byte, Nat.shiftRight_eq_div_pow]

/-- A PUT_SHORT that leaves `n` bits `b` in the buffer. -/
theorem stream_of_putShort (w : BitWriter) (v b : BitVec 16) (n : Nat) :
    { w.putShort v with biBuf := b, biValid := n }.stream =
      w.pendingBits ++ (lowBits 16 v.toNat ++ lowBits n b.toNat) := by
  rw [← List.append_assoc, ← pendingBits_putShort]; rfl

/-- A PUT_BYTE of a buffer's low byte that leaves `n` bits `b` in the buffer. -/
theorem stream_of_putByte (w : BitWriter) (v b : BitVec 16) (n : Nat) :
    { w.putByte (v.setWidth 8) with biBuf := b, biValid := n }.stream =
      w.pendingBits ++ (lowBits 8 v.toNat ++ lowBits n b.toNat) := by
  rw [← List.append_assoc, ← pendingBits_putByte]; rfl

/-! ### SEND_BITS (R321) -/

/-- The buffer joined with a value above its valid bits, as an unbounded number. -/
def joined (w : BitWriter) (value : Nat) : Nat := w.biBuf.toNat + 2 ^ w.biValid * value

theorem stream_append {w : BitWriter} (hw : w.BufOk) (length value : Nat) :
    w.stream ++ lowBits length value = w.pendingBits ++ lowBits (w.biValid + length) (w.joined value) := by
  rw [stream_eq, List.append_assoc, lowBits_append _ _ hw.2, joined]

theorem joined_lt {w : BitWriter} (hw : w.BufOk) {length value : Nat} (hv : value < 2 ^ length) :
    w.joined value < 2 ^ (w.biValid + length) := by
  obtain ⟨-, hbuf⟩ := hw
  calc w.joined value < 2 ^ w.biValid * (value + 1) := by rw [joined, Nat.mul_succ]; omega
    _ ≤ 2 ^ w.biValid * 2 ^ length := Nat.mul_le_mul_left _ hv
    _ = 2 ^ (w.biValid + length) := (Nat.pow_add ..).symm

/-- SEND_BITS's new buffer is the joined number without what does not fit in 16 bits. -/
theorem toNat_or_shiftLeft {w : BitWriter} (hw : w.BufOk) (value : Nat) :
    (w.biBuf ||| BitVec.ofNat 16 value <<< w.biValid).toNat = w.joined value % 2 ^ 16 := by
  have disjoint : w.joined value = w.biBuf.toNat ||| value <<< w.biValid := by
    rw [Nat.or_comm, ← Nat.shiftLeft_add_eq_or_of_lt hw.2, Nat.shiftLeft_eq, joined, Nat.add_comm, Nat.mul_comm]
  rw [disjoint, Nat.or_mod_two_pow, Nat.mod_eq_of_lt w.biBuf.isLt, BitVec.toNat_or, BitVec.toNat_shiftLeft,
    BitVec.toNat_ofNat, Nat.shiftLeft_eq, Nat.shiftLeft_eq, Nat.mod_mul_mod]

/-- What SEND_BITS keeps of the value when the buffer overflows is what the joined number has above 16 bits. -/
theorem toNat_shiftRight {w : BitWriter} (hw : w.BufOk) {value : Nat} (hv : value < 2 ^ 16) :
    (BitVec.ofNat 16 value >>> (16 - w.biValid)).toNat = w.joined value / 2 ^ 16 := by
  obtain ⟨hvalid, hbuf⟩ := hw
  have word : 2 ^ 16 = 2 ^ w.biValid * 2 ^ (16 - w.biValid) := by rw [← Nat.pow_add, Nat.add_sub_cancel' hvalid]
  rw [word, ← Nat.div_div_eq_div_mul, joined, Nat.add_mul_div_left _ _ (Nat.two_pow_pos _), Nat.div_eq_of_lt hbuf,
    Nat.zero_add, BitVec.toNat_ushiftRight, BitVec.toNat_ofNat, Nat.mod_eq_of_lt hv, Nat.shiftRight_eq_div_pow]

/-- The bits held and the bits sent are those of one number; SEND_BITS puts its 16 low bits out when it has more. -/
theorem sendBits_appends {w : BitWriter} (hw : w.BufOk) {value length : Nat} (hlen : length ≤ 16)
    (hv : value < 2 ^ length) :
    (w.sendBits value length).BufOk ∧ (w.sendBits value length).stream = w.stream ++ lowBits length value := by
  have hlt := joined_lt hw hv
  have buf := toNat_or_shiftLeft hw value
  rw [stream_append hw, sendBits]
  dsimp only
  split
  next full =>
    have rest := toNat_shiftRight hw (Nat.lt_of_lt_of_le hv (Nat.pow_le_pow_right Nat.two_pos hlen))
    have size : w.biValid + length = 16 + (w.biValid + length - 16) := by omega
    refine ⟨⟨?_, ?_⟩, ?_⟩
    · obtain ⟨hvalid, -⟩ := hw
      dsimp only
      omega
    · dsimp only
      rw [rest]
      rw [size, Nat.pow_add] at hlt
      exact Nat.div_lt_of_lt_mul hlt
    · rw [stream_of_putShort, buf, rest, lowBits_mod, ← lowBits_add, ← size]
  next room =>
    have fits : w.biValid + length ≤ 16 := Nat.le_of_not_lt room
    rw [Nat.mod_eq_of_lt (Nat.lt_of_lt_of_le hlt (Nat.pow_le_pow_right Nat.two_pos fits))] at buf
    refine ⟨⟨fits, ?_⟩, ?_⟩
    · rw [buf]; exact hlt
    · rw [stream_eq, buf]; rfl

/-! ### BI_FLUSH and BI_WINDUP (R323, R324) -/

theorem biFlush_keeps {w : BitWriter} (hw : w.BufOk) :
    w.biFlush.stream = w.stream ∧ w.biFlush.biValid ≤ 7 ∧ w.biFlush.BufOk := by
  obtain ⟨hvalid, hbuf⟩ := hw
  rw [biFlush]
  split
  next full =>
    refine ⟨?_, Nat.zero_le _, Nat.zero_le _, Nat.one_pos⟩
    rw [stream_of_putShort, stream_eq, full, lowBits, List.append_nil]
  split
  next byte =>
    have size : w.biValid = 8 + (w.biValid - 8) := by omega
    have rest : (w.biBuf >>> 8).toNat = w.biBuf.toNat / 2 ^ 8 := by
      rw [BitVec.toNat_ushiftRight, Nat.shiftRight_eq_div_pow]
    refine ⟨?_, by dsimp only; omega, by dsimp only; omega, ?_⟩
    · rw [stream_of_putByte, rest, ← lowBits_add, ← size, stream_eq]
    · dsimp only
      rw [rest]
      rw [size, Nat.pow_add] at hbuf
      exact Nat.div_lt_of_lt_mul hbuf
  next few => exact ⟨rfl, by omega, hvalid, hbuf⟩

theorem stream_biWindup {w : BitWriter} (hw : w.BufOk) :
    w.biWindup.stream = w.stream ++ List.replicate ((8 - w.biValid % 8) % 8) false := by
  obtain ⟨hvalid, hbuf⟩ := hw
  rw [stream_eq w, List.append_assoc, ← lowBits_of_lt _ hbuf, biWindup]
  split
  next =>
    have size : w.biValid + (8 - w.biValid % 8) % 8 = 16 := by omega
    rw [stream_of_putShort, size, lowBits, List.append_nil]
  split
  next =>
    have size : w.biValid + (8 - w.biValid % 8) % 8 = 8 := by omega
    rw [stream_of_putByte, size, lowBits, List.append_nil]
  next =>
    have size : w.biValid + (8 - w.biValid % 8) % 8 = 0 := by omega
    rw [size]; rfl

end BitWriter

/-! ### The statements -/

/-- Settles O19: the bits held and the bits sent are those of one number. -/
theorem sendBitsAppends : Obligations.SendBitsAppends := by
  unfold Obligations.SendBitsAppends
  intro w value length hw _ hlen hv
  exact BitWriter.sendBits_appends hw hlen hv

/-- Settles O20: BI_FLUSH moves the buffer's low bytes; BI_WINDUP moves them with the zeros above the valid bits. -/
theorem biFlushAndBiWindup : Obligations.BiFlushAndBiWindup := by
  unfold Obligations.BiFlushAndBiWindup
  intro w hw
  exact ⟨BitWriter.biFlush_keeps hw, rfl, rfl, BitWriter.stream_biWindup hw⟩

end Sys2Proof.Machine
end

section
/-! PROOFS. The wire elements (log entry 5; 45_bit_reader R431): each acts on one I-engine, and none of the steps it can
reach writes host memory. -/

namespace Sys2Proof.Machine

namespace IRun

/-! ### The bit reader only reads host memory (45 R433, R439) -/

theorem needBits_mem {n : Nat} {x : IRun} {k : IRun → Ctl × IRun} (hk : ∀ y, (k y).2.mem = y.mem) :
    (x.needBits n k).2.mem = x.mem := by
  have pulled := (pulled_fillBits n 4 x).mem
  rw [needBits]
  split
  next y hy => rw [hk, ← pulled, hy]
  next y hy => rw [← pulled, hy]

theorem findEntry_mem {see : IRun → Entry} {extra : Nat} {x : IRun} {k : Entry → IRun → Ctl × IRun}
    (hk : ∀ e y, (k e y).2.mem = y.mem) : (x.findEntry see extra k).2.mem = x.mem := by
  have pulled := (pulled_lookupLoop see extra (x.avail + 1) x).mem
  rw [findEntry]
  split
  next e y hy => rw [hk, ← pulled, hy]
  next y hy => rw [← pulled, hy]

/-! ### The stream's header and trailer, and the block headers (47 R510 to R515, R528) -/

theorem readHeader_mem (x : IRun) : x.readHeader.mem = x.mem := by
  rw [readHeader]
  split
  · rfl
  split
  · rfl
  dsimp only
  split <;> split <;> rfl

theorem headStep_mem (x : IRun) : x.headStep.2.mem = x.mem := by
  rw [headStep]
  split
  · rfl
  · exact needBits_mem readHeader_mem

theorem dictStep_mem (x : IRun) : x.dictStep.2.mem = x.mem := by
  rw [dictStep]
  split <;> rfl

theorem typeStep_mem (x : IRun) : x.typeStep.2.mem = x.mem := by
  rw [typeStep]
  split <;> rfl

theorem blockType_mem (x : IRun) : x.blockType.2.mem = x.mem := by
  rw [blockType]
  split <;> rfl

theorem typeDoStep_mem (x : IRun) : x.typeDoStep.2.mem = x.mem := by
  rw [typeDoStep]
  split
  · rfl
  · exact needBits_mem fun _ => blockType_mem _

theorem storedStep_mem (x : IRun) : x.storedStep.2.mem = x.mem :=
  needBits_mem (x := x.byteBits) fun y => by
    dsimp only
    split <;> rfl

theorem tableStep_mem (x : IRun) : x.tableStep.2.mem = x.mem :=
  needBits_mem fun y => by
    dsimp only
    split <;> rfl

theorem checkOutput_mem (x : IRun) : x.checkOutput.mem = x.mem := by
  rw [checkOutput]
  dsimp only
  split <;> rfl

theorem checkStep_mem (x : IRun) : x.checkStep.2.mem = x.mem := by
  rw [checkStep]
  split
  · rfl
  · refine needBits_mem fun y => ?_
    dsimp only
    split <;> exact checkOutput_mem y

/-! ### The code lengths (47 R515, R516) -/

theorem buildBlTable_mem (x : IRun) : x.buildBlTable.mem = x.mem := by
  rw [buildBlTable]
  dsimp only
  split <;> rfl

theorem lenLensStep_mem (x : IRun) : x.lenLensStep.2.mem = x.mem := by
  rw [lenLensStep]
  split
  · exact needBits_mem fun _ => rfl
  split
  · rfl
  · exact buildBlTable_mem x

theorem repeatLen_mem (len copy : Nat) (x : IRun) : (x.repeatLen len copy).mem = x.mem := by
  rw [repeatLen]
  split <;> rfl

theorem clEntry_mem (here : Entry) (x : IRun) : (x.clEntry here).2.mem = x.mem := by
  rw [clEntry]
  split
  · rfl
  split
  · refine needBits_mem fun y => ?_
    dsimp only
    split
    · rfl
    · exact repeatLen_mem ..
  split
  · exact needBits_mem fun _ => repeatLen_mem ..
  · exact needBits_mem fun _ => repeatLen_mem ..

theorem buildTables_mem (x : IRun) : x.buildTables.2.mem = x.mem := by
  rw [buildTables]
  split
  · rfl
  dsimp only
  split
  · rfl
  split <;> rfl

theorem codeLensStep_mem (x : IRun) : x.codeLensStep.2.mem = x.mem := by
  rw [codeLensStep]
  split
  · exact findEntry_mem clEntry_mem
  · exact buildTables_mem x

/-! ### Lengths and distances (47 R520 to R523) -/

theorem resolveLink_mem {k : Entry → IRun → Ctl × IRun} (hk : ∀ e y, (k e y).2.mem = y.mem) (isLink : Bool) (view : View)
    (here : Entry) (x : IRun) : (x.resolveLink isLink view here k).2.mem = x.mem := by
  rw [resolveLink]
  split
  · exact findEntry_mem fun _ _ => hk ..
  · exact hk ..

theorem lenAction_mem (here : Entry) (x : IRun) : (x.lenAction here).2.mem = x.mem := by
  rw [lenAction]
  split
  · rfl
  split
  · rfl
  split <;> rfl

theorem lenEntry_mem (here : Entry) (x : IRun) : (x.lenEntry here).2.mem = x.mem := resolveLink_mem lenAction_mem ..

theorem lenExtStep_mem (x : IRun) : x.lenExtStep.2.mem = x.mem := by
  rw [lenExtStep]
  split
  · rfl
  · exact needBits_mem fun _ => rfl

theorem distAction_mem (here : Entry) (x : IRun) : (x.distAction here).2.mem = x.mem := by
  rw [distAction]
  split <;> rfl

theorem distEntry_mem (here : Entry) (x : IRun) : (x.distEntry here).2.mem = x.mem := resolveLink_mem distAction_mem ..

theorem distExtStep_mem (x : IRun) : x.distExtStep.2.mem = x.mem := by
  rw [distExtStep]
  split
  · rfl
  · exact needBits_mem fun _ => rfl

/-! ### The step of a mode -/

/-- Of all the modes only COPY, MATCH and LIT write host memory (47 R514, R524, R525). -/
theorem iStep_mem {x : IRun} (hmode : x.i.mode ∉ [.COPY, .MATCH, .LIT]) : x.iStep.2.mem = x.mem := by
  rw [iStep]
  cases hm : x.i.mode with
  | COPY | MATCH | LIT => exact absurd (by rw [hm]; decide) hmode
  | HEAD => exact headStep_mem x
  | DICTID => exact needBits_mem fun _ => rfl
  | DICT => exact dictStep_mem x
  | TYPE => exact typeStep_mem x
  | TYPEDO => exact typeDoStep_mem x
  | STORED => exact storedStep_mem x
  | TABLE => exact tableStep_mem x
  | LENLENS => exact lenLensStep_mem x
  | CODELENS => exact codeLensStep_mem x
  | LEN => exact findEntry_mem lenEntry_mem
  | LENEXT => exact lenExtStep_mem x
  | DIST => exact findEntry_mem distEntry_mem
  | DISTEXT => exact distExtStep_mem x
  | CHECK => exact checkStep_mem x
  | COPY_ | LEN_ | LENGTH | DONE | BAD | MEM | SYNC | FLAGS | TIME | OS | EXLEN | EXTRA | NAME | COMMENT | HCRC => rfl

end IRun

/-! ### What an offered element does to host memory -/

/-- Where the bits are read is a mode that reads bits again. -/
theorem IState.settle_mode_mem_bitModes {i : IState} (h : i.mode ∈ bitModes) : i.settle.mode ∈ bitModes := by
  have typeDo : Mode.TYPEDO ∈ bitModes := by decide
  have len : Mode.LEN ∈ bitModes := by decide
  rw [settle]
  split
  · exact typeDo
  split
  · exact len
  split <;> exact h

theorem IRun.takeBits_mem {n v : Nat} {x : IRun} (h : x.i.readsBits n = true) : (x.takeBits n v).2.mem = x.mem := by
  have reads : x.i.mode ∈ bitModes := by
    simp only [IState.readsBits, Bool.and_eq_true, decide_eq_true_eq] at h
    exact h.1.1
  have noWrite : ∀ m ∈ bitModes, m ∉ [Mode.COPY, .MATCH, .LIT] := by decide
  exact IRun.iStep_mem (x := IRun.offerBits n v { x with i := x.i.settle })
    (noWrite _ (IState.settle_mode_mem_bitModes reads))

theorem IRun.takeEntry_mem (op bits val : Nat) (x : IRun) : (x.takeEntry op bits val).2.mem = x.mem := by
  rw [takeEntry]
  split
  · exact distEntry_mem ..
  split
  · exact clEntry_mem ..
  · exact lenEntry_mem ..

/-! ### The frame of an offer -/

/-- What a wire element offered to `s` may end with (log entry 5): Z_STREAM_ERROR and no other change, or a change of
context `cur` alone. -/
def ElementFrame (s : State) (o : Host.Outcome State Fault Refusal) : Prop :=
  o = .next (s.setResult .streamError) ∨ ∃ t, o = .next t ∧ OnlyCtx s.cur s t ∧ t.mem = s.mem ∧ t.result = s.result

theorem OnlyCtx.setCtx (k : Nat) (s : State) (m : Memory) (c : Ctx) : OnlyCtx k s ({ s with mem := m }.setCtx k c) where
  params := rfl
  args := ⟨rfl, rfl, rfl, rfl⟩
  inputs := rfl
  readData := rfl
  cur := rfl
  count := by simp
  others _ h := State.ctx_setCtx_ne c h

/-- An offer has the frame when its effect, where it is read, writes no host memory. -/
theorem onPlace_frame {reads : IState → Bool} {f : IRun → Ctl × IRun} (s : State)
    (hf : ∀ x : IRun, reads x.i = true → (f x).2.mem = x.mem) : ElementFrame s (onPlace reads f s) := by
  obtain refused | ⟨i, hi, hr⟩ := onPlace_cases reads f s
  · exact .inl refused
  · exact .inr ⟨_, onPlace_reads hi hr, OnlyCtx.setCtx .., hf _ hr, rfl⟩

theorem onBits_frame (n v : Nat) (s : State) : ElementFrame s (onBits n v s) :=
  onPlace_frame s fun _ => IRun.takeBits_mem

/-! ### The statement -/

/-- Settles O16: an element is bits of the stream, a decoded symbol or a table entry, and each of the three has the frame
of its offer. -/
theorem elementsTouchOneContext : Obligations.ElementsTouchOneContext := by
  unfold Obligations.ElementsTouchOneContext
  intro i s element
  show ElementFrame s (exec i s)
  cases i with
  | dinit | dproc | dsetdict | dreset | dparams | dend | iinit | iproc | isetdict | ireset | isync | icopy | iundermine
  | iend => exact absurd rfl element
  | blkStored | blkFixed | blkDynamic | blkReserved | zlibHdr | zlibDictid | storedLen | zlibTrailer | fixEob
  | fixLen257to263 | fixLen264to271 | fixLen272to279 | fixLit0to15 | fixLit16to79 | fixLit80to143 | fixLen280to285
  | fixInvalid286to287 | fixLit144to159 | fixLit160to191 | fixLit192to255 | fixDist0to15 | fixDist16to29
  | fixDistInvalid => exact onBits_frame _ _ s
  | symLiteral | symEob | symLength | symLlInvalid => exact onPlace_frame s fun x _ => x.lenAction_mem _
  | symDist | symDistInvalid => exact onPlace_frame s fun x _ => x.distAction_mem _
  | clLength | clRepeatPrev | clZerosShort | clZerosLong => exact onPlace_frame s fun x _ => IRun.clEntry_mem _ _
  | entLiteral | entLink | entBase | entEob | entInvalid => exact onPlace_frame s fun x _ => x.takeEntry_mem ..

end Sys2Proof.Machine
end

section
/-! PROOFS. The I-engine's window (48 R580 to R588): a ring of bytes, read by the distance back from its end. -/

namespace Sys2Proof.Machine

/-! ### The window as a ring (R580) -/

/-- The byte `d` back from the end of the history (R580). -/
def IState.byteBack (i : IState) (d : Nat) : Byte := i.window.get ((i.wnext + i.wsize - d) % i.wsize)

@[simp] theorem IState.length_history (i : IState) : i.history.length = i.whave := by simp [IState.history]

theorem IState.getElem?_history {i : IState} {j : Nat} (hj : j < i.whave) :
    i.history[j]? = some (i.byteBack (i.whave - j)) := by
  simp [IState.history, IState.byteBack, hj]

theorem Ram.getElem?_slice {α : Type} [Inhabited α] {d n j : Nat} (a : Ram d α) (k : Nat) (hj : j < n) :
    (a.slice k n)[j]? = some (a.get (k + j)) := by
  induction n generalizing k j with
  | zero => exact absurd hj (Nat.not_lt_zero j)
  | succ n ih =>
    cases j with
    | zero => rfl
    | succ j =>
      rw [Ram.slice, List.getElem?_cons_succ, ih (k + 1) (Nat.lt_of_succ_lt_succ hj), Nat.add_right_comm, Nat.add_assoc]

/-- A place `d` back from one that is `n` on is `n - d` on. -/
theorem sub_ofNat_add_ofNat_sub (a : Word) {d n : Nat} (h : d ≤ n) :
    a - BitVec.ofNat 32 n + BitVec.ofNat 32 (n - d) = a - BitVec.ofNat 32 d := by
  obtain ⟨k, rfl⟩ := Nat.exists_eq_add_of_le h
  rw [Nat.add_sub_cancel_left, BitVec.ofNat_add]
  bv_omega

/-- The bytes that end just before `stop`, read back from there. -/
theorem Memory.getElem?_readN_back (m : Memory) (stop : Word) {d n : Nat} (h1 : 1 ≤ d) (h : d ≤ n) :
    (m.readN (stop - BitVec.ofNat 32 n) n)[n - d]? = some (m.read (stop - BitVec.ofNat 32 d)) := by
  rw [Memory.getElem?_readN m _ (by omega), sub_ofNat_add_ofNat_sub stop h]

/-- Bytes written from `start` on around a ring of `size` entries: first those that fit before its end, then the rest from
entry 0 on (R581). -/
theorem Ram.get_setList_ring {α : Type} [Inhabited α] {d size start : Nat} (a : Ram d α) (vs : List α)
    (hs : size ≤ 2 ^ d) (hstart : start < size) (hv : vs.length < size) {q : Nat} (hq : q < size) :
    ((a.setList start (vs.take (min (size - start) vs.length))).setList 0
        (vs.drop (min (size - start) vs.length))).get ((start + q) % size) =
      (vs[q]?).getD (a.get ((start + q) % size)) := by
  generalize hD : min (size - start) vs.length = D
  have hdrop : (vs.drop D).length = vs.length - D := List.length_drop
  have htake : (vs.take D).length = D := by rw [List.length_take]; omega
  have place : (start + q) % size = if start + q < size then start + q else start + q - size := by
    split
    · exact Nat.mod_eq_of_lt ‹_›
    · rw [Nat.mod_eq_sub_mod (by omega), Nat.mod_eq_of_lt (by omega)]
  rcases Nat.lt_or_ge q vs.length with written | kept
  · rw [List.getElem?_eq_getElem written, Option.getD_some]
    rcases Nat.lt_or_ge q D with first | second
    · rw [place, if_pos (by omega), get_setList_outside (by omega), get_setList_inside (by omega) (by omega),
        List.getElem_take]
    · have e : (start + q) % size = 0 + (q - D) := by rw [place]; split <;> omega
      rw [e, get_setList_inside (by omega) (by omega), List.getElem_drop]
      simp [Nat.add_sub_cancel' second]
  · rw [List.getElem?_eq_none kept, Option.getD_none, place]
    split <;> rw [get_setList_outside (by omega), get_setList_outside (by omega)]

/-! ### UPDATEWINDOW (R581) -/

/-- The window's invariants speak of its cursors alone. -/
theorem IState.WindowOk.same {i i' : IState} (h : i.WindowOk) (wsize : i'.wsize = i.wsize) (whave : i'.whave = i.whave)
    (wnext : i'.wnext = i.wnext) : i'.WindowOk where
  wsize_le := by rw [wsize]; exact h.wsize_le
  whave_le := by rw [wsize, whave]; exact h.whave_le
  no_window := by rw [wsize, whave, wnext]; exact h.no_window
  wnext_lt := by rw [wsize, wnext]; exact h.wnext_lt
  filling := by rw [wsize, whave, wnext]; exact h.filling

theorem windowSizeOf_le (wbits : Nat) : windowSizeOf wbits ≤ 2 ^ 15 :=
  Nat.pow_le_pow_right (by decide) (Nat.min_le_right ..)

/-- Creating the window changes no byte of the history, for there is none before (R581). -/
theorem openWindow_spec {i : IState} (h : i.WindowOk) :
    (openWindow i).WindowOk ∧ (openWindow i).wsize = (if i.wsize = 0 then 2 ^ min i.wbits 15 else i.wsize) ∧
      (openWindow i).wsize ≠ 0 ∧ (openWindow i).history = i.history ∧
      openWindow i = { i with wsize := (openWindow i).wsize, whave := (openWindow i).whave, wnext := (openWindow i).wnext } := by
  rw [openWindow]
  split
  · rename_i none
    have pos : windowSizeOf i.wbits ≠ 0 := Nat.ne_of_gt (Nat.two_pow_pos _)
    refine ⟨⟨windowSizeOf_le _, Nat.zero_le _, fun _ => ⟨rfl, rfl⟩, fun _ => Nat.pos_of_ne_zero pos, fun _ => rfl⟩, rfl, pos,
      ?_, rfl⟩
    simp [IState.history, (h.no_window none).1]
  · exact ⟨h, rfl, ‹_›, rfl, rfl⟩

/-- UPDATEWINDOW changes the window and its cursors alone. -/
theorem updateWindow_frame (m : Memory) (stop : Word) (n : Nat) (i : IState) :
    updateWindow m stop n i =
      { i with window := (updateWindow m stop n i).window, wsize := (updateWindow m stop n i).wsize
               whave := (updateWindow m stop n i).whave, wnext := (updateWindow m stop n i).wnext } := by
  rw [updateWindow, openWindow]
  dsimp only
  repeat' split
  all_goals rfl

section
variable {i : IState} (h : i.WindowOk) (isOpen : i.wsize ≠ 0) (m : Memory) (stop : Word) (n : Nat)
include h isOpen

/-- UPDATEWINDOW's cursors: the window fills up and is then full; the next byte's place goes around (R581). -/
theorem updateWindow_cursors :
    (updateWindow m stop n i).wsize = i.wsize ∧ (updateWindow m stop n i).whave = min i.wsize (i.whave + n) ∧
      (updateWindow m stop n i).wnext = if i.wsize ≤ n then 0 else (i.wnext + n) % i.wsize := by
  have room := h.whave_le
  have inside := h.wnext_lt isOpen
  have filling := h.filling
  rw [updateWindow, openWindow, if_neg isOpen]
  dsimp only
  split
  · exact ⟨rfl, by dsimp only; omega, rfl⟩
  · split
    · refine ⟨rfl, by dsimp only; omega, ?_⟩
      dsimp only
      rw [Nat.mod_eq_sub_mod (by omega), Nat.mod_eq_of_lt (by omega)]
      omega
    · refine ⟨rfl, by dsimp only; split <;> omega, ?_⟩
      dsimp only
      split
      · rw [show i.wnext + n = i.wsize by omega, Nat.mod_self]
      · rw [Nat.mod_eq_of_lt (by omega)]
        omega

/-- Fewer bytes than the window holds go around it from its end (R581). -/
theorem updateWindow_get (short : n < i.wsize) {q : Nat} (hq : q < i.wsize) :
    (updateWindow m stop n i).window.get ((i.wnext + q) % i.wsize) =
      ((m.readN (stop - BitVec.ofNat 32 n) n)[q]?).getD (i.window.get ((i.wnext + q) % i.wsize)) := by
  have ring := Ram.get_setList_ring i.window (m.readN (stop - BitVec.ofNat 32 n) n) h.wsize_le (h.wnext_lt isOpen)
    (by rw [Memory.readN_length]; exact short) hq
  rw [Memory.readN_length] at ring
  rw [← ring, updateWindow, openWindow, if_neg isOpen]
  dsimp only
  rw [if_neg (Nat.not_le.mpr short)]
  split
  · rfl
  · rw [List.drop_eq_nil_of_le (by rw [Memory.readN_length]; omega)]
    rfl

/-- Read back from its end, the history after UPDATEWINDOW is the bytes appended, then the old history (R581). -/
theorem updateWindow_byteBack {d : Nat} (h1 : 1 ≤ d) (hd : d ≤ i.wsize) :
    (updateWindow m stop n i).byteBack d =
      if d ≤ n then m.read (stop - BitVec.ofNat 32 d) else i.byteBack (d - n) := by
  obtain ⟨size, -, next⟩ := updateWindow_cursors h isOpen m stop n
  rw [IState.byteBack, size, next]
  rcases Nat.lt_or_ge n i.wsize with short | long
  · have place : ((i.wnext + n) % i.wsize + i.wsize - d) % i.wsize = (i.wnext + (n + i.wsize - d) % i.wsize) % i.wsize := by
      rw [Nat.add_sub_assoc hd, Nat.mod_add_mod, Nat.add_mod_mod]
      congr 1
      omega
    rw [if_neg (Nat.not_le.mpr short), place, updateWindow_get h isOpen m stop n short (Nat.mod_lt _ (by omega))]
    split
    · rw [show n + i.wsize - d = n - d + i.wsize by omega, Nat.add_mod_right, Nat.mod_eq_of_lt (by omega),
        Memory.getElem?_readN_back m stop h1 ‹_›, Option.getD_some]
    · rw [Nat.mod_eq_of_lt (by omega), List.getElem?_eq_none (by rw [Memory.readN_length]; omega), Option.getD_none,
        IState.byteBack]
      congr 2
      omega
  · have whole : (updateWindow m stop n i).window = i.window.setList 0 (m.readN (stop - BitVec.ofNat 32 i.wsize) i.wsize) := by
      rw [updateWindow, openWindow, if_neg isOpen]
      dsimp only
      rw [if_pos long]
    have last := Memory.getElem?_readN_back m stop h1 hd
    have length := Memory.readN_length m (stop - BitVec.ofNat 32 i.wsize) i.wsize
    have fits := h.wsize_le
    rw [if_pos (Nat.le_trans hd long), if_pos long, Nat.zero_add, Nat.mod_eq_of_lt (by omega), whole,
      ← Nat.zero_add (i.wsize - d), Ram.get_setList_inside (by omega) (by omega)]
    exact Option.some.inj ((List.getElem?_eq_getElem _).symm.trans last)

/-- UPDATEWINDOW keeps the window's invariants (R586). -/
theorem updateWindow_keeps_windowOk : (updateWindow m stop n i).WindowOk := by
  obtain ⟨size, count, next⟩ := updateWindow_cursors h isOpen m stop n
  have room := h.whave_le
  have filling := h.filling
  refine ⟨by rw [size]; exact h.wsize_le, by omega, fun e => absurd (size.symm.trans e) isOpen, fun _ => ?_, fun short => ?_⟩
  · rw [size, next]
    split
    · omega
    · exact Nat.mod_lt _ (by omega)
  · rw [next, if_neg (by omega), Nat.mod_eq_of_lt (by omega)]
    omega

/-- UPDATEWINDOW keeps the last bytes of the old history and the bytes appended, as many as the window holds (R581). -/
theorem updateWindow_history :
    (updateWindow m stop n i).history = lastN i.wsize (i.history ++ m.readN (stop - BitVec.ofNat 32 n) n) := by
  obtain ⟨-, count, -⟩ := updateWindow_cursors h isOpen m stop n
  have room := h.whave_le
  refine List.ext_getElem? fun j => ?_
  rw [lastN, List.getElem?_drop, List.length_append, IState.length_history, Memory.readN_length]
  rcases Nat.lt_or_ge j (min i.wsize (i.whave + n)) with inside | outside
  · rw [IState.getElem?_history (by omega), updateWindow_byteBack h isOpen m stop n (by omega) (by omega), count]
    split
    · rw [List.getElem?_append_right (by rw [IState.length_history]; omega), IState.length_history,
        ← Memory.getElem?_readN_back m stop (n := n) (by omega) ‹_›]
      congr 1
      omega
    · rw [List.getElem?_append_left (by rw [IState.length_history]; omega), IState.getElem?_history (by omega)]
      congr 2
      omega
  · rw [List.getElem?_eq_none (by rw [IState.length_history]; omega),
      List.getElem?_eq_none (by rw [List.length_append, IState.length_history, Memory.readN_length]; omega)]

end

/-- UPDATEWINDOW makes the window first where there is none. -/
theorem updateWindow_openWindow (m : Memory) (stop : Word) (n : Nat) (i : IState) :
    updateWindow m stop n (openWindow i) = updateWindow m stop n i := by
  have again : openWindow (openWindow i) = openWindow i := by
    rw [openWindow, if_neg ?_]
    rw [openWindow]
    split
    · exact Nat.ne_of_gt (Nat.two_pow_pos _)
    · assumption
  rw [updateWindow, again, updateWindow]

theorem updateWindow_windowOk {i : IState} (h : i.WindowOk) (m : Memory) (stop : Word) (n : Nat) :
    (updateWindow m stop n i).WindowOk := by
  obtain ⟨ok, -, isOpen, -, -⟩ := openWindow_spec h
  rw [← updateWindow_openWindow]
  exact updateWindow_keeps_windowOk ok isOpen m stop n

/-- Settles O36: the window is made if there is none, which leaves the history empty; the rest is its three laws. -/
theorem updateWindowAppendsToTheHistory : Obligations.UpdateWindowAppendsToTheHistory := by
  unfold Obligations.UpdateWindowAppendsToTheHistory
  intro m stop n i h
  obtain ⟨ok, size, isOpen, hist, -⟩ := openWindow_spec h
  obtain ⟨size', -, -⟩ := updateWindow_cursors ok isOpen m stop n
  have history := updateWindow_history ok isOpen m stop n
  rw [updateWindow_openWindow] at size' history
  dsimp only
  refine ⟨updateWindow_windowOk h m stop n, size'.trans size, ?_, updateWindow_frame m stop n i⟩
  rw [history, size', hist]

end Sys2Proof.Machine
end

section
/-! PROOFS. MATCH_COPY (48 R587, R588) in terms of the history and this call's output. -/

namespace Sys2Proof.Machine

/-! ### An overlapping copy (R587) -/

/-- The copy loop, its last byte taken off. -/
theorem copyBytes_succ (m : Memory) (dst src : Word) (n : Nat) :
    copyBytes m dst src (n + 1) =
      (copyBytes m dst src n).write (dst + BitVec.ofNat 32 n) ((copyBytes m dst src n).read (src + BitVec.ofNat 32 n)) := by
  induction n generalizing m dst src with
  | zero => simp [copyBytes]
  | succ n ih =>
    have place (a : Word) : a + 1 + BitVec.ofNat 32 n = a + BitVec.ofNat 32 (n + 1) := by
      rw [BitVec.ofNat_add, BitVec.add_comm (BitVec.ofNat 32 n), ← BitVec.add_assoc]
      rfl
    rw [copyBytes, ih, place, place]
    rfl

/-- Different distances from one address, both below 2^32, are different addresses. -/
theorem add_ofNat_ne (a : Word) {i j : Nat} (hi : i < 2 ^ 32) (hj : j < 2 ^ 32) (h : i ≠ j) :
    a + BitVec.ofNat 32 i ≠ a + BitVec.ofNat 32 j := by
  intro e
  have := congrArg BitVec.toNat ((BitVec.add_right_inj a).mp e)
  simp only [BitVec.toNat_ofNat, Nat.mod_eq_of_lt hi, Nat.mod_eq_of_lt hj] at this
  exact h this

section
variable {m : Memory} (hm : m.wf = true) (put : Word) {offset : Nat} (h1 : 1 ≤ offset)
include hm h1

/-- A copy from `offset` back repeats the last `offset` bytes before `put` (R587). -/
theorem copyBytes_repeats {n : Nat} (fits : offset + n ≤ 2 ^ 32) {j : Nat} (hj : j < n) :
    (copyBytes m put (put - BitVec.ofNat 32 offset) n).read (put + BitVec.ofNat 32 j) =
      m.read (put - BitVec.ofNat 32 offset + BitVec.ofNat 32 (j % offset)) := by
  induction n generalizing j with
  | zero => exact absurd hj (Nat.not_lt_zero j)
  | succ n ih =>
    have wf := copyBytes_wf (n := n) (dst := put) (src := put - BitVec.ofNat 32 offset) hm
    rw [copyBytes_succ]
    obtain before | rfl := Nat.lt_or_eq_of_le (Nat.le_of_lt_succ hj)
    · rw [Memory.read_write_ne wf (add_ofNat_ne put (by omega) (by omega) (by omega)), ih (by omega) before]
    · rw [Memory.read_write_same wf]
      rcases Nat.lt_or_ge j offset with source | written
      · rw [Nat.mod_eq_of_lt source, read_copyBytes_outside hm]
        intro i hi
        have apart := add_ofNat_ne (put - BitVec.ofNat 32 offset) (i := j) (j := offset + i) (by omega) (by omega) (by omega)
        rwa [BitVec.ofNat_add, ← BitVec.add_assoc, BitVec.sub_add_cancel] at apart
      · have place : put - BitVec.ofNat 32 offset + BitVec.ofNat 32 j = put + BitVec.ofNat 32 (j - offset) := by
          obtain ⟨i, rfl⟩ := Nat.exists_eq_add_of_le written
          rw [BitVec.ofNat_add, ← BitVec.add_assoc, BitVec.sub_add_cancel, Nat.add_sub_cancel_left]
        rw [place, ih (by omega) (by omega), Nat.mod_eq_sub_mod written]

end

/-! ### What MATCH_COPY leaves (R587, R588) -/

/-- A match has written the `n` bytes `byte` at put and no others, and goes on in `mode`. -/
def IRun.MatchWrites (x : IRun) (n : Nat) (byte : Nat → Option Byte) (mode : Mode) : Prop :=
  1 ≤ n ∧ ∃ m' : Memory,
    x.matchCopy = { x with mem := m', left := x.left - n, put := x.put + BitVec.ofNat 32 n
                           i := { x.i with length := x.i.length - n, mode := mode } } ∧
    m'.wf = true ∧ SameOutside x.put n x.mem m' ∧ ∀ j < n, some (m'.read (x.put + BitVec.ofNat 32 j)) = byte j

/-- The history and, after it, this call's output. -/
def IRun.seen (x : IRun) : List Byte :=
  x.i.history ++ x.mem.readN (x.put - BitVec.ofNat 32 (x.out - x.left)) (x.out - x.left)

/-- MemWrite as the bytes it leaves, by index. -/
theorem Memory.getElem?_writeN {m : Memory} (h : m.wf = true) (a : Word) {vs : List Byte} (hlen : vs.length ≤ 2 ^ 32) {j : Nat}
    (hj : j < vs.length) : some ((m.writeN a vs).read (a + BitVec.ofNat 32 j)) = vs[j]? := by
  rw [← Memory.getElem?_readN _ a hj, Memory.readN_writeN h hlen]

namespace IRun

variable {x : IRun}

theorem length_seen : x.seen.length = x.i.whave + (x.out - x.left) := by
  rw [seen, List.length_append, IState.length_history, Memory.readN_length]

/-- Past the history `seen` is this call's output, which ends just before put. -/
theorem getElem?_seen_output {j : Nat} (h1 : x.i.whave ≤ j) (h2 : j < x.i.whave + (x.out - x.left)) :
    x.seen[j]? = some (x.mem.read (x.put - BitVec.ofNat 32 (x.i.whave + (x.out - x.left) - j))) := by
  rw [seen, List.getElem?_append_right (by rw [IState.length_history]; exact h1), IState.length_history,
    ← Memory.getElem?_readN_back x.mem x.put (n := x.out - x.left) (by omega) (by omega)]
  congr 1
  omega

theorem getElem?_seen_history {j : Nat} (h : j < x.i.whave) : x.seen[j]? = some (x.i.byteBack (x.i.whave - j)) := by
  rw [seen, List.getElem?_append_left (by rw [IState.length_history]; exact h), IState.getElem?_history h]

/-- What MATCH_COPY writes from a list of bytes. -/
theorem matchWrites_of_writeN (hmem : x.mem.wf = true) {vs : List Byte} {mode : Mode} (nonempty : 1 ≤ vs.length)
    (hlen : vs.length < 2 ^ 32) {byte : Nat → Option Byte} (bytes : ∀ j < vs.length, vs[j]? = byte j)
    (h : x.matchCopy = { x with
      mem := x.mem.writeN x.put vs, left := x.left - vs.length, put := x.put + BitVec.ofNat 32 vs.length
      i := { x.i with length := x.i.length - vs.length, mode := mode } }) :
    x.MatchWrites vs.length byte mode :=
  ⟨nonempty, _, h, Memory.writeN_wf hmem, fun _ hout => Memory.read_writeN_outside hmem hout,
    fun j hj => (Memory.getElem?_writeN hmem x.put (Nat.le_of_lt hlen) hj).trans (bytes j hj)⟩

section
variable (hmem : x.mem.wf = true) (hleft : x.left ≤ x.out) (hout : x.out < 2 ^ 32)
  (length : 1 ≤ x.i.length) (room : 1 ≤ x.left)
include hmem hleft hout length room

/-- A match whose distance stays in this call's output repeats the bytes there (R587). -/
theorem matchCopy_output (offset : 1 ≤ x.i.offset) (near : x.i.offset ≤ x.out - x.left) :
    x.MatchWrites (min x.i.length x.left)
      (fun j => x.seen[x.seen.length - x.i.offset + j % x.i.offset]?) x.i.mode := by
  have copy : x.matchCopy = x.copyOutput := if_neg (Nat.not_lt.mpr near)
  refine ⟨by omega, _, copy, copyBytes_wf hmem, fun _ out => read_copyBytes_outside hmem out, fun j hj => ?_⟩
  have before : j % x.i.offset < x.i.offset := Nat.mod_lt _ offset
  dsimp only
  rw [copyBytes_repeats hmem x.put offset (by omega) hj, length_seen, getElem?_seen_output (by omega) (by omega),
    show x.i.whave + (x.out - x.left) - (x.i.whave + (x.out - x.left) - x.i.offset + j % x.i.offset)
      = x.i.offset - j % x.i.offset by omega,
    ← sub_ofNat_add_ofNat_sub x.put (Nat.sub_le x.i.offset (j % x.i.offset)), Nat.sub_sub_self (Nat.le_of_lt before)]

/-- A distance past everything that has been seen: zeros, in the lenient mode (R588). -/
theorem matchCopy_lenient (far : x.i.whave + (x.out - x.left) < x.i.offset) (lenient : x.i.sane = false) :
    x.MatchWrites (min (min (x.i.offset - (x.out - x.left) - x.i.whave) x.i.length) x.left) (fun _ => some 0)
      (if x.i.length = min (min (x.i.offset - (x.out - x.left) - x.i.whave) x.i.length) x.left then .LEN
        else x.i.mode) := by
  have fill : x.matchCopy = x.lenientFill (x.i.offset - (x.out - x.left)) := by
    rw [matchCopy]
    dsimp only
    rw [if_pos (by omega), if_pos (by omega), lenient]
    rfl
  generalize hn : min (min (x.i.offset - (x.out - x.left) - x.i.whave) x.i.length) x.left = n
  have size : (List.replicate n (0 : Byte)).length = n := List.length_replicate
  rw [← size]
  refine matchWrites_of_writeN hmem (by omega) (by omega) (fun j hj => ?_) ?_
  · rw [List.getElem?_replicate, if_pos (size ▸ hj)]
  · rw [fill, lenientFill, size, hn]
    by_cases whole : x.i.length = n
    · rw [if_pos whole]
      exact if_pos (show x.i.length - n = 0 by omega)
    · rw [if_neg whole]
      exact if_neg (show ¬ x.i.length - n = 0 by omega)

/-- A match's source in the window (R587). -/
theorem matchCopy_window {src most : Nat} (copy : x.matchCopy = x.copyWindow src most) (nonempty : 1 ≤ most)
    {byte : Nat → Option Byte} (bytes : ∀ j < most, some (x.i.window.get (src + j)) = byte j) :
    x.MatchWrites (min (min most x.i.length) x.left) byte x.i.mode := by
  generalize hn : min (min most x.i.length) x.left = n
  have size : (x.i.window.slice src n).length = n := Ram.slice_length ..
  rw [← size]
  refine matchWrites_of_writeN hmem (by omega) (by omega) (fun j hj => ?_) ?_
  · rw [Ram.getElem?_slice _ _ (size ▸ hj), bytes j (by omega)]
  · rw [copy, copyWindow, size, hn]
    rfl

/-- A match that reaches past this call's output into the history, the window's end or wnext bounding the copy (R587). -/
theorem matchCopy_history (hw : x.i.WindowOk) (past : x.out - x.left < x.i.offset)
    (known : x.i.offset ≤ x.i.whave + (x.out - x.left)) :
    x.MatchWrites
      (min (min (if x.i.wnext < x.i.offset - (x.out - x.left) then x.i.offset - (x.out - x.left) - x.i.wnext
        else x.i.offset - (x.out - x.left)) x.i.length) x.left)
      (fun j => x.seen[x.seen.length - x.i.offset + j % x.i.offset]?) x.i.mode := by
  generalize hb : x.i.offset - (x.out - x.left) = back
  have fits := hw.whave_le
  have inside := hw.wnext_lt (by omega)
  have byte {j : Nat} (hj : j < back) : x.seen[x.seen.length - x.i.offset + j % x.i.offset]? =
      some (x.i.window.get ((x.i.wnext + x.i.wsize - (back - j)) % x.i.wsize)) := by
    rw [length_seen, Nat.mod_eq_of_lt (by omega), getElem?_seen_history (by omega), IState.byteBack]
    congr 4
    omega
  have copy : x.matchCopy =
      if x.i.wnext < back then x.copyWindow (x.i.wsize - (back - x.i.wnext)) (back - x.i.wnext)
      else x.copyWindow (x.i.wnext - back) back := by
    rw [matchCopy]
    dsimp only
    rw [if_pos past, hb, if_neg (by omega)]
  split at copy
  · rw [if_pos ‹_›]
    refine matchCopy_window hmem hleft hout length room copy (by omega) fun j hj => ?_
    rw [byte (by omega), Nat.mod_eq_of_lt (by omega)]
    congr 2
    omega
  · rw [if_neg ‹_›]
    refine matchCopy_window hmem hleft hout length room copy (by omega) fun j hj => ?_
    rw [byte hj, show x.i.wnext + x.i.wsize - (back - j) = x.i.wnext - back + j + x.i.wsize by omega, Nat.add_mod_right,
      Nat.mod_eq_of_lt (by omega)]

end

end IRun

/-- Settles O37: the overlapping copy by its own law; a match by where its distance reaches. -/
theorem matchCopyWritesTheHistory : Obligations.MatchCopyWritesTheHistory := by
  unfold Obligations.MatchCopyWritesTheHistory
  refine ⟨fun m put offset n hm h1 fits => ⟨fun j hj => copyBytes_repeats hm put h1 fits hj,
    fun _ out => read_copyBytes_outside hm out⟩, ?_⟩
  intro x hw hmem hleft hout offset length room done seen back writes
  have total : seen.length = x.i.whave + done := IRun.length_seen
  refine ⟨fun known => ?reaches, fun far sane => ?tooFar, fun far lenient => ?lenient⟩
  case reaches =>
    dsimp only
    split
    · rename_i near
      rw [Nat.min_self]
      exact IRun.matchCopy_output hmem hleft hout length room offset near
    · rename_i past
      exact IRun.matchCopy_history hmem hleft hout length room hw (Nat.lt_of_not_le past) (total ▸ known)
  case tooFar =>
    show x.matchCopy = x.bad .distanceTooFar
    rw [IRun.matchCopy]
    dsimp only
    rw [if_pos (show done < x.i.offset by omega), if_pos (show x.i.whave < back by omega), if_pos sane]
  case lenient => exact IRun.matchCopy_lenient hmem hleft hout length room (total ▸ far) lenient

end Sys2Proof.Machine
end

section
/-! PROOFS. A D-engine inside a command (44): what of the invariant, the window cursors apart, every operation keeps. -/

namespace Sys2Proof.Machine

/-! ### Totals (10_state R38) -/

theorem toNat_addTotal_lt {p : Params} (narrow : p.total64 = false) (t : BitVec 64) (n : Nat) :
    (addTotal p t n).toNat < 2 ^ 32 := by
  simp only [addTotal, narrow, Bool.false_eq_true, if_false]
  rw [BitVec.toNat_setWidth_of_le (by decide)]
  exact BitVec.isLt _

theorem Regs.TotalsOk.consume {p : Params} {r : Regs} (h : r.TotalsOk p) (n : Nat) : (r.consume p n).TotalsOk p :=
  fun narrow => ⟨toNat_addTotal_lt narrow .., (h narrow).2⟩

theorem Regs.TotalsOk.produce {p : Params} {r : Regs} (h : r.TotalsOk p) (n : Nat) : (r.produce p n).TotalsOk p :=
  fun narrow => ⟨(h narrow).1, toNat_addTotal_lt narrow ..⟩

theorem Regs.TotalsOk.setAdler {p : Params} {r : Regs} (h : r.TotalsOk p) (a : Word) :
    Regs.TotalsOk p { r with adler := a } := fun narrow => h narrow

/-! ### The settings of a stream -/

/-- The fields of a D-engine that its match finder leaves alone (10_state R40, R41, R47). -/
structure Settings where
  wrap : Int
  conf : DConf
  tune : DTune
  lastFlush : Int
  slides : Nat

def DState.settings (d : DState) : Settings :=
  { wrap := d.wrap, conf := d.conf, tune := d.tune, lastFlush := d.lastFlush, slides := d.slides }

/-- Settings in their ranges, for the configuration `c` and the tuning `t` (10_state R40, R41). -/
structure Settings.Ok (c : DConf) (t : DTune) (g : Settings) : Prop where
  wrap : g.wrap = 1 ∨ g.wrap = 0 ∨ g.wrap = -1
  conf : g.conf = c
  tune : g.tune = t
  lastFlush : -2 ≤ g.lastFlush ∧ g.lastFlush ≤ 5
  slides : g.slides ≤ 2

theorem DState.Ok.settings {d : DState} (h : d.Ok) : d.settings.Ok d.conf d.tune :=
  ⟨h.wrap, rfl, rfl, h.lastFlush, h.slides⟩

/-- A state of a safe D-engine's configuration and tuning is safe with its cursors in range. -/
theorem DState.Ok.of_settings {d d' : DState} (h : d.Ok) (g : d'.settings.Ok d.conf d.tune) (cursors : d'.CursorsOk) :
    d'.Ok := by
  have conf : d'.conf = d.conf := g.conf
  have tune : d'.tune = d.tune := g.tune
  exact ⟨g.wrap, by rw [conf]; exact h.conf, by rw [tune]; exact h.level, by rw [tune]; exact h.strategy,
    by rw [tune]; exact h.row, g.lastFlush, g.slides, cursors⟩

theorem insertStrings_settings (n p : Nat) (d : DState) : (insertStrings n p d).settings = d.settings := by
  induction n generalizing p d with
  | zero => rfl
  | succ n ih => exact ih ..

theorem insertUpTo_settings (most n p : Nat) (d : DState) : (insertUpTo most n p d).settings = d.settings := by
  induction n generalizing p d with
  | zero => rfl
  | succ n ih =>
    rw [insertUpTo, ih]
    split <;> rfl

theorem insertHeld_settings (n st : Nat) (d : DState) : (insertHeld n st d).settings = d.settings := by
  induction n generalizing st d with
  | zero => rfl
  | succ n ih =>
    rw [insertHeld]
    split
    · rfl
    · exact ih ..

theorem primeHash_settings (d : DState) : (primeHash d).settings = d.settings := by
  rw [primeHash]
  split
  · exact insertHeld_settings ..
  · rfl

theorem slideIfNeeded_settings (d : DState) : (slideIfNeeded d).1.settings = d.settings := by
  rw [slideIfNeeded]
  split <;> rfl

theorem insertHere_settings (d : DState) : (insertHere d).2.settings = d.settings := by
  rw [insertHere]
  split <;> rfl

theorem fastSearch_settings (d : DState) : (fastSearch d).settings = d.settings := by
  rw [fastSearch, ← insertHere_settings d]
  generalize insertHere d = p
  dsimp only
  split <;> rfl

theorem fastMatch_settings (d : DState) : (fastMatch d).2.settings = d.settings := by
  rw [fastMatch]
  generalize hq : tallyDist _ _ d = q
  have tallied : q.2.settings = d.settings := hq ▸ rfl
  dsimp only
  split
  · exact (insertStrings_settings ..).trans tallied
  · exact tallied

theorem fastCode_settings (d : DState) : (fastCode d).2.settings = d.settings := by
  rw [fastCode, ← fastSearch_settings d]
  split
  · exact fastMatch_settings _
  · rfl

theorem slowSearch_settings (d : DState) : (slowSearch d).settings = d.settings := by
  rw [slowSearch, ← insertHere_settings d]
  dsimp only
  split <;> rfl

theorem slowMatch_settings (d : DState) : (slowMatch d).2.settings = d.settings := insertUpTo_settings ..

theorem slowLast_settings (d : DState) : (slowLast d).settings = d.settings := by
  rw [slowLast]
  split <;> rfl

theorem rleCode_settings (d : DState) : (rleCode d).2.settings = d.settings := by
  rw [rleCode]
  generalize (if minMatch ≤ d.lookahead ∧ 0 < d.strstart then rleMatch d else 0) = len
  dsimp only
  split <;> rfl

theorem planBlock_settings (d : DState) (dt : Word) (n : Nat) : (planBlock d dt n).d.settings = d.settings := by
  rw [planBlock]
  split <;> rfl

theorem flushBlockCore_settings (d : DState) (dt : Word) (buf : Option Nat) (n : Nat) (last : Bool) :
    (flushBlockCore d dt buf n last).1.settings = { d.settings with slides := 0 } :=
  congrArg (fun g : Settings => { g with slides := 0 }) (planBlock_settings d dt n)

theorem flushActions_settings (flush : Nat) (d : DState) : (flushActions flush d).settings = d.settings := by
  rw [flushActions]
  split
  · rfl
  split
  · rfl
  dsimp only
  split
  · split <;> rfl
  · rfl

/-! ### A run -/

/-- A D-engine's run with its totals, its memory and its settings in their ranges. -/
structure DRun.Sound (p : Params) (c : DConf) (t : DTune) (x : DRun) : Prop where
  params : x.params = p
  totals : x.regs.TotalsOk p
  mem : x.mem.wf = true
  settings : x.d.settings.Ok c t

section
variable {p : Params} {c : DConf} {t : DTune} {x : DRun}

/-- A new D-engine state with the same settings. -/
theorem DRun.Sound.setD (h : x.Sound p c t) {d : DState} (same : d.settings = x.d.settings) :
    DRun.Sound p c t { x with d := d } := ⟨h.params, h.totals, h.mem, same ▸ h.settings⟩

theorem DRun.Sound.setLastFlush (h : x.Sound p c t) {f : Int} (hf : -2 ≤ f ∧ f ≤ 5) : (x.setLastFlush f).Sound p c t :=
  ⟨h.params, h.totals, h.mem, ⟨h.settings.wrap, h.settings.conf, h.settings.tune, hf, h.settings.slides⟩⟩

theorem DRun.Sound.setStatus (h : x.Sound p c t) (s : DStatus) : (x.setStatus s).Sound p c t := h.setD rfl

theorem DRun.Sound.say (h : x.Sound p c t) (m : Msg) : (x.say m).Sound p c t := ⟨h.params, h.totals, h.mem, h.settings⟩

theorem DRun.Sound.readIn (h : x.Sound p c t) (size : Nat) : (readIn size x).2.Sound p c t := by
  refine ⟨h.params, ?_, h.mem, h.settings⟩
  have totals := h.totals.consume (min x.regs.availIn.toNat size)
  rw [readIn_regs, h.params]
  split
  · exact totals.setAdler _
  · exact totals

theorem DRun.Sound.flushPending (h : x.Sound p c t) : (flushPending x).Sound p c t := by
  refine ⟨h.params, ?_, flushPending_wf h.mem, h.settings⟩
  rw [Machine.flushPending, h.params]
  exact h.totals.produce _

theorem DRun.Sound.flushBlockOnly (h : x.Sound p c t) (last : Bool) : (flushBlockOnly last x).Sound p c t := by
  rw [Machine.flushBlockOnly]
  dsimp only
  generalize hq : flushBlockCore x.d _ _ _ last = q
  have core : q.1.settings.Ok c t := by
    rw [← hq, flushBlockCore_settings]
    exact ⟨h.settings.wrap, h.settings.conf, h.settings.tune, h.settings.lastFlush, Nat.zero_le _⟩
  exact DRun.Sound.flushPending ⟨h.params, h.totals, h.mem, core⟩

theorem DRun.Sound.flushBlock (h : x.Sound p c t) (last : Bool) : (flushBlock last x).2.Sound p c t := by
  rw [Machine.flushBlock]
  split <;> exact h.flushBlockOnly last

theorem DRun.Sound.finishStrategy (h : x.Sound p c t) (flush ins : Nat) : (finishStrategy flush ins x).2.Sound p c t := by
  have start : DRun.Sound p c t { x with d := { x.d with insert := ins } } := h.setD rfl
  rw [Machine.finishStrategy]
  dsimp only
  split
  · exact start.flushBlock true
  split
  · exact start.flushBlock false
  · exact start

theorem DRun.Sound.closeIfFull (h : x.Sound p c t) (bflush : Bool) : (closeIfFull bflush x).2.Sound p c t := by
  have closed := h.flushBlock false
  rw [Machine.closeIfFull]
  split
  · generalize Machine.flushBlock false x = q at closed
    obtain ⟨_ | b, y⟩ := q <;> exact closed
  · exact h

/-! ### FILL_WINDOW (41 R207) -/

theorem fillLoop_sound (n : Nat) (x : DRun) (h : x.Sound p c t) : (fillLoop n x).Sound p c t := by
  induction n generalizing x with
  | zero => exact h
  | succ n ih =>
    have slid := h.setD (slideIfNeeded_settings x.d)
    rw [fillLoop]
    generalize slideIfNeeded x.d = q at slid
    obtain ⟨d, more⟩ := q
    dsimp only
    split
    · exact slid
    · have read := DRun.Sound.readIn slid more
      split
      · exact ih _ (read.setD (primeHash_settings _))
      · exact read.setD (primeHash_settings _)

theorem DRun.Sound.fillWindow (h : x.Sound p c t) : (fillWindow x).Sound p c t := fillLoop_sound _ x h

/-! ### The strategy functions (41 R220 to R223) -/

/-- The refill of a strategy function, whatever asks for it. -/
theorem DRun.Sound.fillIf (h : x.Sound p c t) (few : Prop) [Decidable few] :
    DRun.Sound p c t (if few then Machine.fillWindow x else x) := by
  split
  · exact h.fillWindow
  · exact h

theorem fastStep_sound (flush : Nat) (x : DRun) (h : x.Sound p c t) : (fastStep flush x).2.Sound p c t := by
  have filled : (refill x).Sound p c t := h.fillIf _
  rw [fastStep]
  dsimp only
  split
  · exact filled
  split
  · exact filled.finishStrategy ..
  · exact DRun.Sound.closeIfFull (filled.setD (fastCode_settings _)) _

theorem slowCode_sound (h : x.Sound p c t) : (slowCode x).2.Sound p c t := by
  have searched := slowSearch_settings x.d
  rw [slowCode]
  generalize slowSearch x.d = d at searched
  dsimp only
  split
  · exact DRun.Sound.closeIfFull (h.setD ((slowMatch_settings d).trans searched)) _
  split
  · have tallied : (tallyLit (d.window.get (d.strstart - 1)) d).2.settings = x.d.settings := searched
    generalize tallyLit (d.window.get (d.strstart - 1)) d = q at tallied
    have flushed : DRun.Sound p c t
        (if q.1 = true then flushBlockOnly false { x with d := q.2 } else { x with d := q.2 }) := by
      split
      · exact DRun.Sound.flushBlockOnly (h.setD tallied) false
      · exact h.setD tallied
    generalize (if q.1 = true then flushBlockOnly false { x with d := q.2 } else { x with d := q.2 }) = y at flushed
    split <;> exact flushed.setD rfl
  · exact h.setD searched

theorem slowStep_sound (flush : Nat) (x : DRun) (h : x.Sound p c t) : (slowStep flush x).2.Sound p c t := by
  have filled : (refill x).Sound p c t := h.fillIf _
  rw [slowStep]
  dsimp only
  split
  · exact filled
  split
  · exact (filled.setD (slowLast_settings _)).finishStrategy ..
  · exact slowCode_sound filled

theorem rleStep_sound (flush : Nat) (x : DRun) (h : x.Sound p c t) : (rleStep flush x).2.Sound p c t := by
  have filled := h.fillIf (x.d.lookahead ≤ maxMatch)
  rw [rleStep]
  generalize (if x.d.lookahead ≤ maxMatch then fillWindow x else x) = y at filled
  dsimp only
  split
  · exact filled
  split
  · exact filled.finishStrategy ..
  · exact DRun.Sound.closeIfFull (filled.setD (rleCode_settings _)) _

theorem huffStep_sound (flush : Nat) (x : DRun) (h : x.Sound p c t) : (huffStep flush x).2.Sound p c t := by
  have filled := h.fillIf (x.d.lookahead = 0)
  rw [huffStep]
  generalize (if x.d.lookahead = 0 then fillWindow x else x) = y at filled
  dsimp only
  split
  · split
    · exact filled
    · exact filled.finishStrategy ..
  · refine DRun.Sound.closeIfFull ?_ _
    exact filled.setD rfl

/-! ### The stored function (44 R370) -/

theorem storedCopy_sound (left len : Nat) (h : x.Sound p c t) : (storedCopy left len x).Sound p c t := by
  have copied : DRun.Sound p c t (if left = 0 then x else
      { x with
        mem := x.mem.writeN x.regs.nextOut (x.d.window.slice x.d.blockStart.toNat left)
        regs := x.regs.produce x.params left
        d := { x.d with blockStart := x.d.blockStart + left } }) := by
    split
    · exact h
    · exact ⟨h.params, h.params ▸ h.totals.produce left, Memory.writeN_wf h.mem, h.settings⟩
  rw [storedCopy]
  generalize (if left = 0 then x else _) = y at copied
  dsimp only
  split
  · exact copied
  · have read := copied.readIn len
    exact ⟨read.params, read.params ▸ read.totals.produce len, Memory.writeN_wf read.mem, read.settings⟩

theorem storedDirect_sound (flush n : Nat) (x : DRun) (h : x.Sound p c t) : (storedDirect flush n x).2.Sound p c t := by
  induction n generalizing x with
  | zero => exact h
  | succ n ih =>
    rw [storedDirect]
    split
    · exact h
    · have headed (w : BitWriter) : DRun.Sound p c t (flushPending { x with d := { x.d with bw := w } }) :=
        DRun.Sound.flushPending (h.setD rfl)
      dsimp only
      split
      · exact storedCopy_sound _ _ (headed _)
      · exact ih _ (storedCopy_sound _ _ (headed _))

/-- A slide of the stored function is counted up to 2 (R370). -/
theorem storedSlide_settings {d : DState} (h : d.settings.Ok c t) : (storedSlide d).settings.Ok c t := by
  refine ⟨h.wrap, h.conf, h.tune, h.lastFlush, ?_⟩
  show (if d.slides < 2 then d.slides + 1 else d.slides) ≤ 2
  have slides : d.slides ≤ 2 := h.slides
  split <;> omega

theorem storedKeep_sound (used : Nat) (h : x.Sound p c t) : (storedKeep used x).Sound p c t := by
  have g := h.settings
  rw [storedKeep]
  split
  · exact h
  dsimp only
  refine ⟨h.params, h.totals, h.mem, ?_⟩
  split
  · exact ⟨g.wrap, g.conf, g.tune, g.lastFlush, Nat.le_refl _⟩
  split
  · exact ⟨g.wrap, g.conf, g.tune, g.lastFlush, (storedSlide_settings g).slides⟩
  · exact ⟨g.wrap, g.conf, g.tune, g.lastFlush, g.slides⟩

theorem storedFill_sound (h : x.Sound p c t) : (storedFill x).Sound p c t := by
  have g := h.settings
  rw [storedFill]
  dsimp only
  split
  · have slid : DRun.Sound p c t
        { x with d := storedSlide { x.d with blockStart := x.d.blockStart - x.d.conf.wSize } } :=
      ⟨h.params, h.totals, h.mem, storedSlide_settings (d := { x.d with blockStart := _ }) g⟩
    exact (slid.readIn _).setD rfl
  · exact (h.readIn _).setD rfl

theorem storedFromWindow_sound (flush : Nat) (h : x.Sound p c t) : (storedFromWindow flush x).2.Sound p c t := by
  rw [storedFromWindow]
  dsimp only
  split
  · exact DRun.Sound.flushPending (h.setD rfl)
  · exact h

theorem deflateStored_sound (flush : Nat) (h : x.Sound p c t) : (deflateStored flush x).2.Sound p c t := by
  have direct := storedDirect_sound flush (blockLeft x.d + x.regs.availIn.toNat + 1) x h
  rw [deflateStored]
  generalize storedDirect flush _ x = q at direct
  obtain ⟨last, y⟩ := q
  have kept := storedKeep_sound (x.regs.availIn.toNat - y.regs.availIn.toNat) direct
  dsimp only
  split
  · exact kept
  split
  · exact kept
  · exact storedFromWindow_sound flush (storedFill_sound kept)

/-- Every strategy function keeps a run sound (44 R371). -/
theorem runStrategy_sound (flush : Nat) (h : x.Sound p c t) : (runStrategy flush x).2.Sound p c t := by
  have loop {step : DRun → Pass × DRun} (keeps : ∀ y : DRun, y.Sound p c t → (step y).2.Sound p c t) (n : Nat) :
      (strategyLoop step n x).2.Sound p c t := strategyLoop_keeps keeps n x h
  rw [runStrategy]
  split
  · exact deflateStored_sound flush h
  split
  · exact loop (huffStep_sound flush) _
  split
  · exact loop (rleStep_sound flush) _
  split
  · exact loop (fastStep_sound flush) _
  · exact loop (slowStep_sound flush) _

/-! ### DEFLATE_CALL (44 R381) -/

theorem callChecks_sound (flush : Nat) (h : x.Sound p c t) : (callChecks flush x).2.Sound p c t := by
  rw [callChecks]
  split
  · exact h
  split
  · exact h.say _
  split
  · exact h.say _
  · exact h

theorem drainPending_sound {flush : Nat} (hf : flush ≤ 5) (x : DRun) (h : x.Sound p c t) :
    (drainPending flush x).2.Sound p c t := by
  have set := h.setLastFlush (f := flush) (by omega)
  rw [drainPending]
  dsimp only
  split
  · split
    · exact set.flushPending.setLastFlush (by decide)
    · exact set.flushPending
  · split
    · exact set.say _
    · exact set

theorem refuseLateInput_sound (x : DRun) (h : x.Sound p c t) : (refuseLateInput x).2.Sound p c t := by
  rw [refuseLateInput]
  split
  · exact h.say _
  · exact h

theorem writeHeader_sound (h : x.Sound p c t) : (writeHeader x).Sound p c t := ⟨h.params, h.totals, h.mem, h.settings⟩

theorem startStream_sound (x : DRun) (h : x.Sound p c t) : (startStream x).2.Sound p c t := by
  have headed := ((writeHeader_sound h).setStatus .busy).flushPending
  rw [startStream]
  split
  · split
    · exact h.setStatus _
    dsimp only
    split
    · exact headed.setLastFlush (by decide)
    · exact headed
  · exact h

/-- A call that ends with no output room left says so in last_flush (R381). -/
theorem outputFull_sound (h : x.Sound p c t) : (if x.regs.availOut = 0 then x.setLastFlush (-1) else x).Sound p c t := by
  split
  · exact h.setLastFlush (by decide)
  · exact h

theorem afterStrategy_sound (flush : Nat) (b : BState) (h : x.Sound p c t) : (afterStrategy flush b x).2.Sound p c t := by
  have acted := (h.setD (flushActions_settings flush x.d)).flushPending
  cases b with
  | needMore => exact outputFull_sound h
  | blockDone =>
    rw [afterStrategy]
    split
    · exact acted.setLastFlush (by decide)
    · exact acted
  | finishStarted => exact outputFull_sound (h.setStatus .finish)
  | finishDone => exact h.setStatus .finish

theorem compressInput_sound (flush : Nat) (x : DRun) (h : x.Sound p c t) : (compressInput flush x).2.Sound p c t := by
  rw [compressInput]
  split
  · exact afterStrategy_sound flush _ (runStrategy_sound flush h)
  · exact h

theorem writeTrailer_sound (h : x.Sound p c t) : (writeTrailer x).Sound p c t := by
  have flushed := (h.setD (d := { x.d with bw := x.d.bw.putWordMsb x.regs.adler }) rfl).flushPending
  obtain ⟨wrap, conf, tune, lastFlush, slides⟩ := flushed.settings
  refine ⟨flushed.params, flushed.totals, flushed.mem, ?_, conf, tune, lastFlush, slides⟩
  have ended (w : Int) (hw : w = 1 ∨ w = 0 ∨ w = -1) :
      (if 0 < w then -w else w) = 1 ∨ (if 0 < w then -w else w) = 0 ∨ (if 0 < w then -w else w) = -1 := by
    split <;> omega
  exact ended _ wrap

theorem endStream_sound (flush : Nat) (h : x.Sound p c t) : (endStream flush x).2.Sound p c t := by
  rw [endStream]
  split
  · exact h
  split
  · exact h
  · exact writeTrailer_sound h

/-- DEFLATE_CALL keeps a run sound; a flush value it does not know ends it at once (R381). -/
theorem deflateCall_sound (flush : Nat) (h : x.Sound p c t) : (deflateCall flush x).2.Sound p c t := by
  have phases : (unlessEnded (unlessEnded (unlessEnded (unlessEnded (callChecks flush x) (drainPending flush))
      refuseLateInput) startStream) (compressInput flush)).2.Sound p c t := by
    by_cases hf : flush ≤ 5
    · exact unlessEnded_keeps (unlessEnded_keeps (unlessEnded_keeps
        (unlessEnded_keeps (callChecks_sound flush h) (drainPending_sound hf)) refuseLateInput_sound) startStream_sound)
        (compressInput_sound flush)
    · rw [callChecks, if_pos (show zBlock < flush from Nat.lt_of_not_le hf)]
      exact h
  rw [deflateCall]
  generalize unlessEnded _ (compressInput flush) = q at phases
  obtain ⟨_ | st, y⟩ := q
  · exact endStream_sound flush phases
  · exact phases

/-! ### Preset dictionary (44 R385) -/

theorem dictLoop_sound (n : Nat) (x : DRun) (h : x.Sound p c t) : (dictLoop n x).Sound p c t := by
  induction n generalizing x with
  | zero => exact h
  | succ n ih =>
    rw [dictLoop]
    split
    · exact ih _ (h.setD (d := { insertStrings _ _ x.d with strstart := _, lookahead := 2 })
        (insertStrings_settings (x.d.lookahead - 2) x.d.strstart x.d)).fillWindow
    · exact h

theorem loadDictionary_sound (addr n : Word) (h : x.Sound p c t) : (loadDictionary addr n x).Sound p c t := by
  obtain ⟨wrap, conf, tune, lastFlush, slides⟩ := h.settings
  rw [loadDictionary]
  dsimp only
  generalize hd : (if x.d.conf.wSize ≤ n.toNat ∧ x.d.wrap = 0 then forgetWindow x.d else x.d) = d
  have raw : ({ d with wrap := 0 } : DState).settings.Ok c t := by
    subst hd
    split <;> exact ⟨.inr (.inl rfl), conf, tune, lastFlush, slides⟩
  generalize hr : (if x.d.wrap = 1 then _ else x.regs) = r
  have totals : r.TotalsOk p := by
    subst hr
    split
    · exact h.totals.setAdler _
    · exact h.totals
  generalize hy : dictLoop _ _ = y
  have loaded : y.Sound p c t := by
    subst hy
    exact dictLoop_sound _ _ (DRun.Sound.fillWindow ⟨h.params, totals, h.mem, raw⟩)
  obtain ⟨-, conf', tune', lastFlush', slides'⟩ := loaded.settings
  exact ⟨loaded.params, loaded.totals, loaded.mem, wrap, conf', tune', lastFlush', slides'⟩

end

/-! ### The commands -/

/-- A D-engine's run that leaves a safe context and a memory in its canonical form. -/
structure DRun.Ok (p : Params) (x : DRun) : Prop where
  params : x.params = p
  totals : x.regs.TotalsOk p
  mem : x.mem.wf = true
  d : x.d.Ok

theorem DRun.Ok.sound {p : Params} {x : DRun} (h : x.Ok p) : x.Sound p x.d.conf x.d.tune :=
  ⟨h.params, h.totals, h.mem, h.d.settings⟩

theorem DRun.Ok.of_sound {p : Params} {x y : DRun} (h : x.Ok p) (s : y.Sound p x.d.conf x.d.tune)
    (cursors : y.d.CursorsOk) : y.Ok p := ⟨s.params, s.totals, s.mem, h.d.of_settings s.settings cursors⟩

/-- The window is two windows long (10_state R40). -/
theorem DState.Ok.windowSize {d : DState} (h : d.Ok) : d.conf.windowSize = 2 * d.conf.wSize := by
  obtain ⟨wBits, memLevel, -, -, -, -, conf⟩ := h.conf
  rw [conf]
  rfl

theorem deflateCall_ok {p : Params} (flush : Nat) {x : DRun} (h : x.Ok p) : (deflateCall flush x).2.Ok p :=
  h.of_sound (deflateCall_sound flush h.sound) (deflateCall_cursors flush x h.d.cursors h.d.windowSize)

theorem loadDictionary_ok {p : Params} (addr n : Word) {x : DRun} (h : x.Ok p) : (loadDictionary addr n x).Ok p :=
  h.of_sound (loadDictionary_sound addr n h.sound) (loadDictionary_cursors addr n x h.d.cursors h.d.windowSize)

/-- DRESET keeps a D-engine safe (44 R383). -/
theorem resetDeflate_ok {d : DState} (h : d.Ok) : (resetDeflate d).Ok := by
  have wrap := h.wrap
  refine h.of_settings ⟨?_, rfl, h.row.symm, ⟨Int.le_refl _, show (-2 : Int) ≤ 5 by decide⟩, Nat.zero_le _⟩
    (resetDeflate_cursors d)
  show (if d.wrap < 0 then -d.wrap else d.wrap) = 1 ∨ (if d.wrap < 0 then -d.wrap else d.wrap) = 0 ∨
    (if d.wrap < 0 then -d.wrap else d.wrap) = -1
  split <;> omega

/-- A level's row is the row of its own level and strategy (41 R200). -/
theorem configRow_self {level : Nat} (h : level ≤ 9) (strategy : Nat) :
    configRow level strategy = configRow (configRow level strategy).level (configRow level strategy).strategy := by
  rw [configRow_level level h, configRow_strategy level h]

/-- Another strategy takes its place beside the level's row (44 R384). -/
theorem configRow_setStrategy : ∀ level ≤ 9, ∀ old new,
    { configRow level old with strategy := new } = configRow level new
  | 0, _, _, _ | 1, _, _, _ | 2, _, _, _ | 3, _, _, _ | 4, _, _, _ | 5, _, _, _ | 6, _, _, _ | 7, _, _, _ | 8, _, _, _
  | 9, _, _, _ => rfl

/-- DPARAMS' new tuning is a row of R200, and its other changes leave the settings in their ranges (44 R384). -/
theorem setTune_ok {level strategy : Nat} (hl : level ≤ 9) (hs : strategy ≤ 4) {d : DState} (h : d.Ok)
    (cursors : (setTune level strategy d).CursorsOk) : (setTune level strategy d).Ok := by
  have tune : (setTune level strategy d).tune = configRow level strategy := by
    rw [setTune]
    split
    · rfl
    · rename_i same
      rw [← configRow_setStrategy level hl d.tune.strategy, ← Decidable.not_not.mp same, ← h.row]
  have conf : (setTune level strategy d).conf = d.conf := by
    rw [setTune]
    split
    · exact (leaveStored_same d).conf
    · rfl
  have wrap : (setTune level strategy d).wrap = d.wrap := by
    rw [setTune, leaveStored]
    repeat' split
    all_goals rfl
  have slides : (setTune level strategy d).slides = d.slides ∨ (setTune level strategy d).slides = 0 := by
    rw [setTune, leaveStored]
    split
    · split
      · exact .inr rfl
      · exact .inl rfl
    · exact .inl rfl
  have lastFlush : (setTune level strategy d).lastFlush = d.lastFlush := by
    rw [setTune]
    split
    · exact (leaveStored_same d).lastFlush
    · rfl
  have le := h.slides
  exact { wrap := by rw [wrap]; exact h.wrap, conf := by rw [conf]; exact h.conf
          level := by rw [tune, configRow_level level hl]; exact hl
          strategy := by rw [tune, configRow_strategy level hl]; exact hs
          row := by rw [tune]; exact configRow_self hl strategy
          lastFlush := by rw [lastFlush]; exact h.lastFlush
          slides := by omega, cursors := cursors }

theorem changeParams_ok {p : Params} {level strategy : Nat} (hl : level ≤ 9) (hs : strategy ≤ 4) {x : DRun} (h : x.Ok p) :
    (changeParams level strategy x).2.Ok p := by
  have cursors := changeParams_cursors level strategy hl x h.d.cursors h.d.windowSize
  have called := deflateCall_ok zBlock h
  rw [changeParams] at cursors ⊢
  split at cursors
  · rw [if_pos ‹_›]
    generalize deflateCall zBlock x = q at called cursors
    dsimp only at cursors ⊢
    split at cursors
    · rw [if_pos ‹_›]
      exact called
    · rw [if_neg ‹_›]
      split at cursors
      · rw [if_pos ‹_›]
        exact called
      · rw [if_neg ‹_›]
        exact ⟨called.params, called.totals, called.mem, setTune_ok hl hs called.d cursors⟩
  · rw [if_neg ‹_›]
    exact ⟨h.params, h.totals, h.mem, setTune_ok hl hs h.d cursors⟩

/-! ### DINIT's operands (44 R380) -/

theorem levelOperand_le {w : Word} {level : Nat} (h : levelOperand w = some level) : level ≤ 9 := by
  simp only [levelOperand, Option.ite_none_right_eq_some, Option.some.injEq] at h
  omega

theorem strategyOperand_le {w : Word} {strategy : Nat} (h : strategyOperand w = some strategy) : strategy ≤ 4 := by
  simp only [strategyOperand, Option.ite_none_right_eq_some, Option.some.injEq] at h
  omega

theorem memLevelOperand_range {w : Word} {memLevel : Nat} (h : memLevelOperand w = some memLevel) :
    1 ≤ memLevel ∧ memLevel ≤ 9 := by
  simp only [memLevelOperand, Option.ite_none_right_eq_some, Option.some.injEq] at h
  omega

theorem dWindowOperand_range {w : Word} {wrap : Int} {wBits : Nat} (h : dWindowOperand w = some (wrap, wBits)) :
    (wrap = 1 ∨ wrap = 0) ∧ 9 ≤ wBits ∧ wBits ≤ 15 := by
  simp only [dWindowOperand, Option.ite_none_left_eq_some, Option.some.injEq, Prod.mk.injEq] at h
  obtain ⟨range, rfl, rfl⟩ := h
  refine ⟨by omega, ?_⟩
  generalize (if signedOperand w < 0 then -signedOperand w else signedOperand w) = n at range
  split <;> omega

/-- DINIT builds a safe D-engine (44 R380). -/
theorem dinitState_ok {a b c e : Word} {d : DState} (h : dinitState a b c e = some d) : d.Ok := by
  rw [dinitState] at h
  split at h
  · next wrap wBits memLevel level strategy hWindow hMem hLevel hStrategy =>
    obtain rfl := Option.some.inj h
    obtain ⟨hWrap, bitsLo, bitsHi⟩ := dWindowOperand_range hWindow
    obtain ⟨memLo, memHi⟩ := memLevelOperand_range hMem
    have hl := levelOperand_le hLevel
    refine resetDeflate_ok
      { wrap := hWrap.imp_right .inl, conf := ⟨wBits, memLevel, bitsLo, bitsHi, memLo, memHi, rfl⟩
        level := by rw [configRow_level level hl]; exact hl
        strategy := by rw [configRow_strategy level hl]; exact strategyOperand_le hStrategy
        row := configRow_self hl strategy, lastFlush := ⟨show (-2 : Int) ≤ 0 by decide, show (0 : Int) ≤ 5 by decide⟩
        slides := Nat.zero_le _
        cursors := ⟨Nat.zero_le _, Int.le_refl _, Nat.zero_le _, fun _ => Nat.zero_le _, fun _ => rfl⟩ }
  · cases h

end Sys2Proof.Machine
end

section
/-! PROOFS. An I-engine inside IPROC (47): what of the invariant every step of its state machine keeps. -/

namespace Sys2Proof.Machine

/-! ### The fields the invariant speaks of -/

/-- The fields of an I-engine's run that the invariant speaks of. Runs that differ elsewhere have the same vitals by
definition, so that a step's proof says nothing of the other fields. -/
structure Vitals where
  params : Params
  totalIn : BitVec 64
  totalOut : BitVec 64
  mem : Memory
  wsize : Nat
  whave : Nat
  wnext : Nat
  hold : BitVec 32
  bits : Nat
  mode : Mode
  sane : Bool

def IRun.vitals (x : IRun) : Vitals :=
  { params := x.params, totalIn := x.regs.totalIn, totalOut := x.regs.totalOut, mem := x.mem, wsize := x.i.wsize
    whave := x.i.whave, wnext := x.i.wnext, hold := x.i.hold, bits := x.i.bits, mode := x.i.mode, sane := x.i.sane }

/-- The modes of a stream whose held bits need not be whole bytes (10_state R73). -/
def looseModes : List Mode :=
  [.HEAD, .DICT, .TYPE, .TYPEDO, .STORED, .COPY_, .COPY, .TABLE, .LENLENS, .CODELENS, .LEN_, .LEN, .LENEXT, .DIST, .DISTEXT,
    .MATCH, .LIT, .LENGTH, .DONE, .BAD]

/-- The modes a stream passes through (47 R505). Those left are never entered, but for SYNC, where IPROC does not run. -/
def streamModes : List Mode := .DICTID :: .CHECK :: looseModes

/-- The invariant of a run whose window and leniency are those of `i₀`: no step of the state machine changes these. -/
structure Vitals.Live (p : Params) (i₀ : IState) (v : Vitals) : Prop where
  params : v.params = p
  totals : p.total64 = false → v.totalIn.toNat < 2 ^ 32 ∧ v.totalOut.toNat < 2 ^ 32
  mem : v.mem.wf = true
  wsize : v.wsize = i₀.wsize
  whave : v.whave = i₀.whave
  wnext : v.wnext = i₀.wnext
  sane : v.sane = i₀.sane
  hold : v.hold.toNat < 2 ^ v.bits
  bits : v.bits ≤ 32
  whole : v.mode = .DICTID ∨ v.mode = .CHECK → v.bits % 8 = 0
  mode : v.mode ∈ streamModes

def IRun.Live (p : Params) (i₀ : IState) (x : IRun) : Prop := x.vitals.Live p i₀

theorem loose_not_whole {m : Mode} (h : m ∈ looseModes) : ¬ (m = .DICTID ∨ m = .CHECK) := by
  rintro (rfl | rfl) <;> exact absurd h (by decide)

theorem loose_mem_streamModes {m : Mode} (h : m ∈ looseModes) : m ∈ streamModes :=
  List.mem_cons_of_mem _ (List.mem_cons_of_mem _ h)

theorem loose_of_mode {x : IRun} {m : Mode} (e : x.i.mode = m) (h : m ∈ looseModes) : x.vitals.mode ∈ looseModes :=
  (show x.vitals.mode = m from e) ▸ h

/-- Dropping bits keeps the accumulator 0 above those left (10_state R72). -/
theorem toNat_ushiftRight_lt {hold : BitVec 32} {bits : Nat} (h : hold.toNat < 2 ^ bits) (n : Nat) :
    (hold >>> n).toNat < 2 ^ (bits - n) := by
  rw [BitVec.toNat_ushiftRight, Nat.shiftRight_eq_div_pow, Nat.div_lt_iff_lt_mul (Nat.two_pow_pos _), ← Nat.pow_add]
  exact Nat.lt_of_lt_of_le h (Nat.pow_le_pow_right (by decide) (by omega))

section
variable {p : Params} {i₀ : IState}

section
variable {v : Vitals} (h : v.Live p i₀)
include h

/-- Another mode, of those that hold any number of bits. -/
theorem Vitals.Live.enter (m : Mode) (hm : m ∈ looseModes) : Vitals.Live p i₀ { v with mode := m } :=
  { h with whole := fun e => absurd e (loose_not_whole hm), mode := loose_mem_streamModes hm }

/-- DROPBITS in such a mode. -/
theorem Vitals.Live.drop (hm : v.mode ∈ looseModes) (n : Nat) :
    Vitals.Live p i₀ { v with hold := v.hold >>> n, bits := v.bits - n } :=
  { h with hold := toNat_ushiftRight_lt h.hold n, bits := Nat.le_trans (Nat.sub_le ..) h.bits
           whole := fun e => absurd e (loose_not_whole hm) }

/-- BYTEBITS leaves whole bytes, whatever mode follows. -/
theorem Vitals.Live.align (m : Mode) (hm : m ∈ streamModes) :
    Vitals.Live p i₀ { v with hold := v.hold >>> (v.bits % 8), bits := v.bits - v.bits % 8, mode := m } :=
  { h with hold := toNat_ushiftRight_lt h.hold _, bits := Nat.le_trans (Nat.sub_le ..) h.bits
           whole := fun _ => by dsimp only; omega
           mode := hm }

/-- INITBITS leaves none. -/
theorem Vitals.Live.restart (m : Mode) (hm : m ∈ streamModes) :
    Vitals.Live p i₀ { v with hold := 0, bits := 0, mode := m } :=
  { h with hold := show (0 : BitVec 32).toNat < 2 ^ 0 by decide, bits := Nat.zero_le _, whole := fun _ => rfl, mode := hm }

theorem Vitals.Live.write {m : Memory} (hm : m.wf = true) : Vitals.Live p i₀ { v with mem := m } := { h with mem := hm }

theorem Vitals.Live.produce (n : Nat) : Vitals.Live p i₀ { v with totalOut := addTotal v.params v.totalOut n } :=
  { h with totals := fun narrow => ⟨(h.totals narrow).1, h.params ▸ toNat_addTotal_lt narrow ..⟩ }

end

namespace IRun

variable {x : IRun}

/-! ### The bit reader (45 R432, R433, R439) -/

theorem pullByte_live (hp : ¬ x.cannotPull = true) (h : x.Live p i₀) : x.pullByte.Live p i₀ :=
  { show x.vitals.Live p i₀ from h with
    hold := (pullByte_hold hp h.hold).2
    bits := by have := canPull hp; show x.i.bits + 8 ≤ 32; omega
    whole := fun e => by have := h.whole e; show (x.i.bits + 8) % 8 = 0; rw [Nat.add_mod_right]; exact this
    mode := h.mode }

theorem fillBits_live (n fuel : Nat) (x : IRun) (h : x.Live p i₀) : (fillBits n fuel x).2.Live p i₀ := by
  induction fuel generalizing x with
  | zero => exact h
  | succ fuel ih =>
    rw [fillBits]
    split
    · exact h
    split
    · exact h
    · exact ih _ (pullByte_live ‹_› h)

theorem lookupLoop_live (see : IRun → Entry) (extra fuel : Nat) (x : IRun) (h : x.Live p i₀) :
    (lookupLoop see extra fuel x).2.Live p i₀ := by
  induction fuel generalizing x with
  | zero => exact h
  | succ fuel ih =>
    rw [lookupLoop]
    split
    · exact h
    split
    · exact h
    · exact ih _ (pullByte_live ‹_› h)

theorem Pulled.mode {x y : IRun} (h : Pulled x y) : y.i.mode = x.i.mode := by rw [h.priv]

theorem needBits_live {n : Nat} {k : IRun → Ctl × IRun} (h : x.Live p i₀)
    (hk : ∀ y : IRun, y.Live p i₀ → y.i.mode = x.i.mode → (k y).2.Live p i₀) : (x.needBits n k).2.Live p i₀ := by
  have live := fillBits_live n 4 x h
  have mode := (pulled_fillBits n 4 x).mode
  rw [needBits]
  generalize fillBits n 4 x = q at live mode
  obtain ⟨_ | _, y⟩ := q
  · exact live
  · exact hk y live mode

theorem findEntry_live {see : IRun → Entry} {extra : Nat} {k : Entry → IRun → Ctl × IRun} (h : x.Live p i₀)
    (hk : ∀ e (y : IRun), y.Live p i₀ → y.i.mode = x.i.mode → (k e y).2.Live p i₀) :
    (x.findEntry see extra k).2.Live p i₀ := by
  have live := lookupLoop_live see extra (x.avail + 1) x h
  have mode := (pulled_lookupLoop see extra (x.avail + 1) x).mode
  rw [findEntry]
  generalize lookupLoop see extra (x.avail + 1) x = q at live mode
  obtain ⟨_ | e, y⟩ := q
  · exact live
  · exact hk e y live mode

/-! ### Stream header (R510, R511) -/

theorem readHeader_live (h : x.Live p i₀) (hm : x.i.mode = .HEAD) : x.readHeader.Live p i₀ := by
  have bad : ∀ {y : IRun} (m : Msg), y.Live p i₀ → (y.bad m).Live p i₀ := fun _ g => g.enter .BAD (by decide)
  have mode (b : Bool) : (if b = true then Mode.DICTID else .TYPE) ∈ streamModes := by cases b <;> decide
  have dropped : (x.dropBits 4).Live p i₀ := h.drop (loose_of_mode hm (by decide)) 4
  rw [readHeader]
  split
  · exact bad _ h
  split
  · exact bad _ h
  dsimp only
  split <;> split
  · exact bad _ dropped
  · exact dropped.restart _ (mode _)
  · exact bad _ dropped
  · exact dropped.restart _ (mode _)

theorem headStep_live (h : x.Live p i₀) (hm : x.i.mode = .HEAD) : x.headStep.2.Live p i₀ := by
  rw [headStep]
  split
  · exact h.enter .TYPEDO (by decide)
  · exact needBits_live h fun y hy e => readHeader_live hy (e.trans hm)

theorem dictIdStep_live (h : x.Live p i₀) : x.dictIdStep.2.Live p i₀ :=
  needBits_live h fun _ hy _ => hy.restart .DICT (by decide)

theorem dictStep_live (h : x.Live p i₀) : x.dictStep.2.Live p i₀ := by
  rw [dictStep]
  split
  · exact h
  · exact h.enter .TYPE (by decide)

/-! ### Blocks (R512 to R514) -/

theorem typeStep_live (h : x.Live p i₀) : x.typeStep.2.Live p i₀ := by
  rw [typeStep]
  split
  · exact h
  · exact h.enter .TYPEDO (by decide)

theorem blockType_live (h : x.Live p i₀) : x.blockType.2.Live p i₀ := by
  have enter (m : Mode) (hm : m ∈ looseModes) := (h.enter m hm).drop hm 2
  rw [blockType]
  split
  · exact enter .STORED (by decide)
  · exact enter .LEN_ (by decide)
  · exact enter .TABLE (by decide)
  · exact enter .BAD (by decide)

theorem typeDoStep_live (h : x.Live p i₀) (hm : x.i.mode = .TYPEDO) : x.typeDoStep.2.Live p i₀ := by
  rw [typeDoStep]
  split
  · exact h.align .CHECK (by decide)
  · refine needBits_live h fun y hy e => blockType_live ?_
    exact hy.drop (loose_of_mode (e.trans hm) (by decide)) 1

theorem storedStep_live (h : x.Live p i₀) : x.storedStep.2.Live p i₀ := by
  refine needBits_live (x := x.byteBits) (h.align x.i.mode h.mode) fun y hy _ => ?_
  dsimp only
  split
  · exact hy.enter .BAD (by decide)
  · exact hy.restart .COPY_ (by decide)

theorem copyStep_live (h : x.Live p i₀) : x.copyStep.2.Live p i₀ := by
  rw [copyStep]
  split
  · exact h.enter .TYPE (by decide)
  dsimp only
  split
  · exact h
  · exact h.write (copyBytes_wf h.mem)

/-! ### Dynamic block header (R515, R516) -/

theorem tableStep_live (h : x.Live p i₀) (hm : x.i.mode = .TABLE) : x.tableStep.2.Live p i₀ := by
  refine needBits_live h fun y hy e => ?_
  have loose  := loose_of_mode (x := y) (e.trans hm) (by decide)
  have dropped := ((hy.drop loose 5).drop loose 5).drop loose 4
  dsimp only
  split
  · exact dropped.enter .BAD (by decide)
  · exact dropped.enter .LENLENS (by decide)

theorem buildBlTable_live (h : x.Live p i₀) : x.buildBlTable.Live p i₀ := by
  rw [buildBlTable]
  dsimp only
  split
  · exact h.enter .BAD (by decide)
  · exact h.enter .CODELENS (by decide)

theorem lenLensStep_live (h : x.Live p i₀) (hm : x.i.mode = .LENLENS) : x.lenLensStep.2.Live p i₀ := by
  rw [lenLensStep]
  split
  · refine needBits_live h fun y hy e => ?_
    exact hy.drop (loose_of_mode (e.trans hm) (by decide)) 3
  split
  · exact h
  · exact buildBlTable_live h

theorem repeatLen_live (len copy : Nat) (h : x.Live p i₀) : (x.repeatLen len copy).Live p i₀ := by
  rw [repeatLen]
  split
  · exact h.enter .BAD (by decide)
  · exact h

theorem clEntry_live (here : Entry) (h : x.Live p i₀) (hm : x.i.mode = .CODELENS) : (x.clEntry here).2.Live p i₀ := by
  have loose {y : IRun} (e : y.i.mode = x.i.mode) := loose_of_mode (e.trans hm) (by decide)
  rw [clEntry]
  split
  · exact h.drop (loose rfl) _
  split
  · refine needBits_live h fun y hy e => ?_
    have dropped := hy.drop (loose e) here.bits.toNat
    dsimp only
    split
    · exact dropped.enter .BAD (by decide)
    · exact repeatLen_live _ _ (dropped.drop (loose e) 2)
  split
  · exact needBits_live h fun y hy e =>
      repeatLen_live _ _ (Vitals.Live.drop (hy.drop (loose e) here.bits.toNat) (loose e) 3)
  · exact needBits_live h fun y hy e =>
      repeatLen_live _ _ (Vitals.Live.drop (hy.drop (loose e) here.bits.toNat) (loose e) 7)

theorem buildTables_live (h : x.Live p i₀) : x.buildTables.2.Live p i₀ := by
  rw [buildTables]
  split
  · exact h.enter .BAD (by decide)
  dsimp only
  split
  · exact h.enter .BAD (by decide)
  split
  · exact h.enter .BAD (by decide)
  · exact h.enter .LEN_ (by decide)

theorem codeLensStep_live (h : x.Live p i₀) (hm : x.i.mode = .CODELENS) : x.codeLensStep.2.Live p i₀ := by
  rw [codeLensStep]
  split
  · exact findEntry_live h fun e y hy he => clEntry_live e hy (he.trans hm)
  · exact buildTables_live h

/-! ### Symbols (R520 to R525) -/

theorem resolveLink_live {k : Entry → IRun → Ctl × IRun} (isLink : Bool) (view : View) (here : Entry) (h : x.Live p i₀)
    (loose : x.i.mode ∈ looseModes) (hk : ∀ e (y : IRun), y.Live p i₀ → (k e y).2.Live p i₀) :
    (x.resolveLink isLink view here k).2.Live p i₀ := by
  rw [resolveLink]
  split
  · refine findEntry_live h fun e y hy he => hk _ _ ?_
    have loose := loose_of_mode he loose
    exact Vitals.Live.drop (hy.drop loose here.bits.toNat) loose e.bits.toNat
  · exact hk _ _ (h.drop loose _)

theorem lenAction_live (here : Entry) (x : IRun) (h : x.Live p i₀) : (x.lenAction here).2.Live p i₀ := by
  rw [lenAction]
  dsimp only
  split
  · exact h.enter .LIT (by decide)
  split
  · exact h.enter .TYPE (by decide)
  split
  · exact h.enter .BAD (by decide)
  · exact h.enter .LENEXT (by decide)

theorem distAction_live (here : Entry) (x : IRun) (h : x.Live p i₀) : (x.distAction here).2.Live p i₀ := by
  rw [distAction]
  split
  · exact h.enter .BAD (by decide)
  · exact h.enter .DISTEXT (by decide)

theorem lenEntry_live (here : Entry) (h : x.Live p i₀) (loose : x.i.mode ∈ looseModes) : (x.lenEntry here).2.Live p i₀ :=
  resolveLink_live _ _ here h loose lenAction_live

theorem distEntry_live (here : Entry) (h : x.Live p i₀) (loose : x.i.mode ∈ looseModes) :
    (x.distEntry here).2.Live p i₀ := resolveLink_live _ _ here h loose distAction_live

theorem lenExtStep_live (h : x.Live p i₀) (hm : x.i.mode = .LENEXT) : x.lenExtStep.2.Live p i₀ := by
  rw [lenExtStep]
  split
  · exact h.enter .DIST (by decide)
  · refine needBits_live h fun y hy e => ?_
    have dropped := hy.drop (loose_of_mode (e.trans hm) (by decide)) y.i.extra
    exact dropped.enter .DIST (by decide)

theorem distExtStep_live (h : x.Live p i₀) (hm : x.i.mode = .DISTEXT) : x.distExtStep.2.Live p i₀ := by
  rw [distExtStep]
  split
  · exact h.enter .MATCH (by decide)
  · refine needBits_live h fun y hy e => ?_
    have dropped := hy.drop (loose_of_mode (e.trans hm) (by decide)) y.i.extra
    exact dropped.enter .MATCH (by decide)

/-- MATCH_COPY writes host memory, and ends in the same mode, in LEN or in BAD (48 R587, R588). -/
theorem matchCopy_live (h : x.Live p i₀) : x.matchCopy.Live p i₀ := by
  have window (src most : Nat) : (x.copyWindow src most).Live p i₀ := h.write (Memory.writeN_wf h.mem)
  have fill (copy : Nat) : (x.lenientFill copy).Live p i₀ := by
    have written (n : Nat) := h.write (Memory.writeN_wf (vs := List.replicate n 0) (a := x.put) h.mem)
    rw [lenientFill]
    split
    · exact (written _).enter .LEN (by decide)
    · exact written _
  rw [matchCopy]
  dsimp only
  split
  · split
    · split
      · exact h.enter .BAD (by decide)
      · exact fill _
    split
    · exact window ..
    · exact window ..
  · exact h.write (copyBytes_wf h.mem)

theorem matchStep_live (h : x.Live p i₀) : x.matchStep.2.Live p i₀ := by
  have copied := matchCopy_live h
  rw [matchStep]
  split
  · exact h
  dsimp only
  split
  · exact copied.enter .LEN (by decide)
  · exact copied

theorem litStep_live (h : x.Live p i₀) : x.litStep.2.Live p i₀ := by
  rw [litStep]
  split
  · exact h
  · exact (h.write (Memory.write_wf h.mem)).enter .LEN (by decide)

/-! ### End of stream (R528) -/

theorem checkOutput_live (h : x.Live p i₀) : x.checkOutput.Live p i₀ := by
  have produced := h.produce (x.out - x.left)
  rw [checkOutput]
  dsimp only
  split <;> exact produced

theorem checkStep_live (h : x.Live p i₀) : x.checkStep.2.Live p i₀ := by
  rw [checkStep]
  split
  · exact h.enter .LENGTH (by decide)
  · refine needBits_live h fun y hy _ => ?_
    have checked := checkOutput_live hy
    dsimp only
    split
    · exact checked.enter .BAD (by decide)
    · exact checked.restart .LENGTH (by decide)

/-! ### The state machine (R502) -/

/-- A step of the state machine keeps the invariant. -/
theorem iStep_live (x : IRun) (h : x.Live p i₀) : x.iStep.2.Live p i₀ := by
  rw [iStep]
  cases hm : x.i.mode with
  | HEAD => exact headStep_live h hm
  | DICTID => exact dictIdStep_live h
  | DICT => exact dictStep_live h
  | TYPE => exact typeStep_live h
  | TYPEDO => exact typeDoStep_live h hm
  | STORED => exact storedStep_live h
  | COPY => exact copyStep_live h
  | TABLE => exact tableStep_live h hm
  | LENLENS => exact lenLensStep_live h hm
  | CODELENS => exact codeLensStep_live h hm
  | LEN => exact findEntry_live h fun e y hy he => lenEntry_live e hy (by rw [he, hm]; decide)
  | LENEXT => exact lenExtStep_live h hm
  | DIST => exact findEntry_live h fun e y hy he => distEntry_live e hy (by rw [he, hm]; decide)
  | DISTEXT => exact distExtStep_live h hm
  | MATCH => exact matchStep_live h
  | LIT => exact litStep_live h
  | CHECK => exact checkStep_live h
  | COPY_ => exact h.enter .COPY (by decide)
  | LEN_ => exact h.enter .LEN (by decide)
  | LENGTH => exact h.enter .DONE (by decide)
  | DONE | BAD | MEM | SYNC | FLAGS | TIME | OS | EXLEN | EXTRA | NAME | COMMENT | HCRC => exact h

theorem iLoop_live (n : Nat) (x : IRun) (h : x.Live p i₀) : (x.iLoop n).2.Live p i₀ := by
  induction n generalizing x with
  | zero => exact h
  | succ n ih =>
    have stepped := iStep_live x h
    rw [iLoop]
    generalize x.iStep = q at stepped
    obtain ⟨_ | _ | _ | _, y⟩ := q
    · exact ih y stepped
    · exact stepped
    · exact stepped
    · exact stepped

/-! ### The I-engine a run starts from and leaves -/

theorem mem_streamModes {m : Mode} (entered : m.Entered) (notSync : m ≠ .SYNC) : m ∈ streamModes := by
  cases m
  case SYNC => exact absurd rfl notSync
  case FLAGS | TIME | OS | EXLEN | EXTRA | NAME | COMMENT | HCRC | MEM => exact absurd (by decide) entered
  all_goals decide

theorem entered_of_mem_streamModes {m : Mode} (h : m ∈ streamModes) : m.Entered ∧ m ≠ .SYNC :=
  (by decide : ∀ m ∈ streamModes,
    m ∉ [Mode.FLAGS, .TIME, .OS, .EXLEN, .EXTRA, .NAME, .COMMENT, .HCRC, .MEM] ∧ m ≠ .SYNC) m h

theorem live_of_ok (params : x.params = p) (totals : x.regs.TotalsOk p) (mem : x.mem.wf = true) (h : x.i.Ok p)
    (notSync : x.i.mode ≠ .SYNC) : x.Live p x.i :=
  { params, totals, mem, wsize := rfl, whave := rfl, wnext := rfl, sane := rfl, hold := h.hold, bits := h.bits.le
    whole := h.bits.whole, mode := mem_streamModes h.mode notSync }

theorem Live.ok (h : x.Live p i₀) (h₀ : i₀.Ok p) : x.i.Ok p := by
  have sane : x.i.sane = i₀.sane := h.sane
  obtain ⟨entered, notSync⟩ := entered_of_mem_streamModes h.mode
  exact { window := h₀.window.same h.wsize h.whave h.wnext, hold := h.hold, bits := ⟨h.bits, h.whole⟩, mode := entered
          sane := fun build => by rw [sane]; exact h₀.sane build
          sync := fun e => absurd e notSync }

end IRun

/-! ### The exits (47 R503, R511, R530) -/

/-- UPDATEWINDOW keeps an I-engine safe (48 R581). -/
theorem updateWindow_ok {i : IState} (h : i.Ok p) (m : Memory) (stop : Word) (n : Nat) : (updateWindow m stop n i).Ok p := by
  have window := updateWindow_windowOk h.window m stop n
  rw [updateWindow_frame] at window ⊢
  exact { window := window, hold := h.hold, bits := ⟨h.bits.le, h.bits.whole⟩, mode := h.mode, sane := h.sane
          sync := h.sync }

theorem IState.Ok.setCheck {i : IState} (h : i.Ok p) (sum : Word) : IState.Ok p { i with check := sum } :=
  ⟨h.window.same rfl rfl rfl, h.hold, ⟨h.bits.le, h.bits.whole⟩, h.mode, h.sane, h.sync⟩

/-- An I-engine's run that leaves a safe context and a memory in its canonical form. -/
structure IRun.Ok (p : Params) (x : IRun) : Prop where
  params : x.params = p
  totals : x.regs.TotalsOk p
  mem : x.mem.wf = true
  i : x.i.Ok p

namespace IRun

variable {x : IRun}

theorem restore_ok (h : x.Ok p) : x.restore.Ok p := ⟨h.params, h.totals, h.mem, h.i⟩

theorem exitWindow_ok (h : x.Ok p) : x.exitWindow.Ok p := by
  rw [exitWindow]
  split
  · exact ⟨h.params, h.totals, h.mem, updateWindow_ok h.i ..⟩
  · exact h

theorem exitCounts_ok (h : x.Ok p) : x.exitCounts.Ok p := by
  have totals (a b : Nat) : p.total64 = false →
      (addTotal x.params x.regs.totalIn a).toNat < 2 ^ 32 ∧ (addTotal x.params x.regs.totalOut b).toNat < 2 ^ 32 := by
    rw [h.params]
    exact fun narrow => ⟨toNat_addTotal_lt narrow .., toNat_addTotal_lt narrow ..⟩
  rw [exitCounts]
  dsimp only
  split
  · exact ⟨h.params, fun narrow => totals _ _ narrow, h.mem, h.i.setCheck _⟩
  · exact ⟨h.params, totals _ _, h.mem, h.i⟩

/-- EXIT (47 R503): its last change is DATA_TYPE. -/
theorem leaveCall_ok (ret : Status) (h : x.Ok p) : (leaveCall ret x).2.Ok p := by
  have left := exitCounts_ok (exitWindow_ok (restore_ok h))
  exact ⟨left.params, left.totals, left.mem, left.i⟩

/-- Every end of a call leaves a safe run, the registers `r` being those the call began with. -/
theorem finishCall_ok {r : Regs} (hr : r.TotalsOk p) {q : Ctl × IRun} (h : q.2.Ok p) : (finishCall r q).2.Ok p := by
  obtain ⟨_ | ret | _ | _, x⟩ := q
  · exact leaveCall_ok .ok h
  · exact leaveCall_ok ret h
  · exact restore_ok h
  · exact ⟨h.params, hr, h.mem, h.i⟩

end IRun

/-- In SYNC IPROC ends at once and changes nothing (47 R530). -/
theorem inflateCall_sync {flush : Nat} {r : Regs} {i : IState} {m : Memory} (hm : i.mode = .SYNC) :
    inflateCall p flush r i m = (.streamError, IRun.load p flush r i m) := by
  have step : (IRun.load p flush r i m).iStep = (.abort .streamError, IRun.load p flush r i m) := by
    rw [IRun.iStep, show (IRun.load p flush r i m).i.mode = .SYNC from hm]
  rw [inflateCall, if_neg (by rw [hm]; decide)]
  rw [IRun.stepBound, IRun.iLoop, step]
  rfl

/-- IPROC keeps an I-engine safe (47 R500). -/
theorem inflateCall_ok (flush : Nat) {r : Regs} {i : IState} {m : Memory} (totals : r.TotalsOk p) (mem : m.wf = true)
    (h : i.Ok p) : (inflateCall p flush r i m).2.Ok p := by
  by_cases hm : i.mode = .SYNC
  · rw [inflateCall_sync hm]
    exact ⟨rfl, totals, mem, h⟩
  · rw [inflateCall]
    generalize hj : (if i.mode = .TYPE then { i with mode := .TYPEDO } else i) = j
    have live : (IRun.load p flush r j m).Live p i := by
      have start := IRun.live_of_ok (x := IRun.load p flush r i m) rfl totals mem h hm
      subst hj
      split
      · exact start.enter .TYPEDO (by decide)
      · exact start
    have done := IRun.iLoop_live (IRun.load p flush r j m).stepBound _ live
    exact IRun.finishCall_ok totals ⟨done.params, done.totals, done.mem, done.ok h⟩

end

end Sys2Proof.Machine
end

section
/-! PROOFS. The invariant of the whole machine (O13): every command, every wire element and every other access keeps it. -/

namespace Sys2Proof.Machine

/-! ### Safe outcomes -/

/-- An outcome that is a next state, and a safe one. -/
def SafeNext (o : Host.Outcome State Fault Refusal) : Prop := ∃ t, o = .next t ∧ Inv t

/-- What a command's rule leaves of its context and of memory is safe. -/
structure Done.Ok (p : Params) (r : Done) : Prop where
  mem : r.mem.wf = true
  ctx : Ctx.Ok p { regs := r.regs, slot := r.slot }

theorem Regs.totalsOk_zero {r : Regs} (p : Params) (totalIn : r.totalIn = 0) (totalOut : r.totalOut = 0) : r.TotalsOk p := by
  rw [Regs.TotalsOk, totalIn, totalOut]
  exact fun _ => ⟨by decide, by decide⟩

theorem Ctx.ok_free {p : Params} {r : Regs} (totals : r.TotalsOk p) : Ctx.Ok p { regs := r, slot := .free } :=
  ⟨totals, fun _ e => (nomatch e), fun _ e => (nomatch e)⟩

theorem Ctx.ok_deflate {p : Params} {r : Regs} {d : DState} (totals : r.TotalsOk p) (h : d.Ok) :
    Ctx.Ok p { regs := r, slot := .deflate d } :=
  ⟨totals, fun d' e => by cases e; exact h, fun _ e => (nomatch e)⟩

theorem Ctx.ok_inflate {p : Params} {r : Regs} {i : IState} (totals : r.TotalsOk p) (h : i.Ok p) :
    Ctx.Ok p { regs := r, slot := .inflate i } :=
  ⟨totals, fun _ e => (nomatch e), fun i' e => by cases e; exact h⟩

theorem Ctx.reset_ok (p : Params) : Ctx.reset.Ok p := Ctx.ok_free (Regs.totalsOk_zero p rfl rfl)

theorem DRun.Ok.done {p : Params} {x : DRun} (h : x.Ok p) (st : Status) : (x.done st).Ok p :=
  ⟨h.mem, Ctx.ok_deflate h.totals h.d⟩

section
variable {s : State} (h : Inv s)
include h

theorem Inv.ctx (k : Nat) : (s.ctx k).Ok s.params := by
  rw [State.ctx, List.getD_eq_getElem?_getD]
  cases hc : s.ctxs[k]? with
  | none => exact Ctx.reset_ok _
  | some c => exact h.ctxs c (List.mem_of_getElem? hc)

theorem Inv.setCtx {m : Memory} {c : Ctx} (k : Nat) (mem : m.wf = true) (hc : c.Ok s.params) :
    Inv ({ s with mem := m }.setCtx k c) where
  params := h.params
  mem := mem
  count := by rw [State.setCtx_ctxs, List.length_set]; exact h.count
  ctxs c' hc' := (List.mem_or_eq_of_mem_set hc').elim (h.ctxs c') fun e => e ▸ hc

theorem Inv.setResult (st : Status) : Inv (s.setResult st) := ⟨h.params, h.mem, h.count, h.ctxs⟩

theorem Inv.finish {r : Done} (k : Nat) (hr : r.Ok s.params) : Inv (s.finish k r) :=
  (h.setCtx k hr.mem hr.ctx).setResult r.status

/-- A command that is turned away for its CTX changes RESULT alone (30 R130). -/
theorem onContext_safe {f : State → State} (k : BitVec 8) (hf : Inv (f s)) : SafeNext (onContext k s f) := by
  rw [onContext]
  split
  · exact ⟨_, rfl, hf⟩
  · exact ⟨_, rfl, h.setResult _⟩

/-- A D-engine command is safe when its rule is, on a safe D-engine (60 R624). -/
theorem onDeflate_safe {f : Regs → DState → Done} (k : BitVec 8)
    (hf : ∀ r d, r.TotalsOk s.params → d.Ok → (f r d).Ok s.params) : SafeNext (onDeflate k s f) := by
  refine onContext_safe h k ?_
  have hc := h.ctx k.toNat
  split
  · exact h.finish _ (hf _ _ hc.totals (hc.deflate _ ‹_›))
  · exact h.setResult _
  · exact h.setResult _

/-- An I-engine command is safe when its rule is, on a safe I-engine (60 R624). -/
theorem onInflate_safe {f : Regs → IState → Done} (k : BitVec 8)
    (hf : ∀ r i, r.TotalsOk s.params → i.Ok s.params → (f r i).Ok s.params) : SafeNext (onInflate k s f) := by
  refine onContext_safe h k ?_
  have hc := h.ctx k.toNat
  split
  · exact h.finish _ (hf _ _ hc.totals (hc.inflate _ ‹_›))
  · exact h.setResult _
  · exact h.setResult _

end

/-! ### I-engine states the commands build (47 R540 to R543) -/

/-- IRESET leaves a safe I-engine, whatever stood there (47 R541). -/
theorem resetInflate_ok (p : Params) (i : IState) : (resetInflate i).Ok p where
  window := ⟨Nat.zero_le _, Nat.le_refl _, fun _ => ⟨rfl, rfl⟩, fun e => absurd rfl e, fun _ => rfl⟩
  hold := show (0 : BitVec 32).toNat < 2 ^ 0 by decide
  bits := ⟨Nat.zero_le _, fun _ => rfl⟩
  mode := show Mode.HEAD ∉ _ by decide
  sane _ := rfl
  sync := nofun

/-- The restart after a marker is a reset that goes on in TYPE (47 R543). -/
theorem syncRestart_ok {p : Params} {r : Regs} (totals : r.TotalsOk p) (i : IState) :
    (syncRestart r i).1.TotalsOk p ∧ (syncRestart r i).2.Ok p := by
  have fresh (j : IState) : IState.Ok p { resetInflate j with flags := i.flags, mode := .TYPE } :=
    { window := (resetInflate_ok p j).window.same rfl rfl rfl
      hold := (resetInflate_ok p j).hold, bits := ⟨Nat.zero_le _, fun _ => rfl⟩, mode := show Mode.TYPE ∉ _ by decide
      sane := fun _ => rfl, sync := nofun }
  exact ⟨totals, fresh _⟩

/-- An I-engine in SYNC that has not found the marker is safe (47 R543). -/
theorem enterSync_ok {p : Params} {i : IState} (h : i.Ok p) {got : Nat} (hgot : got < 4) :
    IState.Ok p { enterSync i with haveCnt := got } := by
  by_cases hm : i.mode = .SYNC
  · rw [enterSync, if_pos hm]
    exact ⟨h.window.same rfl rfl rfl, h.hold, ⟨h.bits.le, h.bits.whole⟩, h.mode, h.sane, fun e => ⟨hgot, (h.sync e).2⟩⟩
  · rw [enterSync, if_neg hm]
    refine ⟨h.window.same rfl rfl rfl, ?_, ⟨Nat.zero_le _, fun _ => rfl⟩, show Mode.SYNC ∉ _ by decide, h.sane,
      fun _ => ⟨hgot, rfl⟩⟩
    have empty := toNat_ushiftRight_lt h.hold (i.bits % 8 + 8 * (i.bits / 8))
    rw [Nat.mod_add_div, Nat.sub_self] at empty
    show (i.hold >>> (i.bits % 8 + 8 * (i.bits / 8))).toNat < 2 ^ 0
    rw [Nat.mod_add_div]
    exact empty

theorem syncCall_ok {p : Params} {r : Regs} {i : IState} (m : Memory) (totals : r.TotalsOk p) (h : i.Ok p) :
    (syncCall p r i m).2.1.TotalsOk p ∧ (syncCall p r i m).2.2.Ok p := by
  have got := syncSearch_le (m.readN r.nextIn r.availIn.toNat) (enterSync i).haveCnt 0 (enterSync_spec h.sync).2.2
  rw [syncCall]
  split
  · exact ⟨totals, h⟩
  dsimp only
  split
  · exact ⟨totals.consume _, enterSync_ok h (by omega)⟩
  · exact syncRestart_ok (totals.consume _) _

theorem setDictionary_ok {p : Params} {i : IState} (h : i.Ok p) (addr n : Word) (m : Memory) :
    (setDictionary addr n m i).2.Ok p := by
  have appended := updateWindow_ok h m (addr + n) n.toNat
  rw [setDictionary]
  split
  · exact h
  split
  · exact h
  · exact ⟨appended.window.same rfl rfl rfl, appended.hold, ⟨appended.bits.le, appended.bits.whole⟩, appended.mode,
      appended.sane, appended.sync⟩

/-! ### The commands -/

section
variable {s : State} (h : Inv s) (k b : BitVec 8)
include h

theorem execDinit_safe : SafeNext (execDinit k b s) := by
  refine onContext_safe h k ?_
  split
  · exact h.setResult _
  · exact h.finish _ ⟨h.mem, Ctx.ok_deflate (Regs.totalsOk_zero _ rfl rfl) (dinitState_ok ‹_›)⟩

theorem execDproc_safe : SafeNext (execDproc k b s) :=
  onDeflate_safe h k fun r d hr hd =>
    (deflateCall_ok (byteOperand b) (x := DRun.start s r d) ⟨rfl, hr, h.mem, hd⟩).done _

theorem execDsetdict_safe : SafeNext (execDsetdict k b s) := by
  refine onDeflate_safe h k fun r d hr hd => ?_
  have start : (DRun.start s r d).Ok s.params := ⟨rfl, hr, h.mem, hd⟩
  split
  · exact start.done _
  · exact (loadDictionary_ok _ _ start).done _

theorem execDreset_safe : SafeNext (execDreset k b s) :=
  onDeflate_safe h k fun _ _ _ hd => ⟨h.mem, Ctx.ok_deflate (Regs.totalsOk_zero _ rfl rfl) (resetDeflate_ok hd)⟩

theorem execDparams_safe : SafeNext (execDparams k b s) := by
  refine onDeflate_safe h k fun r d hr hd => ?_
  have start : (DRun.start s r d).Ok s.params := ⟨rfl, hr, h.mem, hd⟩
  split
  · exact (changeParams_ok (levelOperand_le ‹_›) (strategyOperand_le ‹_›) start).done _
  · exact start.done _

theorem execDend_safe : SafeNext (execDend k b s) :=
  onDeflate_safe h k fun _ _ hr _ => ⟨h.mem, Ctx.ok_free hr⟩

theorem execIinit_safe : SafeNext (execIinit k b s) := by
  refine onContext_safe h k ?_
  split
  · exact h.setResult _
  · exact h.finish _ ⟨h.mem, Ctx.ok_inflate (Regs.totalsOk_zero _ rfl rfl) (resetInflate_ok ..)⟩

theorem execIproc_safe : SafeNext (execIproc k b s) := by
  refine onInflate_safe h k fun r i hr hi => ?_
  split
  · exact ⟨h.mem, Ctx.ok_inflate hr hi⟩
  · have call := inflateCall_ok (byteOperand b) hr h.mem hi
    exact ⟨call.mem, Ctx.ok_inflate call.totals call.i⟩

theorem execIsetdict_safe : SafeNext (execIsetdict k b s) :=
  onInflate_safe h k fun _ _ hr hi => ⟨h.mem, Ctx.ok_inflate hr (setDictionary_ok hi ..)⟩

theorem execIreset_safe : SafeNext (execIreset k b s) :=
  onInflate_safe h k fun _ _ _ _ => ⟨h.mem, Ctx.ok_inflate (Regs.totalsOk_zero _ rfl rfl) (resetInflate_ok ..)⟩

theorem execIsync_safe : SafeNext (execIsync k b s) := by
  refine onInflate_safe h k fun r i hr hi => ?_
  obtain ⟨totals, ok⟩ := syncCall_ok s.mem hr hi
  exact ⟨h.mem, Ctx.ok_inflate totals ok⟩

theorem execIcopy_safe : SafeNext (execIcopy k b s) := by
  refine onContext_safe h k ?_
  split
  · split
    · exact h.setResult _
    · exact (h.setCtx _ h.mem (h.ctx k.toNat)).setResult _
  · exact h.setResult _
  · exact h.setResult _

/-- IUNDERMINE turns the lenient mode on only where the build has it (47 R546). -/
theorem execIundermine_safe : SafeNext (execIundermine k b s) := by
  refine onInflate_safe h k fun r i hr hi => ?_
  have sane (v : Bool) (hv : s.params.allowTooFar = false → v = true) : IState.Ok s.params { i with sane := v } :=
    ⟨hi.window.same rfl rfl rfl, hi.hold, ⟨hi.bits.le, hi.bits.whole⟩, hi.mode, hv, hi.sync⟩
  split
  · rename_i build
    exact ⟨h.mem, Ctx.ok_inflate hr (sane _ fun e => by rw [e] at build; cases build)⟩
  · exact ⟨h.mem, Ctx.ok_inflate hr (sane true fun _ => rfl)⟩

theorem execIend_safe : SafeNext (execIend k b s) :=
  onInflate_safe h k fun _ _ hr _ => ⟨h.mem, Ctx.ok_free hr⟩

end

/-! ### Bits of a wire element (30 part 2) -/

theorem biReverse_lt (code n : Nat) : biReverse code n < 2 ^ n := by
  induction n generalizing code with
  | zero => exact Nat.zero_lt_one
  | succ n ih =>
    have rest := ih (code / 2)
    rw [biReverse, Nat.pow_succ]
    obtain e | e := Nat.mod_two_eq_zero_or_one code <;> rw [e] <;> omega

/-- Put in the order of the stream, a value has no more bits than before. -/
theorem wireBits_lt {f : Format} {w : Nat} (h : w < 2 ^ f.width) : wireBits f w < 2 ^ f.width := by
  cases f with
  | zlibHdr =>
    have h : w < 2 ^ 16 := h
    show w / 2 ^ 8 + w % 2 ^ 8 * 2 ^ 8 < 2 ^ 16
    omega
  | dictid | trailer => exact BitVec.isLt _
  | fixedLL7 | fixedLL8 | fixedLL9 | fixedDist => exact biReverse_lt ..
  | cmd | storedLen | blockHdr | llSym | distSym | clSym | entry => exact h

/-! ### An element on a live run (log entry 5) -/

namespace IRun

variable {p : Params} {i₀ : IState} {x : IRun}

/-- Bits put in front of those held keep the accumulator's range, where there is room and no part of a byte is left. -/
theorem offerBits_live {n v : Nat} (h : x.Live p i₀) (hv : v < 2 ^ n) (room : x.i.bits + n ≤ 32)
    (whole : x.i.mode = .DICTID ∨ x.i.mode = .CHECK → (x.i.bits + n) % 8 = 0) : (x.offerBits n v).Live p i₀ := by
  have hold : x.i.hold.toNat < 2 ^ x.i.bits := h.hold
  have joined : (BitVec.ofNat 32 v ||| (x.i.hold <<< n)).toNat < 2 ^ (x.i.bits + n) := by
    rw [BitVec.toNat_or, BitVec.toNat_ofNat, BitVec.toNat_shiftLeft, Nat.shiftLeft_eq]
    refine Nat.or_lt_two_pow (Nat.lt_of_le_of_lt (Nat.mod_le ..) (Nat.lt_of_lt_of_le hv ?_))
      (Nat.lt_of_le_of_lt (Nat.mod_le ..) ?_)
    · exact Nat.pow_le_pow_right (by decide) (Nat.le_add_left ..)
    · rw [Nat.pow_add]
      exact Nat.mul_lt_mul_of_pos_right hold (Nat.two_pow_pos _)
  exact { show x.vitals.Live p i₀ from h with hold := joined, bits := room, whole := whole }

theorem settle_live (h : x.Live p i₀) : IRun.Live p i₀ { x with i := x.i.settle } := by
  rw [IState.settle]
  split
  · exact h.enter .TYPEDO (by decide)
  split
  · exact h.enter .LEN (by decide)
  split
  · exact h.align x.i.mode h.mode
  · exact h

/-- In DICTID and CHECK the bits are read where they are. -/
theorem settle_of_whole {i : IState} (h : i.settle.mode = .DICTID ∨ i.settle.mode = .CHECK) : i.settle = i := by
  rw [IState.settle] at h ⊢
  split at h
  · exact absurd h (loose_not_whole (m := .TYPEDO) (by decide))
  split at h
  · exact absurd h (loose_not_whole (m := .LEN) (by decide))
  split at h
  · exact absurd h (loose_not_whole (m := i.mode) (by simp only [*]; decide))
  · rw [if_neg ‹_›, if_neg ‹_›, if_neg ‹_›]

theorem takeBits_live {n v : Nat} (hv : v < 2 ^ n) (hr : x.i.readsBits n = true) (h : x.Live p i₀) :
    (x.takeBits n v).2.Live p i₀ := by
  simp only [IState.readsBits, IState.room, IState.wholeBytes, Bool.and_eq_true, decide_eq_true_eq] at hr
  obtain ⟨⟨-, room⟩, whole⟩ := hr
  refine iStep_live _ (offerBits_live (settle_live h) hv room fun e => ?_)
  have same := settle_of_whole e
  dsimp only at e ⊢
  rw [same] at e ⊢
  exact whole e

/-- A code-length symbol's extra bits are put back, and read again by the symbol's own rule (R516). -/
theorem takeClSym_live {sym n extra : Nat} (hv : extra < 2 ^ n) (hr : x.i.readsCl = true) (room : x.i.bits + n ≤ 32)
    (h : x.Live p i₀) : (x.takeClSym sym n extra).2.Live p i₀ := by
  simp only [IState.readsCl, decide_eq_true_eq] at hr
  refine clEntry_live _ (offerBits_live h hv room fun e => ?_) hr.1
  rw [hr.1] at e
  exact absurd e (by decide)

theorem takeEntry_live (op bits val : Nat) (h : x.Live p i₀) : (x.takeEntry op bits val).2.Live p i₀ := by
  rw [takeEntry]
  split
  · rename_i dist
    exact distEntry_live _ h (by rw [of_decide_eq_true dist]; decide)
  split
  · rename_i cl
    exact clEntry_live _ h (of_decide_eq_true cl).1
  · exact lenEntry_live _ (h.enter .LEN (by decide)) (show Mode.LEN ∈ looseModes by decide)

end IRun

/-! ### The elements -/

theorem IState.mode_ne_sync_of_readsCl {i : IState} (hr : i.readsCl = true) : i.mode ≠ .SYNC := by
  intro e
  simp [IState.readsCl, e] at hr

section
variable {s : State} (h : Inv s)
include h

/-- An offer is safe when its effect on the I-engine's run keeps the invariant. No element is read in SYNC. -/
theorem onPlace_safe {reads : IState → Bool} {f : IRun → Ctl × IRun}
    (notSync : ∀ i : IState, reads i = true → i.mode ≠ .SYNC)
    (hf : ∀ (x : IRun) (i₀ : IState), reads x.i = true → x.Live s.params i₀ → (f x).2.Live s.params i₀) :
    SafeNext (onPlace reads f s) := by
  obtain refused | ⟨i, hi, hr⟩ := onPlace_cases reads f s
  · exact ⟨_, refused, h.setResult _⟩
  · have hc := h.ctx s.cur
    have ok := hc.inflate i hi
    have live := hf (IRun.load s.params zNoFlush (s.ctx s.cur).regs i s.mem) i hr
      (IRun.live_of_ok (x := IRun.load s.params zNoFlush (s.ctx s.cur).regs i s.mem) rfl hc.totals h.mem ok (notSync i hr))
    exact ⟨_, onPlace_reads hi hr, h.setCtx _ live.mem (Ctx.ok_inflate live.totals (live.ok ok))⟩

theorem onBits_safe {n v : Nat} (hv : v < 2 ^ n) : SafeNext (onBits n v s) := by
  refine onPlace_safe h (fun i hr e => ?_) fun _ _ => IRun.takeBits_live hv
  simp only [IState.readsBits, Bool.and_eq_true, decide_eq_true_eq] at hr
  exact absurd (e ▸ hr.1.1) (by decide)

theorem onCode_safe (n code : Nat) : SafeNext (onCode n code s) := onBits_safe h (biReverse_lt ..)

theorem onLen_safe (sym : Nat) : SafeNext (onPlace IState.readsLen (fun x => x.takeLenSym sym) s) := by
  refine onPlace_safe h (fun i hr e => ?_) fun x _ _ live => IRun.lenAction_live _ x live
  rw [IState.readsLen, e] at hr
  exact absurd hr (by decide)

theorem onDist_safe (sym : Nat) : SafeNext (onPlace IState.readsDist (fun x => x.takeDistSym sym) s) := by
  refine onPlace_safe h (fun i hr e => ?_) fun x _ _ live => IRun.distAction_live _ x live
  rw [IState.readsDist, e] at hr
  exact absurd hr (by decide)

theorem onCl_safe {sym n extra : Nat} (hv : extra < 2 ^ n) :
    SafeNext (onPlace (fun i => i.readsCl && i.room n) (fun x => x.takeClSym sym n extra) s) := by
  refine onPlace_safe h (fun i hr => ?_) fun x _ hr live => ?_
  · exact IState.mode_ne_sync_of_readsCl (Bool.and_eq_true_iff.mp hr).1
  · obtain ⟨cl, room⟩ := Bool.and_eq_true_iff.mp hr
    exact IRun.takeClSym_live hv cl (of_decide_eq_true room) live

theorem onEntry_safe (n : BitVec 8) (op bits val : Nat) :
    SafeNext (onPlace (fun i => i.readsEntry n) (fun x => x.takeEntry op bits val) s) := by
  refine onPlace_safe h (fun i hr e => ?_) fun x _ _ live => IRun.takeEntry_live op bits val live
  simp [IState.readsEntry, IState.readsLen, IState.readsDist, IState.readsCl, e] at hr

theorem offerStray_safe {f : Format} {w : Nat} (hw : w < 2 ^ f.width) (why : Reject) : SafeNext (offerStray f w why s) := by
  cases why with
  | wrongMethod | noSuchCode => exact onBits_safe h (wireBits_lt hw)
  | unknownEntryOp => exact onEntry_safe h _ _ _ _
  | reservedBits | unknownOpcode | noSuchSymbol | tooWide | strayExtra => exact ⟨_, rfl, h.setResult _⟩

/-- A write of the CSR space reaches the four cursors and the ARG registers, of which the invariant says nothing. -/
theorem csrWrite_inv (off v : Word) : Inv (s.csrWrite off v) := by
  have cursors (k o : Nat) : ((s.ctx k).csrWrite o v).Ok s.params := by
    obtain ⟨totals, deflate, inflate⟩ := h.ctx k
    unfold Ctx.csrWrite
    split <;> exact ⟨totals, deflate, inflate⟩
  rw [State.csrWrite]
  dsimp only
  split
  · exact h
  split
  · split <;> exact ⟨h.params, h.mem, h.count, h.ctxs⟩
  split
  · exact h.setCtx _ h.mem (cursors ..)
  · exact h

/-- Every instruction is safe on a safe machine. -/
theorem exec_safe (i : Instr) : SafeNext (exec i s) := by
  cases i with
  | dinit k b => exact execDinit_safe h k b
  | dproc k b => exact execDproc_safe h k b
  | dsetdict k b => exact execDsetdict_safe h k b
  | dreset k b => exact execDreset_safe h k b
  | dparams k b => exact execDparams_safe h k b
  | dend k b => exact execDend_safe h k b
  | iinit k b => exact execIinit_safe h k b
  | iproc k b => exact execIproc_safe h k b
  | isetdict k b => exact execIsetdict_safe h k b
  | ireset k b => exact execIreset_safe h k b
  | isync k b => exact execIsync_safe h k b
  | icopy k b => exact execIcopy_safe h k b
  | iundermine k b => exact execIundermine_safe h k b
  | iend k b => exact execIend_safe h k b
  | blkStored bfinal | blkFixed bfinal | blkDynamic bfinal | blkReserved bfinal =>
    exact onBits_safe h (by cases bfinal <;> decide)
  | zlibHdr cinfo flevel fdict fcheck =>
    have := fdict.toNat_lt
    exact onBits_safe h (by omega)
  | storedLen len nlen => exact onBits_safe h (by omega)
  | zlibDictid | zlibTrailer => exact onBits_safe h (BitVec.isLt _)
  | fixEob | fixLen257to263 | fixLen264to271 | fixLen272to279 | fixLit0to15 | fixLit16to79 | fixLit80to143 | fixLen280to285
  | fixInvalid286to287 | fixLit144to159 | fixLit160to191 | fixLit192to255 | fixDist0to15 | fixDist16to29
  | fixDistInvalid => exact onCode_safe h _ _
  | symLiteral | symEob | symLength | symLlInvalid => exact onLen_safe h _
  | symDist | symDistInvalid => exact onDist_safe h _
  | clLength len =>
    refine onPlace_safe h (fun i hr => IState.mode_ne_sync_of_readsCl hr) fun x _ hr live => ?_
    exact IRun.takeClSym_live (by decide) hr live.bits live
  | clRepeatPrev extra | clZerosShort extra | clZerosLong extra => exact onCl_safe h extra.isLt
  | entLiteral | entLink | entBase | entEob | entInvalid => exact onEntry_safe h _ _ _ _

/-- Every host access is safe on a safe machine. -/
theorem access_safe (a : Input) : SafeNext (access a s) := by
  cases a with
  | powerOnReset =>
    refine ⟨_, rfl, h.params, h.mem, List.length_replicate, fun c hc => ?_⟩
    rw [List.eq_of_mem_replicate hc]
    exact Ctx.reset_ok _
  | csrWrite off v =>
    rw [access]
    split
    · rw [submit]
      split
      · exact exec_safe h _
      · exact ⟨_, rfl, h.setResult _⟩
    · exact ⟨_, rfl, csrWrite_inv h off v⟩
  | csrRead off => exact ⟨_, rfl, h.params, h.mem, h.count, h.ctxs⟩
  | memWrite addr b => exact ⟨_, rfl, h.params, Memory.write_wf h.mem, h.count, h.ctxs⟩
  | memRead addr => exact ⟨_, rfl, h.params, h.mem, h.count, h.ctxs⟩
  | wire k f v =>
    have here : Inv { s with cur := k.toNat } := ⟨h.params, h.mem, h.count, h.ctxs⟩
    rw [access, offerElement]
    split
    · exact exec_safe here _
    · exact offerStray_safe here (ownBits_lt ..) _

end

/-- Settles O13: a step is a host access, or none is to come. -/
theorem stepKeepsInv : Obligations.StepKeepsInv := by
  unfold Obligations.StepKeepsInv
  intro s h
  rw [step]
  split
  · exact ⟨s, rfl, h⟩
  · next a rest _ => exact access_safe (s := { s with inputs := rest }) ⟨h.params, h.mem, h.count, h.ctxs⟩ a

end Sys2Proof.Machine
end

section
/-! The KIND check (60 R624): a command on a slot of another kind is turned away, whatever its rule is. -/

namespace Sys2Proof.Machine

/-- ICOPY makes the KIND check of its source's slot without `onInflate`: its end is on another context (47 R545). -/
theorem execIcopy_other {k b : BitVec 8} {s : State} (hi : ∀ x, (s.ctx k.toNat).slot ≠ .inflate x) :
    execIcopy k b s = .next (s.setResult .streamError) := by
  by_cases hk : k.toNat < s.params.nctx
  · rw [execIcopy, onContext_lt hk]
    cases h : (s.ctx k.toNat).slot with
    | inflate x => exact absurd h (hi x)
    | free => rfl
    | deflate d => rfl
  · exact onContext_ge (Nat.le_of_not_lt hk)

/-- Settles O6: each command but ICOPY ends in the KIND check of its engine, and ICOPY has its own. -/
theorem kindCheck : Obligations.KindCheck := by
  unfold Obligations.KindCheck
  intro k b s
  simp only [List.forall_mem_cons, exec]
  refine ⟨fun hd => ⟨?dproc, ?dsetdict, ?dreset, ?dparams, ?dend, List.forall_mem_nil _⟩,
    fun hi => ⟨?iproc, ?isetdict, ?ireset, ?isync, ?icopy, ?iundermine, ?iend, List.forall_mem_nil _⟩⟩
  case dproc | dsetdict | dreset | dparams | dend => exact onDeflate_other hd
  case iproc | isetdict | ireset | isync | iundermine | iend => exact onInflate_other hi
  case icopy => exact execIcopy_other hi

end Sys2Proof.Machine
end

section
/-! PROOFS. Power-on reset (70 R670): the state it leaves, as the host reads it, and that this state is safe. -/

namespace Sys2Proof.Machine

/-! ### What power-on reset does -/

theorem step_of_powerOnReset {s : State} {rest : List Input} (h : s.inputs = .powerOnReset :: rest) :
    step s = .next { State.powerOn s.params s.mem with inputs := rest } := by
  rw [step, h]
  rfl

theorem step_of_no_inputs {s : State} (h : s.inputs = []) : step s = .next s := by
  rw [step, h]

theorem State.ctx_powerOn {p : Params} (m : Memory) {k : Nat} (h : k < p.nctx) : (State.powerOn p m).ctx k = Ctx.reset := by
  rw [State.ctx, List.getD_eq_getElem?_getD, State.powerOn, List.getElem?_replicate_of_lt h, Option.getD_some]

/-! ### The block of a reset context (10_state R34) -/

/-- Every register of a reset context holds 0, and so does every other offset of its block. -/
theorem Ctx.csrRead_reset (o : Nat) : Ctx.reset.csrRead o = 0 := by
  unfold Ctx.csrRead
  split <;> rfl

/-- The whole block of a reset context reads as 0: an offset that is not aligned maps no register (20_memory R101). -/
theorem State.csrRead_of_ctx_reset {s : State} {k o : Nat} (hs : s.params.wf = true) (hk : k < s.params.nctx)
    (ho : o < 0x40) (hc : s.ctx k = Ctx.reset) : s.csrRead (BitVec.ofNat 32 (0x100 + 0x40 * k + o)) = 0 := by
  by_cases aligned : o % 4 = 0
  · rw [State.csrRead_ctxOffset hs hk ho aligned, hc, Ctx.csrRead_reset]
  · obtain ⟨sameRest, -, -, -⟩ := ctxOffset_parts (Nat.lt_of_lt_of_le hk (Params.nctx_le_of_wf hs)) ho
    exact State.csrRead_unmapped (.inl (sameRest ▸ aligned))

/-! ### The state after it is safe -/

/-- Power-on reset of a permitted build, host memory being canonical, leaves a safe machine. -/
theorem State.powerOn_inv {p : Params} {m : Memory} (hp : p.wf = true) (hm : m.wf = true) : Inv (State.powerOn p m) where
  params := hp
  mem := hm
  count := List.length_replicate
  ctxs _ hc := List.eq_of_mem_replicate hc ▸ Ctx.reset_ok p

/-! ### The obligations -/

/-- Settles O11: the access is `State.powerOn`, whose contexts are all `Ctx.reset`; the machine after it has no access to
come. -/
theorem powerOnReset : Obligations.PowerOnReset := by
  unfold Obligations.PowerOnReset
  refine ⟨fun s rest hin => ?_, step_of_no_inputs rfl⟩
  refine ⟨_, step_of_powerOnReset hin, rfl, rfl, rfl, rfl, rfl, rfl, rfl, rfl, List.length_replicate, ?ctxs, ?reads⟩
  case ctxs =>
    intro c hc
    rw [List.eq_of_mem_replicate hc]
    exact ⟨rfl, rfl⟩
  case reads =>
    intro hwf k hk o ho
    exact State.csrRead_of_ctx_reset hwf hk ho (State.ctx_powerOn s.mem hk)

/-- Settles O12: four contexts are a permitted number, and memory with nothing listed is canonical. -/
theorem resetIsSafe : Obligations.ResetIsSafe := State.powerOn_inv rfl rfl

end Sys2Proof.Machine
end
